-- ==== Sys2Proof/Word.lean ====
section
/-! DEFINITION. The word types of the LZ4K codec block: a byte of memory, a host-visible register, a bus address. -/

namespace Sys2Proof

/-- One byte of memory, the stream's unit (20_memory.md R60, R65). -/
abbrev Byte := BitVec 8

/-- One host-visible register (10_state.md R21). -/
abbrev Reg := BitVec 32

/-- One bus address, ADDR_W = 64 (00_scope.md R9, 20_memory.md R60). -/
abbrev Addr := BitVec 64

end Sys2Proof
end

