-- ==== Sys2Proof/Syntax.lean ====
section
/-! DEFINITION. The block's instruction set: the 38 rows of spec/opcode_table.json, one constructor each, in the
table's order. A row with free bits carries them as operands. -/

namespace Sys2Proof

/-- A block-size class (00_scope.md R8, 30_encoding.md R93): the `cls` register of 10_state.md R40. -/
inductive BlockClass where
  | c0 | c1 | c2 | c3 | c4
deriving DecidableEq, Repr

/-- The class as the number the class byte holds (R93). -/
def BlockClass.toNat : BlockClass → Nat
  | .c0 => 0
  | .c1 => 1
  | .c2 => 2
  | .c3 => 3
  | .c4 => 4

/-- The five formats of the opcode table. Which one a word has is no bit of the word: it is what the engine expects
next (30_encoding.md R95, R98), and for a tag the class of the block. -/
inductive Format where
  | cmd
  | classByte
  | tag (c : BlockClass)
  | esc
  | lit
deriving DecidableEq, Repr

/-- How many bytes a word of the format has (R90, R92, R94, R97). -/
def Format.size : Format → Nat
  | .cmd => 4
  | .classByte => 1
  | .tag _ => 3
  | .esc => 1
  | .lit => 1

/-- One constructor per row of spec/opcode_table.json. -/
inductive Instr where
  -- command words (R90, R91)
  | encode
  | decode
  | updateDeltaState
  | encodeDelta
  | decodeDelta
  | illegalOp0
  | illegalOp67 (lo : BitVec 1)
  | illegalOp8F (lo : BitVec 3)
  -- class bytes (R93, R232)
  | hdrC0
  | hdrC1
  | hdrC2
  | hdrC3
  | hdrC4
  | badHdr05
  | badHdr0607 (lo : BitVec 1)
  | badHdr080F (lo : BitVec 3)
  | badHdr101F (lo : BitVec 4)
  | badHdr203F (lo : BitVec 5)
  | badHdr407F (lo : BitVec 6)
  | badHdr80FF (lo : BitVec 7)
  -- tags, by class (R94, R95)
  | endC0 (nr : BitVec 6)
  | badEndC0 (nr : BitVec 6) (r : BitVec 6)
  | repC0 (nr : BitVec 6) (r : BitVec 6) (off : BitVec 12)
  | endC1 (nr : BitVec 5)
  | badEndC1 (nr : BitVec 5) (r : BitVec 6)
  | repC1 (nr : BitVec 5) (r : BitVec 6) (off : BitVec 13)
  | endC2 (nr : BitVec 5)
  | badEndC2 (nr : BitVec 5) (r : BitVec 5)
  | repC2 (nr : BitVec 5) (r : BitVec 5) (off : BitVec 14)
  | endC3 (nr : BitVec 4)
  | badEndC3 (nr : BitVec 4) (r : BitVec 5)
  | repC3 (nr : BitVec 4) (r : BitVec 5) (off : BitVec 15)
  | endC4 (nr : BitVec 4)
  | badEndC4 (nr : BitVec 4) (r : BitVec 4)
  | repC4 (nr : BitVec 4) (r : BitVec 4) (off : BitVec 16)
  -- escape bytes (R97, R136) and literal bytes (R236)
  | escCont
  | escEnd (value : Byte)
  | lit (value : Byte)
deriving DecidableEq, Repr

/-- The format a row stands in ("format" of the opcode table). -/
def Instr.format : Instr → Format
  | .encode => .cmd
  | .decode => .cmd
  | .updateDeltaState => .cmd
  | .encodeDelta => .cmd
  | .decodeDelta => .cmd
  | .illegalOp0 => .cmd
  | .illegalOp67 _ => .cmd
  | .illegalOp8F _ => .cmd
  | .hdrC0 => .classByte
  | .hdrC1 => .classByte
  | .hdrC2 => .classByte
  | .hdrC3 => .classByte
  | .hdrC4 => .classByte
  | .badHdr05 => .classByte
  | .badHdr0607 _ => .classByte
  | .badHdr080F _ => .classByte
  | .badHdr101F _ => .classByte
  | .badHdr203F _ => .classByte
  | .badHdr407F _ => .classByte
  | .badHdr80FF _ => .classByte
  | .endC0 _ => .tag .c0
  | .badEndC0 _ _ => .tag .c0
  | .repC0 _ _ _ => .tag .c0
  | .endC1 _ => .tag .c1
  | .badEndC1 _ _ => .tag .c1
  | .repC1 _ _ _ => .tag .c1
  | .endC2 _ => .tag .c2
  | .badEndC2 _ _ => .tag .c2
  | .repC2 _ _ _ => .tag .c2
  | .endC3 _ => .tag .c3
  | .badEndC3 _ _ => .tag .c3
  | .repC3 _ _ _ => .tag .c3
  | .endC4 _ => .tag .c4
  | .badEndC4 _ _ => .tag .c4
  | .repC4 _ _ _ => .tag .c4
  | .escCont => .esc
  | .escEnd _ => .esc
  | .lit _ => .lit

end Sys2Proof
end

