-- ==== Sys2Proof/WellFormed.lean ====
section
/-! DEFINITION. The constraints the opcode table puts on a row's operands ("constraint" of
spec/opcode_table.json); every other operand value is legal. -/

namespace Sys2Proof

/-- The table's constraint on the operands: `r_field != 0` of the BAD_END rows, `off_field != 0` of the REP rows
(30_encoding.md R95), `byte != 0xFF` of ESC_END (R97). -/
def Instr.wf : Instr → Bool
  | .badEndC0 _ r => r != 0
  | .repC0 _ _ off => off != 0
  | .badEndC1 _ r => r != 0
  | .repC1 _ _ off => off != 0
  | .badEndC2 _ r => r != 0
  | .repC2 _ _ off => off != 0
  | .badEndC3 _ r => r != 0
  | .repC3 _ _ off => off != 0
  | .badEndC4 _ r => r != 0
  | .repC4 _ _ off => off != 0
  | .escEnd v => v != 255
  | .encode => true
  | .decode => true
  | .updateDeltaState => true
  | .encodeDelta => true
  | .decodeDelta => true
  | .illegalOp0 => true
  | .illegalOp67 _ => true
  | .illegalOp8F _ => true
  | .hdrC0 => true
  | .hdrC1 => true
  | .hdrC2 => true
  | .hdrC3 => true
  | .hdrC4 => true
  | .badHdr05 => true
  | .badHdr0607 _ => true
  | .badHdr080F _ => true
  | .badHdr101F _ => true
  | .badHdr203F _ => true
  | .badHdr407F _ => true
  | .badHdr80FF _ => true
  | .endC0 _ => true
  | .endC1 _ => true
  | .endC2 _ => true
  | .endC3 _ => true
  | .endC4 _ => true
  | .escCont => true
  | .lit _ => true

end Sys2Proof
end

