-- ==== Sys2Proof/Decode.lean ====
section
/-! DEFINITION. Decoding and encoding: the command word, the class byte, the tag of each class, the escape byte and
the literal byte (30_encoding.md R90 to R98, 40_primitives.md R133, R134, R138). The decoder is total on any bytes and
rejects by name; the encoder stands after it. -/

namespace Sys2Proof

/-- Why a format finds no word in the bytes it is given. For a tag and an escape byte these are the spec's own
illegal streams (30_encoding.md R99 (b), (c)); the engine turns them into the causes of 60_exceptions.md R281. -/
inductive DecodeError where
  /-- fewer than 4 bytes where a command word must stand -/
  | noCommandWord
  /-- no byte where the class byte must stand -/
  | noClassByte
  /-- fewer than 3 bytes where a tag must stand (R99 (b)) -/
  | truncTag
  /-- no byte where an escape byte must stand (R99 (c)) -/
  | truncEsc
  /-- no byte where a literal byte must stand (R99 (d)) -/
  | noLiteral
deriving DecidableEq, Repr

/-- The field widths of a class: nr_log2, off_log2, r_log2. -/
structure Widths where
  nrLog2 : Nat
  offLog2 : Nat
  rLog2 : Nat
deriving DecidableEq, Repr

/-- `params(c)` (40_primitives.md R133). -/
def classParams : BlockClass → Widths
  | .c0 => ⟨6, 12, 6⟩
  | .c1 => ⟨5, 13, 6⟩
  | .c2 => ⟨5, 14, 5⟩
  | .c3 => ⟨4, 15, 5⟩
  | .c4 => ⟨4, 16, 4⟩

/-- `mask(n) = 2^n - 1` (R130). -/
def mask (n : Nat) : Nat := 2 ^ n - 1

/-- The little-endian word of three bytes (20_memory.md R63). -/
def tagOfBytes (b0 b1 b2 : Byte) : BitVec 24 := b2 ++ b1 ++ b0

/-- The little-endian word of four bytes: a 32-bit register access. -/
def wordOfBytes (b0 b1 b2 b3 : Byte) : Reg := b3 ++ b2 ++ b1 ++ b0

/-- The bytes of a tag in stream order (R63, R134). -/
def tagBytes (t : BitVec 24) : List Byte := [t.extractLsb' 0 8, t.extractLsb' 8 8, t.extractLsb' 16 8]

/-- The bytes of a 32-bit word, least significant first. -/
def wordBytes (w : Reg) : List Byte :=
  [w.extractLsb' 0 8, w.extractLsb' 8 8, w.extractLsb' 16 8, w.extractLsb' 24 8]

/-- The command word: only bits 3:0 select, bits 31:4 are ignored (30_encoding.md R90, R91). -/
def decodeCmd (w : Reg) : Instr :=
  let op := w.extractLsb' 0 4
  if op = 1#4 then .encode
  else if op = 2#4 then .decode
  else if op = 3#4 then .updateDeltaState
  else if op = 4#4 then .encodeDelta
  else if op = 5#4 then .decodeDelta
  else if op = 0#4 then .illegalOp0
  else if op.extractLsb' 1 3 = 3#3 then .illegalOp67 (w.extractLsb' 0 1)
  else .illegalOp8F (w.extractLsb' 0 3)

/-- The class byte: 0 to 4 are legal, every other value is illegal (R93, R232). -/
def decodeClass (b : Byte) : Instr :=
  if b = 0#8 then .hdrC0
  else if b = 1#8 then .hdrC1
  else if b = 2#8 then .hdrC2
  else if b = 3#8 then .hdrC3
  else if b = 4#8 then .hdrC4
  else if b = 5#8 then .badHdr05
  else if b.extractLsb' 1 7 = 3#7 then .badHdr0607 (b.extractLsb' 0 1)
  else if b.extractLsb' 3 5 = 1#5 then .badHdr080F (b.extractLsb' 0 3)
  else if b.extractLsb' 4 4 = 1#4 then .badHdr101F (b.extractLsb' 0 4)
  else if b.extractLsb' 5 3 = 1#3 then .badHdr203F (b.extractLsb' 0 5)
  else if b.extractLsb' 6 2 = 1#2 then .badHdr407F (b.extractLsb' 0 6)
  else .badHdr80FF (b.extractLsb' 0 7)

/-- A tag of class `c`: off_field in the low bits, then r_field, then nr_field (R94); the record kind is END for
off = r = 0, BAD_END for off = 0 and r ≠ 0, REP for off ≠ 0 (R95). -/
def decodeTag (c : BlockClass) (t : BitVec 24) : Instr :=
  match c with
  | .c0 =>
    if t.extractLsb' 0 12 ≠ 0 then .repC0 (t.extractLsb' 18 6) (t.extractLsb' 12 6) (t.extractLsb' 0 12)
    else if t.extractLsb' 12 6 ≠ 0 then .badEndC0 (t.extractLsb' 18 6) (t.extractLsb' 12 6)
    else .endC0 (t.extractLsb' 18 6)
  | .c1 =>
    if t.extractLsb' 0 13 ≠ 0 then .repC1 (t.extractLsb' 19 5) (t.extractLsb' 13 6) (t.extractLsb' 0 13)
    else if t.extractLsb' 13 6 ≠ 0 then .badEndC1 (t.extractLsb' 19 5) (t.extractLsb' 13 6)
    else .endC1 (t.extractLsb' 19 5)
  | .c2 =>
    if t.extractLsb' 0 14 ≠ 0 then .repC2 (t.extractLsb' 19 5) (t.extractLsb' 14 5) (t.extractLsb' 0 14)
    else if t.extractLsb' 14 5 ≠ 0 then .badEndC2 (t.extractLsb' 19 5) (t.extractLsb' 14 5)
    else .endC2 (t.extractLsb' 19 5)
  | .c3 =>
    if t.extractLsb' 0 15 ≠ 0 then .repC3 (t.extractLsb' 20 4) (t.extractLsb' 15 5) (t.extractLsb' 0 15)
    else if t.extractLsb' 15 5 ≠ 0 then .badEndC3 (t.extractLsb' 20 4) (t.extractLsb' 15 5)
    else .endC3 (t.extractLsb' 20 4)
  | .c4 =>
    if t.extractLsb' 0 16 ≠ 0 then .repC4 (t.extractLsb' 20 4) (t.extractLsb' 16 4) (t.extractLsb' 0 16)
    else if t.extractLsb' 16 4 ≠ 0 then .badEndC4 (t.extractLsb' 20 4) (t.extractLsb' 16 4)
    else .endC4 (t.extractLsb' 20 4)

/-- An escape byte: 255 continues the chain, any other value ends it (R97, R136). -/
def decodeEsc (b : Byte) : Instr := if b = 255#8 then .escCont else .escEnd b

/-- Decode the first word of a byte string in a format, and give back the rest. -/
def decode : Format → List Byte → Except DecodeError (Instr × List Byte)
  | .cmd, b0 :: b1 :: b2 :: b3 :: rest => .ok (decodeCmd (wordOfBytes b0 b1 b2 b3), rest)
  | .cmd, _ => .error .noCommandWord
  | .classByte, b :: rest => .ok (decodeClass b, rest)
  | .classByte, [] => .error .noClassByte
  | .tag c, b0 :: b1 :: b2 :: rest => .ok (decodeTag c (tagOfBytes b0 b1 b2), rest)
  | .tag _, _ => .error .truncTag
  | .esc, b :: rest => .ok (decodeEsc b, rest)
  | .esc, [] => .error .truncEsc
  | .lit, b :: rest => .ok (.lit b, rest)
  | .lit, [] => .error .noLiteral

/-- The command word of an opcode, its reserved bits 0 (R90). -/
def cmdWord (op : BitVec 4) : Reg := op.setWidth 32

/-- The words of an instruction, in stream order (for a command, the 32-bit word little-endian). -/
def encode : Instr → List Byte
  | .encode => wordBytes (cmdWord 1)
  | .decode => wordBytes (cmdWord 2)
  | .updateDeltaState => wordBytes (cmdWord 3)
  | .encodeDelta => wordBytes (cmdWord 4)
  | .decodeDelta => wordBytes (cmdWord 5)
  | .illegalOp0 => wordBytes (cmdWord 0)
  | .illegalOp67 lo => wordBytes (cmdWord (3#3 ++ lo))
  | .illegalOp8F lo => wordBytes (cmdWord (1#1 ++ lo))
  | .hdrC0 => [0]
  | .hdrC1 => [1]
  | .hdrC2 => [2]
  | .hdrC3 => [3]
  | .hdrC4 => [4]
  | .badHdr05 => [5]
  | .badHdr0607 lo => [3#7 ++ lo]
  | .badHdr080F lo => [1#5 ++ lo]
  | .badHdr101F lo => [1#4 ++ lo]
  | .badHdr203F lo => [1#3 ++ lo]
  | .badHdr407F lo => [1#2 ++ lo]
  | .badHdr80FF lo => [1#1 ++ lo]
  | .endC0 nr => tagBytes (nr ++ 0#6 ++ 0#12)
  | .badEndC0 nr r => tagBytes (nr ++ r ++ 0#12)
  | .repC0 nr r off => tagBytes (nr ++ r ++ off)
  | .endC1 nr => tagBytes (nr ++ 0#6 ++ 0#13)
  | .badEndC1 nr r => tagBytes (nr ++ r ++ 0#13)
  | .repC1 nr r off => tagBytes (nr ++ r ++ off)
  | .endC2 nr => tagBytes (nr ++ 0#5 ++ 0#14)
  | .badEndC2 nr r => tagBytes (nr ++ r ++ 0#14)
  | .repC2 nr r off => tagBytes (nr ++ r ++ off)
  | .endC3 nr => tagBytes (nr ++ 0#5 ++ 0#15)
  | .badEndC3 nr r => tagBytes (nr ++ r ++ 0#15)
  | .repC3 nr r off => tagBytes (nr ++ r ++ off)
  | .endC4 nr => tagBytes (nr ++ 0#4 ++ 0#16)
  | .badEndC4 nr r => tagBytes (nr ++ r ++ 0#16)
  | .repC4 nr r off => tagBytes (nr ++ r ++ off)
  | .escCont => [255]
  | .escEnd v => [v]
  | .lit v => [v]

/-- `pack_tag(c, nf, rf, of)` as a number (R134). -/
def packTag (c : BlockClass) (nf rf off : Nat) : Nat :=
  (nf <<< ((classParams c).offLog2 + (classParams c).rLog2)) ||| (rf <<< (classParams c).offLog2) ||| off

/-- The fields of a tag: `(nr_field, r_field, off_field)` of `unpack_tag(c, b0, b1, b2)` (R138), over the word `t`. -/
def unpackTag (c : BlockClass) (t : Nat) : Nat × Nat × Nat :=
  (t >>> ((classParams c).offLog2 + (classParams c).rLog2),
   (t >>> (classParams c).offLog2) &&& mask (classParams c).rLog2,
   t &&& mask (classParams c).offLog2)

/-- The format in which a bare table word is read. The table numbers the words of five formats over each other (the
byte 01 is ENCODE, HDR_C1, an escape byte and a literal byte), and only the engine's place in the stream tells them
apart; a bare word has no place. CONVENTION, DESIGN CHOICE (log entry 6): a word of at most 8 bits below 16 is a command
word, 255 an escape byte, any other a class byte; up to 24 bits it is a tag of class 0; wider, a command word. -/
def tableFormat (nbits w : Nat) : Format :=
  if nbits ≤ 8 then (if w < 16 then .cmd else if w = 255 then .esc else .classByte)
  else if nbits ≤ 24 then .tag .c0
  else .cmd

/-- `n` bytes of a number, least significant first. -/
def bytesOfNat : Nat → Nat → List Byte
  | 0, _ => []
  | n + 1, w => BitVec.ofNat 8 w :: bytesOfNat n (w / 256)

/-- The instruction the decoder reads from a bare table word (see `tableFormat`). -/
def decodeTableWord (nbits w : Nat) : Option Instr :=
  match decode (tableFormat nbits w) (bytesOfNat (tableFormat nbits w).size w) with
  | .ok (i, _) => some i
  | .error _ => none

end Sys2Proof
end

