-- ==== Sys2Proof/Config.lean ====
section
/-! DEFINITION. What is fixed while the machine runs: the constants of 00_scope.md R8 and R9, the parameters the spec
leaves OPEN (R9; summary table of 92_eei_decisions.md), and the FREE VALUES: constants without a body, applied to a draw
counter, for what the spec says holds any value (93_implementation_defined.md I1 to I8). -/

namespace Sys2Proof

/-- MATCH_FINDER (R9, R179): `any` is normative, `reference` is the spec's deterministic finder. -/
inductive MatchFinder where
  | any
  | reference
deriving DecidableEq, Repr

/-- A range of addresses: `[base, base + len)` (00_scope.md R12). -/
structure Span where
  base : Nat
  len : Nat
deriving DecidableEq, Repr

/-- One record `(n, off, m)` of a parse (41_encoder.md R178): literal count, offset, repeat length; the terminal
record is `(n, 0, 0)`. -/
structure ParseRecord where
  n : Nat
  off : Nat
  m : Nat
deriving DecidableEq, Repr

/-- The parameters of a block instance, constant while it runs. "the model takes the named ones as arguments" (R9). -/
structure Params where
  /-- REG_BASE, the address of the register block in the host's own address space (R9, R21, R60); OPEN. -/
  regBase : Addr
  /-- MATCH_FINDER (R9, D24). -/
  matchFinder : MatchFinder
  /-- READ_ERR_ON_EXHAUST (R9, D18, R247). -/
  readErrOnExhaust : Bool
  /-- DELTA_PRESENT (R9, D2, R91). -/
  deltaPresent : Bool
  /-- HASH_MUL (R9, D25, R137, I10). -/
  hashMul : BitVec 64
  /-- How many bytes the host allocated for the STATE buffer: the host's premise of 70_reset_and_hazards.md R330. -/
  stateBufLen : Nat
  /-- Addresses that are not ordinary memory (a device, a bus or translation fault): the platform's premise of
  20_memory.md R65 and R73. -/
  notMemory : List Span
deriving DecidableEq, Repr

namespace Config

/-- HT_LOG2 (R8). -/
def htLog2 : Nat := 12
/-- HT_ENTRIES = 2^HT_LOG2 (R8). -/
def htEntries : Nat := 4096
/-- STATE_MIN_SIZE = 2^(HT_LOG2 + 1) bytes (R8, R24). -/
def stateMinSize : Nat := 8192
/-- TAG_BYTES (R8). -/
def tagBytes : Nat := 3
/-- REPEAT_MIN (R8). -/
def repeatMin : Nat := 4
/-- HASH_BYTES (R8). -/
def hashBytes : Nat := 6
/-- GAIN_MIN (R8). -/
def gainMin : Nat := 64
/-- GAIN_SHIFT (R8). -/
def gainShift : Nat := 6
/-- ESC_BYTE_MAX (R8). -/
def escByteMax : Nat := 255
/-- CAP_EFF_MAX = 2^31 - 1 (R9, D19). -/
def capEffMax : Nat := 2 ^ 31 - 1
/-- COPY_QUANTUM (R8, I19): recorded; no defined byte or result depends on it. -/
def copyQuantum : Nat := 16
/-- N_ENGINES (R9, D35). -/
def nEngines : Nat := 1
/-- The largest input, or dictionary and input together, of an encode command (R132, R174, R205). -/
def maxBlock : Nat := 65536

/-- The parameters' values where the spec gives a default (R9); REG_BASE, the buffer size and the ordinary-memory
premise are DESIGN CHOICE (log entry 4). -/
def defaults : Params where
  regBase := 0
  matchFinder := .any
  readErrOnExhaust := false
  deltaPresent := true
  hashMul := 227718039650203
  stateBufLen := stateMinSize
  notMemory := []

/-- FREE VALUE (I1, I2, I7, I8): the byte an open address holds, by the draw that opened it. -/
opaque freeByte (draw addr : Nat) : Byte

/-- FREE VALUE (I6): the FAULT_POS of ENC_SOFT_LIMIT and ENC_WRITE (60_exceptions.md R285). -/
opaque freePos (draw : Nat) : Reg

/-- FREE VALUE (I4): does an encode that does not fit report WRITE_ERROR (true) or 0 (41_encoder.md R180)? -/
opaque freeWriteError (draw : Nat) : Bool

/-- FREE VALUE (I3): the parse MATCH_FINDER = ANY proposes for the class, the bytes of the scan region and its start; it
is used only where it is valid (41_encoder.md R178, R179). -/
opaque freeParse (draw : Nat) (c : BlockClass) (region : List Byte) (start : Nat) : List ParseRecord

end Config

end Sys2Proof
end

