-- ==== Sys2Proof/Machine/State.lean ====
section
/-! DEFINITION. The state of the block as plain data: the host-visible registers (10_state.md R22), the engine's
internal state (R40), memory (20_memory.md R60), the parameters (00_scope.md R9), and the host's pending events; the
reasons a step stops; the state after reset (R47, 70_reset_and_hazards.md R320). -/

namespace Sys2Proof.Machine

/-- Why the model stops with a fault. The block itself never stops (10_state.md R43, "No item here is `stuck`" of
93_implementation_defined.md): the one fault is raised in states that no run reaches. -/
inductive Fault where
  /-- Raised by the engine step when `phase` is RUN and the engine has no stage, or its stage needs a stream byte the
  bound checks of 42_decoder.md R231 and R237 have already promised and there is none. No run reaches such a state. Safe:
  the model stops where nothing is claimed. -/
  | engineLost
deriving DecidableEq, Repr

/-- Why the model refuses a step: each but the first is a `refuse` treatment of 93_implementation_defined.md. -/
inductive Refusal where
  /-- An instruction with no meaning yet; raised only by an arm of `exec`. Safe. -/
  | notModelled (mnemonic : String)
  /-- A register access that is not a naturally aligned 32-bit access (10_state.md R21, I15); raised when a host event
  lands. Safe. -/
  | registerAccess
  /-- A launch whose regions overlap (20_memory.md R67(c), R72, I11); raised by a command that would go on to access
  memory. Safe. -/
  | regionsOverlap
  /-- A launch with a state buffer shorter than STATE_MIN_SIZE (70_reset_and_hazards.md R330, I13). Safe. -/
  | stateBufferShort
  /-- A launch with a region that is not ordinary memory (20_memory.md R65, R73, I14). Safe. -/
  | notOrdinaryMemory
  /-- A write by the host or another bus master to a region of the running command (20_memory.md R67(a), (d), I12). Safe. -/
  | regionWritten
deriving DecidableEq, Repr

/-- A range of memory whose bytes hold any value: `[base, base + len)`, opened by the draw `draw`. -/
structure OpenSpan where
  base : Nat
  len : Nat
  draw : Nat
deriving DecidableEq, Repr

/-- Memory: the listed bytes, addresses strictly rising, and the ranges that hold any value. -/
structure Memory where
  cells : List Host.Cell
  spans : List OpenSpan
deriving DecidableEq, Repr

/-- `phase` (10_state.md R40): IDLE when STATUS.BUSY = 0. -/
inductive Phase where
  | idle
  | run
deriving DecidableEq, Repr

/-- What the engine does next in RUN: the places of 42_decoder.md R232 to R245 in the stream, and the two parts of an
encode (41_encoder.md R191, R198). The model's own: the spec's pseudocode holds it in its control flow. -/
inductive Stage where
  /-- nothing: the stage of an engine that is IDLE -/
  | none
  /-- R232: the class byte -/
  | classByte
  /-- R233: the top of the record loop -/
  | tag
  /-- R236: the literal-length escape chain -/
  | nrChain
  /-- R236: the literal bytes -/
  | literal
  /-- R240: the repeat-length escape chain -/
  | rChain
  /-- R191: the match finder's scan (R179 under ANY) -/
  | scan
  /-- R198: the tag emitter -/
  | emit
deriving DecidableEq, Repr

/-- The host-visible registers of 10_state.md R22 that hold a value. `ID`, `CAPS` and `STATE_MIN_SIZE` are hard-wired
and answered by the one operation that reads registers. -/
structure Regs where
  cmd : Reg
  status : Reg
  result : Reg
  cause : Reg
  faultPos : Reg
  irqEn : Reg
  irqPend : Reg
  inLen : Reg
  outCap : Reg
  softLimit : Reg
  dictLen : Reg
  inAddrLo : Reg
  inAddrHi : Reg
  outAddrLo : Reg
  outAddrHi : Reg
  stateAddrLo : Reg
  stateAddrHi : Reg
  dictAddrLo : Reg
  dictAddrHi : Reg
deriving DecidableEq, Repr

/-- The engine's internal state (10_state.md R40), and the record in progress, which the spec's pseudocode holds in
local variables (`n`, `m`, `rf`, `of` of 42_decoder.md R236 and R240; `parse` of 41_encoder.md R191). -/
structure Engine where
  phase : Phase
  op : BitVec 4
  inAddr : Addr
  outAddr : Addr
  stateAddr : Addr
  dictAddr : Addr
  inLen : Reg
  outCap : Reg
  soft : Reg
  dictLen : Reg
  cls : BlockClass
  nrLog2 : Nat
  offLog2 : Nat
  rLog2 : Nat
  inPos : Nat
  outPos : Nat
  p : Nat
  lit : Nat
  ctr : Nat
  softEff : Int
  gain : Nat
  /-- model's own: what the engine does next -/
  stage : Stage
  /-- model's own: `n` of R236; while literals are copied, how many are left -/
  recN : Nat
  /-- model's own: `m` of R240 -/
  recM : Nat
  /-- model's own: `rf` of R236 -/
  recR : Nat
  /-- model's own: `of` of R236 -/
  recOff : Nat
  /-- model's own: `parse` of R191 -/
  parse : List ParseRecord
deriving DecidableEq, Repr

/-- What the host, or another bus master, or the platform does (30_encoding.md R101, 20_memory.md R67,
70_reset_and_hazards.md R320). -/
inductive HostAct where
  /-- a write of `width` bytes at a host address -/
  | regWrite (addr : Addr) (width : Nat) (value : Reg)
  /-- a read of `width` bytes at a host address -/
  | regRead (addr : Addr) (width : Nat)
  /-- a write of one byte of memory -/
  | memWrite (addr : Addr) (value : Byte)
  /-- a read of one byte of memory -/
  | memRead (addr : Addr)
  /-- the platform asserts reset -/
  | reset
deriving DecidableEq, Repr

/-- A pending host event: it lands after `wait` more engine steps; with `together`, the engine also steps in the cycle
in which it lands, after it (60_exceptions.md R292). -/
structure HostEvent where
  wait : Nat
  together : Bool
  act : HostAct
deriving DecidableEq, Repr

/-- The whole machine. -/
structure State where
  regs : Regs
  eng : Engine
  mem : Memory
  params : Params
  /-- model's own: the host's pending events, the next one first -/
  host : List HostEvent
  /-- model's own: what the last host register read returned -/
  busData : Reg
  /-- model's own: what the last host memory read returned -/
  memData : Byte
  /-- model's own: how many free values have been drawn -/
  draws : Nat
deriving DecidableEq, Repr

/-- The outcome of a step of this machine. -/
abbrev Result := Host.Outcome State Fault Refusal

/-- Every host-visible register at its reset value (10_state.md R22, R47; 70_reset_and_hazards.md R320). -/
def Regs.reset : Regs where
  cmd := 0
  status := 0
  result := 0
  cause := 0
  faultPos := 0
  irqEn := 0
  irqPend := 0
  inLen := 0
  outCap := 0
  softLimit := 0
  dictLen := 0
  inAddrLo := 0
  inAddrHi := 0
  outAddrLo := 0
  outAddrHi := 0
  stateAddrLo := 0
  stateAddrHi := 0
  dictAddrLo := 0
  dictAddrHi := 0

/-- The engine after reset: IDLE (R47); the other fields are unspecified and never read in IDLE, and the zeros here are
a DESIGN CHOICE (log entry 1). -/
def Engine.reset : Engine where
  phase := .idle
  op := 0
  inAddr := 0
  outAddr := 0
  stateAddr := 0
  dictAddr := 0
  inLen := 0
  outCap := 0
  soft := 0
  dictLen := 0
  cls := .c0
  nrLog2 := 0
  offLog2 := 0
  rLog2 := 0
  inPos := 0
  outPos := 0
  p := 0
  lit := 0
  ctr := 0
  softEff := 0
  gain := 0
  stage := .none
  recN := 0
  recM := 0
  recR := 0
  recOff := 0
  parse := []

/-- Memory with nothing listed and nothing open. -/
def Memory.empty : Memory := ⟨[], []⟩

/-- The machine right after power-on reset (10_state.md R47, 70_reset_and_hazards.md R320, R323): registers at their
reset values, the engine IDLE, the parameters at their defaults, no host event pending, nothing listed in memory. -/
def State.reset : State where
  regs := Regs.reset
  eng := Engine.reset
  mem := Memory.empty
  params := Config.defaults
  host := []
  busData := 0
  memData := 0
  draws := 0

end Sys2Proof.Machine
end

