-- ==== Sys2Proof/Machine/Flags.lean ====
section
/-! DEFINITION. Status codes, cause codes, the STATUS and interrupt flags (10_state.md R26 to R28, 60_exceptions.md R280,
R281, R290). -/

namespace Sys2Proof.Machine

/-- The status of a command that ends by `raise Fail` (60_exceptions.md R280). -/
inductive Status where
  | incompressible
  | failed
  | readError
  | writeError
deriving DecidableEq, Repr

/-- The status as the i32 RESULT holds (R280, 40_primitives.md R144). -/
def Status.toReg : Status → Reg
  | .incompressible => 0
  | .failed => BitVec.ofInt 32 (-1)
  | .readError => BitVec.ofInt 32 (-2)
  | .writeError => BitVec.ofInt 32 (-3)

/-- The causes of R281. -/
inductive Cause where
  | none
  | argNull
  | argLen
  | argRange
  | badOpcode
  | encTooSmall
  | encSoftLimit
  | encWrite
  | decBadClass
  | decTruncTag
  | decTruncEsc
  | decLitIn
  | decLitOut
  | decTermR
  | decTermTrail
  | decOffset
  | decRepOut
deriving DecidableEq, Repr

/-- The cause code as the CAUSE register holds it (R281). -/
def Cause.toReg : Cause → Reg
  | .none => 0x00
  | .argNull => 0x01
  | .argLen => 0x02
  | .argRange => 0x03
  | .badOpcode => 0x04
  | .encTooSmall => 0x10
  | .encSoftLimit => 0x11
  | .encWrite => 0x12
  | .decBadClass => 0x20
  | .decTruncTag => 0x21
  | .decTruncEsc => 0x22
  | .decLitIn => 0x23
  | .decLitOut => 0x24
  | .decTermR => 0x25
  | .decTermTrail => 0x26
  | .decOffset => 0x27
  | .decRepOut => 0x28

/-- STATUS with BUSY = 1 and DONE = 0: a command is accepted (10_state.md R26, R27, R42). -/
def statusBusy : Reg := 1

/-- STATUS with BUSY = 0 and DONE = 1: a command has completed (R26, R27, R43). -/
def statusDone : Reg := 2

/-- STATUS.BUSY (R22). -/
def State.busy (s : State) : Bool := s.regs.status.getLsbD 0

/-- STATUS.DONE (R22). -/
def State.done (s : State) : Bool := s.regs.status.getLsbD 1

/-- IRQ_PEND.DONE_PEND (R22). -/
def State.donePend (s : State) : Bool := s.regs.irqPend.getLsbD 0

/-- The interrupt output `IRQ = IRQ_PEND.DONE_PEND & IRQ_EN.EN` (R27, 60_exceptions.md R290). -/
def State.irq (s : State) : Bool := s.regs.irqPend.getLsbD 0 && s.regs.irqEn.getLsbD 0

/-- IRQ_PEND with DONE_PEND set (R290). -/
def setDonePend (pend : Reg) : Reg := pend ||| 1

/-- IRQ_PEND after a write: writing 1 to bit 0 clears it, writing 0 has no effect (R22, R290). -/
def clearDonePend (pend value : Reg) : Reg := pend &&& ~~~(value &&& 1)

/-- EXH: the status of input exhaustion (42_decoder.md R247). -/
def State.exhausted (s : State) : Status := if s.params.readErrOnExhaust then .readError else .failed

end Sys2Proof.Machine
end

