-- ==== Sys2Proof/Machine/Memory.lean ====
section
/-! DEFINITION. The operations over memory (20_memory.md R60, R65): reading and writing one byte, filling a range with
zeros, opening a range (its bytes hold any value), byte-serial copies, and the canonical form they keep. -/

namespace Sys2Proof.Machine

/-- The first listed byte at `a`. -/
def lookupCell : List Host.Cell → Nat → Option Byte
  | [], _ => none
  | (b, v) :: rest, a => if b = a then some v else lookupCell rest a

/-- Does the span hold the address? -/
def OpenSpan.covers (r : OpenSpan) (a : Nat) : Bool := decide (r.base ≤ a ∧ a < r.base + r.len)

/-- The free value of an open address, by the draw that opened it; none where no span covers it. -/
def openByte : List OpenSpan → Nat → Option Byte
  | [], _ => none
  | r :: rest, a => if r.covers a then some (Config.freeByte r.draw a) else openByte rest a

/-- What an unlisted address reads as: a free value where a span covers it, else 0, the byte of memory that nothing has
written (DESIGN CHOICE, log entry 2). -/
def Memory.unlisted (m : Memory) (a : Nat) : Byte := (openByte m.spans a).getD 0#8

/-- Read one byte. -/
def Memory.read (m : Memory) (a : Nat) : Byte := (lookupCell m.cells a).getD (m.unlisted a)

/-- The cells outside `[lo, hi)`. -/
def dropCells (lo hi : Nat) (cells : List Host.Cell) : List Host.Cell :=
  cells.filter fun c => decide (c.1 < lo ∨ hi ≤ c.1)

/-- Insert a cell before the first one of a higher address. -/
def insertCell (a : Nat) (v : Byte) : List Host.Cell → List Host.Cell
  | [] => [(a, v)]
  | c :: rest => if a < c.1 then (a, v) :: c :: rest else c :: insertCell a v rest

/-- What is left of a span when `[lo, hi)` is cut out of it, for `lo < hi`. -/
def cutSpan (lo hi : Nat) (r : OpenSpan) : List OpenSpan :=
  (if r.base < min (r.base + r.len) lo then [⟨r.base, min (r.base + r.len) lo - r.base, r.draw⟩] else []) ++
  (if max r.base hi < r.base + r.len then [⟨max r.base hi, r.base + r.len - max r.base hi, r.draw⟩] else [])

/-- Cut `[lo, hi)` out of every span. -/
def cutSpans (lo hi : Nat) (spans : List OpenSpan) : List OpenSpan := spans.flatMap (cutSpan lo hi)

/-- Insert a span before the first one of a higher base. -/
def insertSpan (r : OpenSpan) : List OpenSpan → List OpenSpan
  | [] => [r]
  | q :: rest => if r.base < q.base then r :: q :: rest else q :: insertSpan r rest

/-- Write one byte: the address is listed unless the byte is what it reads as unlisted, and no span covers it. -/
def Memory.write (m : Memory) (a : Nat) (v : Byte) : Memory where
  cells := if v = 0#8 then dropCells a (a + 1) m.cells else insertCell a v (dropCells a (a + 1) m.cells)
  spans := cutSpans a (a + 1) m.spans

/-- Write 0 to every byte of `[base, base + len)`. -/
def Memory.zero (m : Memory) (base len : Nat) : Memory :=
  if len = 0 then m else ⟨dropCells base (base + len) m.cells, cutSpans base (base + len) m.spans⟩

/-- Open `[base, base + len)`: its bytes hold any value from here on, the free values of `draw`. -/
def Memory.havoc (m : Memory) (base len draw : Nat) : Memory :=
  if len = 0 then m else
    ⟨dropCells base (base + len) m.cells, insertSpan ⟨base, len, draw⟩ (cutSpans base (base + len) m.spans)⟩

/-- Write a byte string from `a` on, byte by byte in increasing order; addresses are modulo 2^64 (00_scope.md R12). -/
def Memory.writeBytes (m : Memory) (a : Addr) : List Byte → Memory
  | [] => m
  | b :: rest => (m.write a.toNat b).writeBytes (a + 1) rest

/-- `MemRead(a, n)` (00_scope.md R11): `n` bytes from `a` on. -/
def Memory.readBytes (m : Memory) (a : Addr) : Nat → List Byte
  | 0 => []
  | n + 1 => m.read a.toNat :: m.readBytes (a + 1) n

/-- The byte-serial copy of `n` bytes in increasing order (40_primitives.md R140, R141): byte `i` is read after the
bytes before it are written, so a source that overlaps the destination from below replicates. -/
def Memory.copy (m : Memory) (src dst : Addr) : Nat → Memory
  | 0 => m
  | n + 1 => (m.write dst.toNat (m.read src.toNat)).copy (src + 1) (dst + 1) n

/-- The canonical form: addresses strictly rising and below 2^64, no listed byte equal to what its address reads as
unlisted (no listed 0, and no listed address inside an open span), and the open spans non-empty, apart and rising. -/
abbrev Memory.wf (m : Memory) : Prop :=
  m.cells.Pairwise (fun c d => c.1 < d.1) ∧
  (∀ c ∈ m.cells, c.1 < 2 ^ 64 ∧ c.2 ≠ 0#8 ∧ openByte m.spans c.1 = none) ∧
  m.spans.Pairwise (fun r q => r.base + r.len ≤ q.base) ∧
  (∀ r ∈ m.spans, 0 < r.len)

end Sys2Proof.Machine
end

