-- ==== Sys2Proof/Machine/Primitives.lean ====
section
/-! DEFINITION. The shared primitives of 40_primitives.md that are pure arithmetic or look only at a scan region, and
the tag emitter of 41_encoder.md R197 and R198. A scan region is a view `R : Nat → Byte` of memory with its length given
beside it (41_encoder.md R178). `mask`, `params`, `packTag` and `unpackTag` stand in Decode.lean; the copies of R140 and
R141 in Machine/Memory.lean. -/

namespace Sys2Proof.Machine

/-- `msb(x)`: the largest k with 2^k ≤ x (40_primitives.md R131). -/
def msb (x : Nat) : Nat := Nat.log2 x

/-- `ceil_log2(x)`: the smallest k with 2^k ≥ x (R131). -/
def ceilLog2 (x : Nat) : Nat := if 2 ^ msb x = x then msb x else msb x + 1

/-- The class of a number 0..4 (30_encoding.md R93). -/
def classOfNat : Nat → Option BlockClass
  | 0 => some .c0
  | 1 => some .c1
  | 2 => some .c2
  | 3 => some .c3
  | 4 => some .c4
  | _ => none

/-- `class_of(L)`, the block-size class selector (R132). -/
def classOf (len : Nat) : Option BlockClass :=
  if 1 ≤ len ∧ len ≤ Config.maxBlock then classOfNat (ceilLog2 len - 12) else none

/-- `esc_len(u)`: the byte count of an escape chain (R135). -/
def escLen (u : Nat) : Nat := u / Config.escByteMax + 1

/-- `esc_encode(u)`: `floor(u / 255)` bytes of 255, then the remainder (R135). -/
def escEncode (u : Nat) : List Byte :=
  List.replicate (u / Config.escByteMax) 255#8 ++ [BitVec.ofNat 8 (u % Config.escByteMax)]

/-- `esc_decode` over the bytes from the cursor to the end of IN (R136): the value and how many bytes the chain takes;
`none` is TRUNC. The engine runs a chain byte by byte (ESC_CONT, ESC_END); this is the whole chain at once. -/
def escDecode : List Byte → Option (Nat × Nat)
  | [] => none
  | b :: rest =>
    if b = 255#8 then (escDecode rest).map fun (e, k) => (e + 255, k + 1) else some (b.toNat, 1)

/-- `LE` of `n` bytes of a region from `p` on (00_scope.md R11). -/
def leValue (R : Nat → Byte) (p : Nat) : Nat → Nat
  | 0 => 0
  | n + 1 => (R p).toNat + 256 * leValue R (p + 1) n

/-- `hash6(R, p)`: the 6-byte multiplicative hash into HT_LOG2 bits (R137). -/
def hash6 (mul : BitVec 64) (R : Nat → Byte) (p : Nat) : Nat :=
  (((BitVec.ofNat 64 (leValue R p Config.hashBytes) <<< 16) * mul) >>> (64 - Config.htLog2)).toNat

/-- The 4-byte verification of a candidate (41_encoder.md R192). -/
def same4 (R : Nat → Byte) (c p : Nat) : Bool :=
  R c == R p && R (c + 1) == R (p + 1) && R (c + 2) == R (p + 2) && R (c + 3) == R (p + 3)

/-- The loop of `match_len` (R142): `fuel` is how many positions are left before the end. -/
def matchExtend (R : Nat → Byte) (c p : Nat) : Nat → Nat → Nat
  | 0, m => m
  | fuel + 1, m => if R (p + m) = R (c + m) then matchExtend R c p fuel (m + 1) else m

/-- `match_len(R, c, p, end)` (R142), of a candidate whose first 4 bytes are verified. -/
def matchLen (R : Nat → Byte) (c p fin : Nat) : Nat :=
  matchExtend R c p (fin - (p + Config.repeatMin)) Config.repeatMin

/-- `back_extend(R, c, p, lit)` (R143). -/
def backExtend (R : Nat → Byte) (lit : Nat) : Nat → Nat → Nat × Nat
  | 0, p => (0, p)
  | c + 1, p => if lit < p ∧ R (p - 1) = R c then backExtend R lit c (p - 1) else (c + 1, p)

/-- The conditions V1 to V4 of 41_encoder.md R178 on a repeat record whose literals start at `q`: a repeat of at least 4
bytes, at an offset that fits its field and does not reach before the region, and a true repeat. -/
def validRecord (R : Nat → Byte) (c : BlockClass) (q : Nat) (r : ParseRecord) : Bool :=
  decide (Config.repeatMin ≤ r.m) && decide (1 ≤ r.off) && decide (r.off ≤ q + r.n) &&
  decide (r.off ≤ mask (classParams c).offLog2) &&
  (List.range r.m).all (fun j => R (q + r.n + j) == R (q + r.n - r.off + j))

/-- Is the list a valid parse of `R[q, fin)` for class `c` (R178): every record but the last a valid repeat record, the
last the terminal, the records partitioning the range? -/
def validParse (R : Nat → Byte) (c : BlockClass) (fin : Nat) : Nat → List ParseRecord → Bool
  | _, [] => false
  | q, [t] => t.off == 0 && t.m == 0 && q + t.n == fin
  | q, r :: next :: rest => validRecord R c q r && validParse R c fin (q + r.n + r.m) (next :: rest)

/-- The parse with no repeat, which is always valid (R178). -/
def literalParse (start fin : Nat) : List ParseRecord := [⟨fin - start, 0, 0⟩]

/-- The `n` bytes of a region from `q` on. -/
def slice (R : Nat → Byte) (q n : Nat) : List Byte := (List.range n).map fun j => R (q + j)

/-- The draw of a parse under MATCH_FINDER = ANY (R179): the free proposal where it is a valid parse, else the
all-literal parse. Every valid parse is the value of some free proposal. -/
def chooseParse (draw : Nat) (c : BlockClass) (R : Nat → Byte) (start fin : Nat) : List ParseRecord :=
  if validParse R c fin start (Config.freeParse draw c (slice R 0 fin) start) then
    Config.freeParse draw c (slice R 0 fin) start
  else literalParse start fin

/-- The bytes of `pack_tag` in stream order (40_primitives.md R134). -/
def packTagBytes (c : BlockClass) (nf rf off : Nat) : List Byte := tagBytes (BitVec.ofNat 24 (packTag c nf rf off))

/-- `emit_record(c, n, off, m, lits)` (41_encoder.md R197). -/
def emitRecord (c : BlockClass) (r : ParseRecord) (lits : List Byte) : List Byte :=
  let nrMax := mask (classParams c).nrLog2
  let rMax := mask (classParams c).rLog2
  let rf := if r.off = 0 then 0 else min (r.m - Config.repeatMin) rMax
  packTagBytes c (min r.n nrMax) rf r.off ++
  (if nrMax ≤ r.n then escEncode (r.n - nrMax) else []) ++
  lits ++
  (if r.off ≠ 0 ∧ rMax ≤ r.m - Config.repeatMin then escEncode (r.m - Config.repeatMin - rMax) else [])

/-- The records of a parse that starts at `q`, in stream order (R198). -/
def emitRecords (c : BlockClass) (R : Nat → Byte) : Nat → List ParseRecord → List Byte
  | _, [] => []
  | q, r :: rest => emitRecord c r (slice R q r.n) ++ emitRecords c R (q + r.n + r.m) rest

/-- `emit_block(c, R, p0, parse)` (R198): the class byte and the records. -/
def emitBlock (c : BlockClass) (R : Nat → Byte) (start : Nat) (parse : List ParseRecord) : List Byte :=
  BitVec.ofNat 8 c.toNat :: emitRecords c R start parse

/-- `esc_len_nr(L, c)` (R186). -/
def escLenNr (len : Nat) (c : BlockClass) : Nat :=
  if len < mask (classParams c).nrLog2 then 0 else escLen (len - mask (classParams c).nrLog2)

/-- `WCB(L, c)`, the worst-case encoded size (R186). -/
def wcb (len : Nat) (c : BlockClass) : Nat := 4 + len + escLenNr len c

/-- The gain threshold `max(64, floor(in_len / 64))` (R172). -/
def gainThreshold (inLen : Nat) : Nat := max Config.gainMin (inLen >>> Config.gainShift)

/-- The effective soft limit, a signed integer (R175). -/
def effectiveSoftLimit (soft inLen outCap gain : Nat) : Int :=
  let dflt : Int := (min inLen outCap : Nat) - (gain : Nat)
  if soft = 0 ∨ dflt < soft then dflt else soft

end Sys2Proof.Machine
end

