-- ==== Sys2Proof/Machine/Operands.lean ====
section
/-! DEFINITION. The operands of the commands and of the records: the latched arguments and regions (10_state.md R25,
20_memory.md R61), the argument checks in their listed order (41_encoder.md R171, R201, R206; 42_decoder.md R231, R260),
the scan region (41_encoder.md R178), the hash table (10_state.md R44), the stream at the cursor (R41). -/

namespace Sys2Proof.Machine

/-- The address of byte `i` of a region: index arithmetic is modulo 2^64 (00_scope.md R12). -/
def byteAddr (base : Addr) (i : Nat) : Nat := (base + BitVec.ofNat 64 i).toNat

/-- `{HI, LO}` as one 64-bit address (10_state.md R22). -/
def addrOf (hi lo : Reg) : Addr := hi ++ lo

/-- The opcodes of 30_encoding.md R90. -/
def opEncode : BitVec 4 := 1
/-- OP 0x2 (R90). -/
def opDecode : BitVec 4 := 2
/-- OP 0x3 (R90). -/
def opUpdate : BitVec 4 := 3
/-- OP 0x4 (R90). -/
def opEncodeDelta : BitVec 4 := 4
/-- OP 0x5 (R90). -/
def opDecodeDelta : BitVec 4 := 5

/-- Does `[base, base + len)` pass the top of the address space (20_memory.md R66)? -/
def wraps (base : Addr) (len : Nat) : Bool := decide (2 ^ 64 < base.toNat + len)

/-- Does the command use OUT (20_memory.md R61)? -/
def usesOut (op : BitVec 4) : Bool := op == opEncode || op == opDecode || op == opEncodeDelta || op == opDecodeDelta

/-- Does the command use STATE (R61): the encode commands, UPDATE_DELTA_STATE among them? -/
def usesState (op : BitVec 4) : Bool := op == opEncode || op == opUpdate || op == opEncodeDelta

/-- Does the command use IN (R61)? -/
def usesIn (op : BitVec 4) : Bool := op == opEncode || op == opDecode || op == opEncodeDelta || op == opDecodeDelta

/-- Does the command use DICT (R61)? -/
def usesDict (op : BitVec 4) : Bool := op == opUpdate || op == opEncodeDelta || op == opDecodeDelta

/-- IN (R12). -/
def Engine.inSpan (e : Engine) : Span := ⟨e.inAddr.toNat, e.inLen.toNat⟩
/-- OUT (R12). -/
def Engine.outSpan (e : Engine) : Span := ⟨e.outAddr.toNat, e.outCap.toNat⟩
/-- STATE: only its first 8192 bytes (R61). -/
def Engine.stateSpan (e : Engine) : Span := ⟨e.stateAddr.toNat, Config.stateMinSize⟩
/-- DICT (R12). -/
def Engine.dictSpan (e : Engine) : Span := ⟨e.dictAddr.toNat, e.dictLen.toNat⟩

/-- The regions the running command reaches (R61). -/
def Engine.regions (e : Engine) : List Span :=
  (if usesDict e.op then [e.dictSpan] else []) ++ (if usesIn e.op then [e.inSpan] else []) ++
  (if usesOut e.op then [e.outSpan] else []) ++ (if usesState e.op then [e.stateSpan] else [])

/-- The regions the running command may write (R61). -/
def Engine.written (e : Engine) : List Span :=
  (if usesOut e.op then [e.outSpan] else []) ++ (if usesState e.op then [e.stateSpan] else [])

/-- Is the address in the span? -/
def spanHolds (r : Span) (a : Nat) : Bool := decide (r.base ≤ a ∧ a < r.base + r.len)

/-- Do two spans share an address? An empty span shares none. -/
def spanMeets (r q : Span) : Bool :=
  decide (0 < r.len ∧ 0 < q.len ∧ r.base < q.base + q.len ∧ q.base < r.base + r.len)

/-- Do two of the spans share an address? -/
def anyMeet : List Span → Bool
  | [] => false
  | r :: rest => rest.any (spanMeets r) || anyMeet rest

/-- The launch premise a command breaks that passed its own checks and would go on to access memory: overlap
(20_memory.md R67(c)), a short state buffer (70_reset_and_hazards.md R330), a region that is not ordinary memory
(20_memory.md R65, R73). -/
def launchRefusal (s : State) : Option Refusal :=
  if anyMeet s.eng.regions then some .regionsOverlap
  else if usesState s.eng.op ∧ s.params.stateBufLen < Config.stateMinSize then some .stateBufferShort
  else if s.eng.regions.any (fun r => s.params.notMemory.any (spanMeets r)) then some .notOrdinaryMemory
  else none

/-- The bytes before OUT[0] a repeat may reach: 0, or `dict_len` in DECODE_DELTA (42_decoder.md, notation; R259). -/
def Engine.avail (e : Engine) : Nat := if e.op = opDecodeDelta then e.dictLen.toNat else 0

/-- `cap_eff = min(out_cap, CAP_EFF_MAX)` (R231). -/
def Engine.capEff (e : Engine) : Nat := min e.outCap.toNat Config.capEffMax

/-- How many bytes of IN are left at the cursor (10_state.md R41). -/
def Engine.inLeft (e : Engine) : Nat := e.inLen.toNat - e.inPos

/-- The bytes of IN from the cursor on, at most `n`. -/
def State.inBytes (s : State) (n : Nat) : List Byte :=
  s.mem.readBytes (s.eng.inAddr + BitVec.ofNat 64 s.eng.inPos) (min n s.eng.inLeft)

/-- How many bytes of the scan region stand before IN: the dictionary of ENCODE_DELTA (41_encoder.md R178). -/
def Engine.scanDict (e : Engine) : Nat := if e.op = opEncodeDelta then e.dictLen.toNat else 0

/-- The scan region R (R178, R200): DICT of UPDATE_DELTA_STATE, DICT ++ IN of ENCODE_DELTA, IN of ENCODE. -/
def State.scanByte (s : State) (i : Nat) : Byte :=
  if s.eng.op = opUpdate then s.mem.read (byteAddr s.eng.dictAddr i)
  else if i < s.eng.scanDict then s.mem.read (byteAddr s.eng.dictAddr i)
  else s.mem.read (byteAddr s.eng.inAddr (i - s.eng.scanDict))

/-- The scan start `p0` (R178, R200). -/
def Engine.scanStart (e : Engine) : Nat := e.scanDict

/-- The scan end `|R|` (R178, R200). -/
def Engine.scanEnd (e : Engine) : Nat :=
  if e.op = opUpdate then e.dictLen.toNat else e.scanDict + e.inLen.toNat

/-- Table entry `h`: the little-endian u16 at `state_addr + 2h` (10_state.md R44, 20_memory.md R63). -/
def State.tableEntry (s : State) (h : Nat) : Nat :=
  (s.mem.read (byteAddr s.eng.stateAddr (2 * h))).toNat +
  256 * (s.mem.read (byteAddr s.eng.stateAddr (2 * h + 1))).toNat

/-- Memory with table entry `h` set to the u16 `v` (R44). -/
def State.withTableEntry (s : State) (h v : Nat) : Memory :=
  (s.mem.write (byteAddr s.eng.stateAddr (2 * h)) (BitVec.ofNat 8 v)).write
    (byteAddr s.eng.stateAddr (2 * h + 1)) (BitVec.ofNat 8 (v / 256))

/-- Memory with every table entry 0 (41_encoder.md R177, R200). -/
def State.withTableClear (s : State) : Memory := s.mem.zero s.eng.stateAddr.toNat Config.stateMinSize

/-- The argument checks of ENCODE (41_encoder.md R171). -/
def encodeArgs (e : Engine) : Option Cause :=
  if e.stateAddr = 0 ∨ e.inAddr = 0 ∨ e.outAddr = 0 then some .argNull
  else if e.inLen = 0 ∨ e.outCap = 0 then some .argLen
  else if wraps e.inAddr e.inLen.toNat ∨ wraps e.outAddr e.outCap.toNat ∨ wraps e.stateAddr Config.stateMinSize then
    some .argRange
  else none

/-- The argument checks of UPDATE_DELTA_STATE (R201). -/
def updateArgs (e : Engine) : Option Cause :=
  if e.stateAddr = 0 ∨ (0 < e.dictLen.toNat ∧ e.dictAddr = 0) then some .argNull
  else if Config.maxBlock < e.dictLen.toNat then some .argRange
  else if wraps e.dictAddr e.dictLen.toNat ∨ wraps e.stateAddr Config.stateMinSize then some .argRange
  else none

/-- The argument checks of ENCODE_DELTA (R206). -/
def encodeDeltaArgs (e : Engine) : Option Cause :=
  if e.stateAddr = 0 ∨ e.inAddr = 0 ∨ e.outAddr = 0 ∨ (0 < e.dictLen.toNat ∧ e.dictAddr = 0) then some .argNull
  else if e.inLen = 0 ∨ e.outCap = 0 then some .argLen
  else if wraps e.inAddr e.inLen.toNat ∨ wraps e.outAddr e.outCap.toNat ∨ wraps e.stateAddr Config.stateMinSize ∨
    wraps e.dictAddr e.dictLen.toNat then some .argRange
  else none

/-- The two range checks of ENCODE_DELTA that follow the floor (R205, 20_memory.md R71): the combined length, and the
adjacency of the dictionary where there is one. -/
def encodeDeltaRange (e : Engine) : Option Cause :=
  if Config.maxBlock < e.dictLen.toNat + e.inLen.toNat then some .argRange
  else if 0 < e.dictLen.toNat ∧ e.inAddr.toNat ≠ e.dictAddr.toNat + e.dictLen.toNat then some .argRange
  else none

/-- The argument checks of DECODE (42_decoder.md R231). -/
def decodeArgs (e : Engine) : Option Cause :=
  if e.inAddr = 0 ∨ e.outAddr = 0 then some .argNull
  else if e.inLen.toNat ≤ 4 ∨ e.outCap = 0 then some .argLen
  else if wraps e.inAddr e.inLen.toNat ∨ wraps e.outAddr e.outCap.toNat then some .argRange
  else none

/-- The argument checks of DECODE_DELTA (R260). -/
def decodeDeltaArgs (e : Engine) : Option Cause :=
  if e.inAddr = 0 ∨ e.outAddr = 0 ∨ (0 < e.dictLen.toNat ∧ e.dictAddr = 0) then some .argNull
  else if e.inLen.toNat ≤ 4 ∨ e.outCap = 0 then some .argLen
  else if wraps e.inAddr e.inLen.toNat ∨ wraps e.outAddr e.outCap.toNat ∨ wraps e.dictAddr e.dictLen.toNat then
    some .argRange
  else if 0 < e.dictLen.toNat ∧ e.outAddr.toNat ≠ e.dictAddr.toNat + e.dictLen.toNat then some .argRange
  else none

end Sys2Proof.Machine
end

