-- ==== Sys2Proof/Machine/Ops.lean ====
section
/-! DEFINITION. The shared operations over the whole machine: free values, command start and completion (10_state.md R42,
R43), failure entry, the block's analogue of taking an exception (60_exceptions.md R284), and reset (R47,
70_reset_and_hazards.md R320, R321). The block has no return from a failure: completion is all there is (R287). -/

namespace Sys2Proof.Machine

/-- Open `len` bytes from `off` in the region at `base`: they hold any value from here on. -/
def State.havoc (s : State) (base : Addr) (off len : Nat) : State :=
  { s with mem := s.mem.havoc (base.toNat + off) len s.draws, draws := s.draws + 1 }

/-- Every byte of `OUT[0 .. out_cap)` holds any value (41_encoder.md R189, 42_decoder.md R250). -/
def State.havocOut (s : State) : State := s.havoc s.eng.outAddr 0 s.eng.outCap.toNat

/-- `OUT[n .. out_cap)` holds any value (R189, R250). -/
def State.havocOutFrom (s : State) (n : Nat) : State := s.havoc s.eng.outAddr n (s.eng.outCap.toNat - n)

/-- Every byte of `STATE[0 .. 8192)` holds any value (R185). -/
def State.havocTable (s : State) : State := s.havoc s.eng.stateAddr 0 Config.stateMinSize

/-- The engine at the start of a command: RUN, the opcode and every argument register latched (10_state.md R42); the
fields a command sets before it reads them start at 0. -/
def Engine.start (op : BitVec 4) (r : Regs) : Engine :=
  { Engine.reset with
    phase := .run
    op := op
    inAddr := addrOf r.inAddrHi r.inAddrLo
    outAddr := addrOf r.outAddrHi r.outAddrLo
    stateAddr := addrOf r.stateAddrHi r.stateAddrLo
    dictAddr := addrOf r.dictAddrHi r.dictAddrLo
    inLen := r.inLen
    outCap := r.outCap
    soft := r.softLimit
    dictLen := r.dictLen }

/-- Command start (R42): CMD.OP takes the opcode, the arguments are latched, RESULT, CAUSE, FAULT_POS and DONE are
cleared, BUSY is set. -/
def State.accept (s : State) (op : BitVec 4) : State :=
  { s with
    regs := { s.regs with cmd := op.setWidth 32, status := statusBusy, result := 0, cause := 0, faultPos := 0 }
    eng := Engine.start op s.regs }

/-- Command completion (R43): RESULT, CAUSE and FAULT_POS are set, BUSY returns to 0, DONE and DONE_PEND are set, the
engine is IDLE. -/
def State.complete (s : State) (result : Reg) (cause : Cause) (pos : Reg) : State :=
  { s with
    regs := { s.regs with
      status := statusDone, result := result, cause := cause.toReg, faultPos := pos,
      irqPend := setDonePend s.regs.irqPend }
    eng := { s.eng with phase := .idle, stage := .none } }

/-- `raise Fail(status, cause, pos)` (00_scope.md R11, 60_exceptions.md R284): the one failure entry. Nothing else is
saved: no mode, no vector, no stack. -/
def State.fail (s : State) (st : Status) (c : Cause) (pos : Reg) : State := s.complete st.toReg c pos

/-- `finish(v)` (R11): RESULT is `v`, CAUSE is NONE, FAULT_POS is 0 (R281). -/
def State.finish (s : State) (v : Nat) : State := s.complete (BitVec.ofNat 32 v) .none 0

/-- A failure of the decoder after its argument checks: every byte of OUT holds any value, and FAULT_POS is `pos`
(42_decoder.md R250, 60_exceptions.md R285). -/
def State.decodeFail (s : State) (st : Status) (c : Cause) (pos : Nat) : State :=
  s.havocOut.fail st c (BitVec.ofNat 32 pos)

/-- The success of the decoder: RESULT is `out_pos`, and OUT past it holds any value (R233, R245, R250). -/
def State.decodeDone (s : State) : State := (s.havocOutFrom s.eng.outPos).finish s.eng.outPos

/-- Reset (R47, R320, R321): registers and engine at their reset values, no completion signalled; memory unchanged but
for an abandoned command's OUT and, for the encode commands, its STATE, which hold any value. -/
def State.hardReset (s : State) : State :=
  let s1 := if s.busy ∧ usesOut s.eng.op then s.havocOut else s
  let s2 := if s.busy ∧ usesState s.eng.op then s1.havocTable else s1
  { s2 with regs := Regs.reset, eng := Engine.reset }

/-- A step of the record loop ends or goes on at the stage `st`. -/
def State.toStage (s : State) (st : Stage) : State := { s with eng := { s.eng with stage := st } }

end Sys2Proof.Machine
end

