-- ==== Sys2Proof/Machine/Command.lean ====
section
/-! DEFINITION. The command words (30_encoding.md R90, R91): ENCODE (41_encoder.md R170 to R177), UPDATE_DELTA_STATE
(R200, R201), ENCODE_DELTA (R205 to R207), DECODE (42_decoder.md R230, R231), DECODE_DELTA (R259, R260) and the illegal
opcodes. Each accepts the command (10_state.md R42), makes its checks in the order the rule lists them, and either
completes with a failure or leaves the engine running at its first stage; the engine's later steps run it to completion. -/

namespace Sys2Proof.Machine

/-- Go on to access memory, unless a launch premise is broken (20_memory.md R67, 70_reset_and_hazards.md R330, R331). -/
def launch (s : State) (go : State) : Result :=
  match launchRefusal s with
  | some r => .refused r
  | none => .next go

/-- The engine of an encode command at the start of its scan: class, widths, gain, effective soft limit, and the
variables of R191 (41_encoder.md R172 to R175, R191). -/
def Engine.startScan (e : Engine) (c : BlockClass) : Engine :=
  { e with
    cls := c
    nrLog2 := (classParams c).nrLog2
    offLog2 := (classParams c).offLog2
    rLog2 := (classParams c).rLog2
    gain := gainThreshold e.inLen.toNat
    softEff := effectiveSoftLimit e.soft.toNat e.inLen.toNat e.outCap.toNat (gainThreshold e.inLen.toNat)
    p := e.scanStart
    lit := e.scanStart
    ctr := 2
    parse := []
    outPos := 1
    stage := .scan }

/-- Write the class byte at OUT[0] (R176) and start the scan; ENCODE clears the table first (R177), ENCODE_DELTA does
not (R205). -/
def State.startEncode (s : State) (c : BlockClass) (clear : Bool) : State :=
  let m := s.mem.write (byteAddr s.eng.outAddr 0) (BitVec.ofNat 8 c.toNat)
  { s with
    mem := if clear then m.zero s.eng.stateAddr.toNat Config.stateMinSize else m
    eng := s.eng.startScan c }

/-- ENCODE after acceptance (41_encoder.md R170). -/
def runEncode (s : State) : Result :=
  match encodeArgs s.eng with
  | some c => .next (s.fail .failed c 0)
  | none =>
    if s.eng.inLen.toNat ≤ gainThreshold s.eng.inLen.toNat then .next (s.fail .incompressible .encTooSmall 0)
    else
      match classOf s.eng.inLen.toNat with
      | none => .next (s.fail .failed .argRange 0)
      | some c => launch s (s.startEncode c true)

/-- ENCODE_DELTA after acceptance (R205). -/
def runEncodeDelta (s : State) : Result :=
  match encodeDeltaArgs s.eng with
  | some c => .next (s.fail .failed c 0)
  | none =>
    if s.eng.inLen.toNat ≤ gainThreshold s.eng.inLen.toNat then .next (s.fail .incompressible .encTooSmall 0)
    else
      match encodeDeltaRange s.eng with
      | some c => .next (s.fail .failed c 0)
      | none =>
        match classOf (s.eng.dictLen.toNat + s.eng.inLen.toNat) with
        | none => .next (s.fail .failed .argRange 0)
        | some c => launch s (s.startEncode c false)

/-- The engine of UPDATE_DELTA_STATE at the start of its scan, from 0 (R200). -/
def Engine.startPrime (e : Engine) : Engine :=
  { e with p := 0, lit := 0, ctr := 2, parse := [], stage := .scan }

/-- UPDATE_DELTA_STATE after acceptance (R200): clear the table and scan the dictionary. -/
def runUpdate (s : State) : Result :=
  match updateArgs s.eng with
  | some c => .next (s.fail .failed c 0)
  | none => launch s { s with mem := s.withTableClear, eng := s.eng.startPrime }

/-- A decode whose argument checks passed starts at the class byte (42_decoder.md R230, R232). -/
def runDecode (s : State) (args : Option Cause) : Result :=
  match args with
  | some c => .next (s.fail .failed c 0)
  | none => launch s (s.toStage .classByte)

/-- An illegal command completes at once, with no memory access (30_encoding.md R91). -/
def runIllegal (s : State) : State := s.fail .failed .badOpcode 0

/-- ENCODE, OP 0x1 (R170). -/
def execEncode (s : State) : Result := runEncode (s.accept opEncode)

/-- DECODE, OP 0x2 (R230). -/
def execDecode (s : State) : Result :=
  let s1 := s.accept opDecode
  runDecode s1 (decodeArgs s1.eng)

/-- UPDATE_DELTA_STATE, OP 0x3 (R200); illegal where the delta commands are absent (R91). -/
def execUpdateDeltaState (s : State) : Result :=
  let s1 := s.accept opUpdate
  if s.params.deltaPresent then runUpdate s1 else .next (runIllegal s1)

/-- ENCODE_DELTA, OP 0x4 (R205); illegal where the delta commands are absent (R91). -/
def execEncodeDelta (s : State) : Result :=
  let s1 := s.accept opEncodeDelta
  if s.params.deltaPresent then runEncodeDelta s1 else .next (runIllegal s1)

/-- DECODE_DELTA, OP 0x5 (R259); illegal where the delta commands are absent (R91). -/
def execDecodeDelta (s : State) : Result :=
  let s1 := s.accept opDecodeDelta
  if s.params.deltaPresent then runDecode s1 (decodeDeltaArgs s1.eng) else .next (runIllegal s1)

/-- ILLEGAL_OP0, OP 0x0 (R91): illegal, not a no-op. -/
def execIllegalOp0 (s : State) : Result := .next (runIllegal (s.accept 0#4))

/-- ILLEGAL_OP6_7, OP 0x6 and 0x7 (R91). -/
def execIllegalOp67 (lo : BitVec 1) (s : State) : Result := .next (runIllegal (s.accept (3#3 ++ lo)))

/-- ILLEGAL_OP8_F, OP 0x8 to 0xF (R91). -/
def execIllegalOp8F (lo : BitVec 3) (s : State) : Result := .next (runIllegal (s.accept (1#1 ++ lo)))

end Sys2Proof.Machine
end

