-- ==== Sys2Proof/Machine/Header.lean ====
section
/-! DEFINITION. The class byte of a block (30_encoding.md R93, 42_decoder.md R232). -/

namespace Sys2Proof.Machine

/-- A legal class byte: the field widths of every tag of the block, the cursor past the class byte, nothing produced yet
(R232). -/
def State.selectClass (s : State) (c : BlockClass) : State :=
  { s with eng := { s.eng with
      cls := c
      nrLog2 := (classParams c).nrLog2
      offLog2 := (classParams c).offLog2
      rLog2 := (classParams c).rLog2
      inPos := 1
      outPos := 0
      stage := .tag } }

/-- An illegal class byte: FAILED, DEC_BAD_CLASS, position 0 (R232); OUT holds any value (R250). -/
def State.badClass (s : State) : State := s.decodeFail .failed .decBadClass 0

/-- HDR_C0: 4 KB (R232). -/
def execHdrC0 (s : State) : Result := .next (s.selectClass .c0)
/-- HDR_C1: 8 KB (R232). -/
def execHdrC1 (s : State) : Result := .next (s.selectClass .c1)
/-- HDR_C2: 16 KB (R232). -/
def execHdrC2 (s : State) : Result := .next (s.selectClass .c2)
/-- HDR_C3: 32 KB (R232). -/
def execHdrC3 (s : State) : Result := .next (s.selectClass .c3)
/-- HDR_C4: 64 KB (R232). -/
def execHdrC4 (s : State) : Result := .next (s.selectClass .c4)
/-- BAD_HDR_05 (R232). -/
def execBadHdr05 (s : State) : Result := .next s.badClass
/-- BAD_HDR_06_07 (R232). -/
def execBadHdr0607 (_ : BitVec 1) (s : State) : Result := .next s.badClass
/-- BAD_HDR_08_0F (R232). -/
def execBadHdr080F (_ : BitVec 3) (s : State) : Result := .next s.badClass
/-- BAD_HDR_10_1F (R232). -/
def execBadHdr101F (_ : BitVec 4) (s : State) : Result := .next s.badClass
/-- BAD_HDR_20_3F (R232). -/
def execBadHdr203F (_ : BitVec 5) (s : State) : Result := .next s.badClass
/-- BAD_HDR_40_7F (R232). -/
def execBadHdr407F (_ : BitVec 6) (s : State) : Result := .next s.badClass
/-- BAD_HDR_80_FF (R232). -/
def execBadHdr80FF (_ : BitVec 7) (s : State) : Result := .next s.badClass

end Sys2Proof.Machine
end

