-- ==== Sys2Proof/Machine/Record.lean ====
section
/-! DEFINITION. The records of the stream (42_decoder.md R236 to R245): the tags END, BAD_END and REP of each class, the
escape bytes and the literal bytes. A record is run element by element: its tag, the bytes of its literal-length chain,
its literal bytes, the bytes of its repeat-length chain; the checks and copies of R236, R240 and R245 happen where the
pseudocode reaches them. -/

namespace Sys2Proof.Machine

/-- The end of a REP (R240): the offset check (R241), the capacity check (R242), the repeat copy (40_primitives.md
R141), and the record loop goes on. `recM` is the repeat length, `recOff` the offset. -/
def State.repeatBody (s : State) : State :=
  let e := s.eng
  if e.avail + e.outPos < e.recOff then s.decodeFail .failed .decOffset e.inPos
  else if e.capEff - e.outPos < e.recM then s.decodeFail .failed .decRepOut e.inPos
  else
    let dst := e.outAddr + BitVec.ofNat 64 e.outPos
    { s with
      mem := s.mem.copy (dst - BitVec.ofNat 64 e.recOff) dst e.recM
      eng := { e with outPos := e.outPos + e.recM, stage := .tag } }

/-- The end of a terminal record (R245): `rf` must be 0, then the cursor must be at the end of IN. -/
def State.terminal (s : State) : State :=
  let e := s.eng
  if e.recR ≠ 0 then s.decodeFail .failed .decTermR e.inPos
  else if e.inPos ≠ e.inLen.toNat then s.decodeFail .failed .decTermTrail e.inPos
  else s.decodeDone

/-- After the literals (R240, R245): a terminal record ends, a REP reads its repeat-length chain if its field is at the
maximum, and copies otherwise. -/
def State.afterLiterals (s : State) : State :=
  if s.eng.recOff = 0 then s.terminal
  else if s.eng.recR = mask s.eng.rLog2 then s.toStage .rChain
  else s.repeatBody

/-- The literal bounds (R236, R237): the run must lie in the rest of IN and in the rest of the output capacity; then its
`recN` bytes are copied, one LIT each. -/
def State.literalBounds (s : State) : State :=
  let e := s.eng
  if e.inLeft < e.recN then s.decodeFail s.exhausted .decLitIn e.inPos
  else if e.capEff - e.outPos < e.recN then s.decodeFail .failed .decLitOut e.inPos
  else if e.recN = 0 then s.afterLiterals
  else s.toStage .literal

/-- A tag (R236): the fields of the record, the cursor past the tag, then the literal-length chain if nr_field is at its
maximum, else the literals. -/
def State.tagRecord (s : State) (nf rf off : Nat) : State :=
  let e := s.eng
  let s1 := { s with eng := { e with
      inPos := e.inPos + Config.tagBytes, recN := nf, recR := rf, recOff := off, recM := rf + Config.repeatMin } }
  if nf = mask e.nrLog2 then s1.toStage .nrChain else s1.literalBounds

/-- An escape byte adds its value to the length its chain extends (40_primitives.md R136). -/
def State.addEscape (s : State) (v : Nat) : State :=
  let e := s.eng
  if e.stage = .nrChain then { s with eng := { e with inPos := e.inPos + 1, recN := e.recN + v } }
  else { s with eng := { e with inPos := e.inPos + 1, recM := e.recM + v } }

/-- ESC_CONT (R136): adds 255, and the chain continues. -/
def State.escapeCont (s : State) : State := s.addEscape Config.escByteMax

/-- ESC_END (R136): adds its value and ends the chain; the record goes on after it (R236, R240). -/
def State.escapeEnd (s : State) (v : Byte) : State :=
  if s.eng.stage = .nrChain then (s.addEscape v.toNat).literalBounds else (s.addEscape v.toNat).repeatBody

/-- LIT (R236, 40_primitives.md R140): the byte goes to OUT unchanged; after the run's last literal the record goes on. -/
def State.literalByte (s : State) (v : Byte) : State :=
  let e := s.eng
  let s1 := { s with
    mem := s.mem.write (byteAddr e.outAddr e.outPos) v
    eng := { e with inPos := e.inPos + 1, outPos := e.outPos + 1, recN := e.recN - 1 } }
  if e.recN ≤ 1 then s1.afterLiterals else s1

/-- END_C0 (R245). -/
def execEndC0 (nr : BitVec 6) (s : State) : Result := .next (s.tagRecord nr.toNat 0 0)
/-- BAD_END_C0 (R245). -/
def execBadEndC0 (nr r : BitVec 6) (s : State) : Result := .next (s.tagRecord nr.toNat r.toNat 0)
/-- REP_C0 (R240). -/
def execRepC0 (nr r : BitVec 6) (off : BitVec 12) (s : State) : Result :=
  .next (s.tagRecord nr.toNat r.toNat off.toNat)
/-- END_C1 (R245). -/
def execEndC1 (nr : BitVec 5) (s : State) : Result := .next (s.tagRecord nr.toNat 0 0)
/-- BAD_END_C1 (R245). -/
def execBadEndC1 (nr : BitVec 5) (r : BitVec 6) (s : State) : Result := .next (s.tagRecord nr.toNat r.toNat 0)
/-- REP_C1 (R240). -/
def execRepC1 (nr : BitVec 5) (r : BitVec 6) (off : BitVec 13) (s : State) : Result :=
  .next (s.tagRecord nr.toNat r.toNat off.toNat)
/-- END_C2 (R245). -/
def execEndC2 (nr : BitVec 5) (s : State) : Result := .next (s.tagRecord nr.toNat 0 0)
/-- BAD_END_C2 (R245). -/
def execBadEndC2 (nr r : BitVec 5) (s : State) : Result := .next (s.tagRecord nr.toNat r.toNat 0)
/-- REP_C2 (R240). -/
def execRepC2 (nr r : BitVec 5) (off : BitVec 14) (s : State) : Result :=
  .next (s.tagRecord nr.toNat r.toNat off.toNat)
/-- END_C3 (R245). -/
def execEndC3 (nr : BitVec 4) (s : State) : Result := .next (s.tagRecord nr.toNat 0 0)
/-- BAD_END_C3 (R245). -/
def execBadEndC3 (nr : BitVec 4) (r : BitVec 5) (s : State) : Result := .next (s.tagRecord nr.toNat r.toNat 0)
/-- REP_C3 (R240). -/
def execRepC3 (nr : BitVec 4) (r : BitVec 5) (off : BitVec 15) (s : State) : Result :=
  .next (s.tagRecord nr.toNat r.toNat off.toNat)
/-- END_C4 (R245). -/
def execEndC4 (nr : BitVec 4) (s : State) : Result := .next (s.tagRecord nr.toNat 0 0)
/-- BAD_END_C4 (R245). -/
def execBadEndC4 (nr r : BitVec 4) (s : State) : Result := .next (s.tagRecord nr.toNat r.toNat 0)
/-- REP_C4 (R240). -/
def execRepC4 (nr r : BitVec 4) (off : BitVec 16) (s : State) : Result :=
  .next (s.tagRecord nr.toNat r.toNat off.toNat)

/-- ESC_CONT (R136). -/
def execEscCont (s : State) : Result := .next s.escapeCont
/-- ESC_END (R136). -/
def execEscEnd (v : Byte) (s : State) : Result := .next (s.escapeEnd v)
/-- LIT (R236). -/
def execLit (v : Byte) (s : State) : Result := .next (s.literalByte v)

end Sys2Proof.Machine
end

