-- ==== Sys2Proof/Machine/Dispatch.lean ====
section
/-! DEFINITION. `exec`: one arm per row of spec/opcode_table.json, each one call of the row's meaning. -/

namespace Sys2Proof.Machine

/-- The meaning of an instruction. -/
def exec (i : Instr) (s : State) : Host.Outcome State Fault Refusal :=
  match i with
  | .encode => Sys2Proof.Machine.execEncode s
  | .decode => Sys2Proof.Machine.execDecode s
  | .updateDeltaState => Sys2Proof.Machine.execUpdateDeltaState s
  | .encodeDelta => Sys2Proof.Machine.execEncodeDelta s
  | .decodeDelta => Sys2Proof.Machine.execDecodeDelta s
  | .illegalOp0 => Sys2Proof.Machine.execIllegalOp0 s
  | .illegalOp67 lo => Sys2Proof.Machine.execIllegalOp67 lo s
  | .illegalOp8F lo => Sys2Proof.Machine.execIllegalOp8F lo s
  | .hdrC0 => Sys2Proof.Machine.execHdrC0 s
  | .hdrC1 => Sys2Proof.Machine.execHdrC1 s
  | .hdrC2 => Sys2Proof.Machine.execHdrC2 s
  | .hdrC3 => Sys2Proof.Machine.execHdrC3 s
  | .hdrC4 => Sys2Proof.Machine.execHdrC4 s
  | .badHdr05 => Sys2Proof.Machine.execBadHdr05 s
  | .badHdr0607 lo => Sys2Proof.Machine.execBadHdr0607 lo s
  | .badHdr080F lo => Sys2Proof.Machine.execBadHdr080F lo s
  | .badHdr101F lo => Sys2Proof.Machine.execBadHdr101F lo s
  | .badHdr203F lo => Sys2Proof.Machine.execBadHdr203F lo s
  | .badHdr407F lo => Sys2Proof.Machine.execBadHdr407F lo s
  | .badHdr80FF lo => Sys2Proof.Machine.execBadHdr80FF lo s
  | .endC0 nr => Sys2Proof.Machine.execEndC0 nr s
  | .badEndC0 nr r => Sys2Proof.Machine.execBadEndC0 nr r s
  | .repC0 nr r off => Sys2Proof.Machine.execRepC0 nr r off s
  | .endC1 nr => Sys2Proof.Machine.execEndC1 nr s
  | .badEndC1 nr r => Sys2Proof.Machine.execBadEndC1 nr r s
  | .repC1 nr r off => Sys2Proof.Machine.execRepC1 nr r off s
  | .endC2 nr => Sys2Proof.Machine.execEndC2 nr s
  | .badEndC2 nr r => Sys2Proof.Machine.execBadEndC2 nr r s
  | .repC2 nr r off => Sys2Proof.Machine.execRepC2 nr r off s
  | .endC3 nr => Sys2Proof.Machine.execEndC3 nr s
  | .badEndC3 nr r => Sys2Proof.Machine.execBadEndC3 nr r s
  | .repC3 nr r off => Sys2Proof.Machine.execRepC3 nr r off s
  | .endC4 nr => Sys2Proof.Machine.execEndC4 nr s
  | .badEndC4 nr r => Sys2Proof.Machine.execBadEndC4 nr r s
  | .repC4 nr r off => Sys2Proof.Machine.execRepC4 nr r off s
  | .escCont => Sys2Proof.Machine.execEscCont s
  | .escEnd value => Sys2Proof.Machine.execEscEnd value s
  | .lit value => Sys2Proof.Machine.execLit value s

end Sys2Proof.Machine
end

