-- ==== Sys2Proof/Machine/Encoder.lean ====
section
/-! DEFINITION. The encoder after its command is accepted: the match finder (41_encoder.md R178, R179, R190 to R196) and
the emission of the block with its result envelope (R180, R185, R187, R189, R198). -/

namespace Sys2Proof.Machine

/-- The scan has its parse: UPDATE_DELTA_STATE discards it and finishes with 0 (R200), the others emit (R198). -/
def State.scanDone (s : State) (parse : List ParseRecord) : State :=
  if s.eng.op = opUpdate then s.finish 0
  else { s with eng := { s.eng with parse := parse, stage := .emit } }

/-- The scan under MATCH_FINDER = ANY: the parse is a draw over every valid parse (R179), and STATE holds any value
(R185, R200). -/
def State.scanAny (s : State) : State :=
  let s1 := { s with draws := s.draws + 1 }
  s1.havocTable.scanDone (chooseParse s.draws s.eng.cls s.scanByte s.eng.scanStart s.eng.scanEnd)

/-- A probe that found a verified candidate `c` (R191, R194, R195): extend it backward and forward, record it, and go on
behind it. -/
def Engine.takeMatch (e : Engine) (R : Nat → Byte) (c fin : Nat) : Engine :=
  let cp := backExtend R e.lit c e.p
  let m := matchLen R cp.1 cp.2 fin
  { e with
    parse := e.parse ++ [⟨cp.2 - e.lit, cp.2 - cp.1, m⟩]
    p := cp.2 + m
    lit := cp.2 + m
    ctr := 2 }

/-- A probe that missed (R193). -/
def Engine.missProbe (e : Engine) : Engine := { e with p := e.p + e.ctr >>> 1, ctr := e.ctr + 1 }

/-- One iteration of the reference scan (R191): a probe at `p` reads and replaces its table entry and takes or misses;
where no probe position is left, the rest is the terminal record's literal run (R196). -/
def State.scanReference (s : State) : State :=
  let e := s.eng
  let R := s.scanByte
  if e.p + Config.hashBytes ≤ e.scanEnd then
    let h := hash6 s.params.hashMul R e.p
    let c := s.tableEntry h
    { s with
      mem := s.withTableEntry h e.p
      eng := if c < e.p ∧ same4 R c e.p then e.takeMatch R c e.scanEnd else e.missProbe }
  else s.scanDone (e.parse ++ [⟨e.scanEnd - e.lit, 0, 0⟩])

/-- One engine step of a scan (R179). -/
def State.scanStep (s : State) : State :=
  match s.params.matchFinder with
  | .any => s.scanAny
  | .reference => s.scanReference

/-- The block of the finished parse (R198). -/
def State.block (s : State) : List Byte := emitBlock s.eng.cls s.scanByte s.eng.scanStart s.eng.parse

/-- The block fits the effective soft limit (R180, R187): it is written to OUT, OUT past it holds any value (R189), and
RESULT is its size. -/
def State.emitSuccess (s : State) (block : List Byte) : State :=
  let s1 : State :=
    { s with mem := s.mem.writeBytes s.eng.outAddr block, eng := { s.eng with outPos := block.length } }
  (s1.havocOutFrom block.length).finish block.length

/-- The encode ends without a block: OUT and FAULT_POS hold any value (R189, 60_exceptions.md R285). -/
def State.emitFailure (s : State) (st : Status) (c : Cause) : State :=
  let s1 := { s with draws := s.draws + 1 }
  s1.havocOut.fail st c (Config.freePos s.draws)

/-- The result envelope (R180): S where it fits the soft limit; 0 where it fits the capacity only; 0 or WRITE_ERROR, a
draw, where it does not fit. -/
def State.emitStep (s : State) : State :=
  let block := s.block
  if (block.length : Int) ≤ s.eng.softEff then s.emitSuccess block
  else if block.length ≤ s.eng.outCap.toNat then s.emitFailure .incompressible .encSoftLimit
  else
    let s1 := { s with draws := s.draws + 1 }
    if Config.freeWriteError s.draws then s1.emitFailure .writeError .encWrite
    else s1.emitFailure .incompressible .encSoftLimit

end Sys2Proof.Machine
end

