-- ==== Sys2Proof/Machine/Fetch.lean ====
section
/-! DEFINITION. What the running decoder meets at its cursor (42_decoder.md R232 to R236, R240): an instruction of the
stream, the end of the stream at a record boundary, or an exhausted input. -/

namespace Sys2Proof.Machine

/-- What stands at the cursor. -/
inductive Fetched where
  /-- an instruction of the stream -/
  | instr (i : Instr)
  /-- the input is exhausted where an element must stand; the cause of 60_exceptions.md R281 -/
  | exhausted (c : Cause)
  /-- the end of IN at a record boundary (42_decoder.md R234) -/
  | finished
  /-- no stream element can stand here; no run reaches it -/
  | lost
deriving DecidableEq, Repr

/-- The format the engine expects at its cursor: by its stage, and for a tag by its class (30_encoding.md R98). -/
def Engine.expects (e : Engine) : Option Format :=
  match e.stage with
  | .classByte => some .classByte
  | .tag => some (.tag e.cls)
  | .nrChain => some .esc
  | .rChain => some .esc
  | .literal => some .lit
  | .none => none
  | .scan => none
  | .emit => none

/-- A decoded word, or the cause of its absence: a truncated tag (R235), a truncated chain (R236, R240). -/
def fetchedOf : Except DecodeError (Instr × List Byte) → Fetched
  | .ok (i, _) => .instr i
  | .error .truncTag => .exhausted .decTruncTag
  | .error .truncEsc => .exhausted .decTruncEsc
  | .error .noCommandWord => .lost
  | .error .noClassByte => .lost
  | .error .noLiteral => .lost

/-- Read the next element of the stream at the cursor (R233): at the top of the record loop with no input left, the
stream is finished (R234). -/
def fetch (s : State) : Fetched :=
  if s.eng.stage = .tag ∧ s.eng.inPos = s.eng.inLen.toNat then .finished
  else
    match s.eng.expects with
    | none => .lost
    | some f => fetchedOf (decode f (s.inBytes f.size))

end Sys2Proof.Machine
end

