-- ==== Sys2Proof/Machine/HostPort.lean ====
section
/-! DEFINITION. The host's side of the block: register reads and writes (10_state.md R21, R22), memory accesses during a
command (20_memory.md R67). -/

namespace Sys2Proof.Machine

/-- CAPS (10_state.md R22): DELTA, HT_LOG2 = 12, N_CLASSES = 5; DELTA is DELTA_PRESENT (00_scope.md R3). -/
def capsValue (deltaPresent : Bool) : Reg := if deltaPresent then 0x00050C01 else 0x00050C00

/-- The value of the register at an offset (R22): the hard-wired ones, the ones that hold a value, and 0 for every
offset that is not listed (R21). -/
def regRead (p : Params) (r : Regs) : Nat → Reg
  | 0x00 => 0x4B345A4C
  | 0x04 => capsValue p.deltaPresent
  | 0x08 => BitVec.ofNat 32 Config.stateMinSize
  | 0x0C => r.cmd
  | 0x10 => r.status
  | 0x14 => r.result
  | 0x18 => r.cause
  | 0x1C => r.faultPos
  | 0x20 => r.irqEn
  | 0x24 => r.irqPend
  | 0x28 => r.inLen
  | 0x2C => r.outCap
  | 0x30 => r.softLimit
  | 0x34 => r.dictLen
  | 0x40 => r.inAddrLo
  | 0x44 => r.inAddrHi
  | 0x48 => r.outAddrLo
  | 0x4C => r.outAddrHi
  | 0x50 => r.stateAddrLo
  | 0x54 => r.stateAddrHi
  | 0x58 => r.dictAddrLo
  | 0x5C => r.dictAddrHi
  | _ => 0

/-- The offset of CMD (R22). -/
def cmdOffset : Nat := 0x0C

/-- A write to a register other than CMD (R22): IRQ_EN keeps bit 0 only, IRQ_PEND is write-1-to-clear, the argument
registers take any value, read-only and unlisted offsets ignore it. -/
def regWrite (r : Regs) (off : Nat) (v : Reg) : Regs :=
  match off with
  | 0x20 => { r with irqEn := v &&& 1 }
  | 0x24 => { r with irqPend := clearDonePend r.irqPend v }
  | 0x28 => { r with inLen := v }
  | 0x2C => { r with outCap := v }
  | 0x30 => { r with softLimit := v }
  | 0x34 => { r with dictLen := v }
  | 0x40 => { r with inAddrLo := v }
  | 0x44 => { r with inAddrHi := v }
  | 0x48 => { r with outAddrLo := v }
  | 0x4C => { r with outAddrHi := v }
  | 0x50 => { r with stateAddrLo := v }
  | 0x54 => { r with stateAddrHi := v }
  | 0x58 => { r with dictAddrLo := v }
  | 0x5C => { r with dictAddrHi := v }
  | _ => r

/-- What a host register access is to the block (R21). -/
inductive RegAccess where
  /-- no byte of it is in the register block -/
  | outside
  /-- it reaches the block and is not a naturally aligned 32-bit access in it -/
  | odd
  /-- a naturally aligned 32-bit access to the register at the offset -/
  | register (off : Nat)
deriving DecidableEq, Repr

/-- How far a host address lies behind REG_BASE, modulo 2^64 (R21, 00_scope.md R12). -/
def regDistance (p : Params) (addr : Addr) : Nat := (addr - p.regBase).toNat

/-- A naturally aligned 32-bit access (R21). -/
def aligned32 (off width : Nat) : Bool := width == 4 && off % 4 == 0

/-- A host access of `width` bytes from `addr` on, in the 256-byte register block at REG_BASE (R21, log entry 15): one that
starts in the block is a register access or an odd one; one that starts outside reaches the block where its bytes go on to
REG_BASE. -/
def regAccess (p : Params) (addr : Addr) (width : Nat) : RegAccess :=
  if regDistance p addr < 256 then
    if aligned32 (regDistance p addr) width then .register (regDistance p addr) else .odd
  else if 2 ^ 64 < regDistance p addr + width then .odd
  else .outside

/-- A host register read that lands: what it returns is in `busData`. -/
def State.readRegister (s : State) (off : Nat) : State := { s with busData := regRead s.params s.regs off }

/-- A host register write that lands at an offset other than CMD's. -/
def State.writeRegister (s : State) (off : Nat) (v : Reg) : State := { s with regs := regWrite s.regs off v }

/-- A write to memory by the host or another bus master: refused for a byte of a running command's regions
(20_memory.md R67(a), 70_reset_and_hazards.md R331). -/
def hostMemWrite (s : State) (a : Addr) (v : Byte) : Result :=
  if s.busy ∧ s.eng.regions.any (fun r => spanHolds r a.toNat) then .refused .regionWritten
  else .next { s with mem := s.mem.write a.toNat v }

/-- A host read of memory: any value for a byte of a running command's OUT or STATE (R67(b)), else the byte there. -/
def State.hostMemRead (s : State) (a : Addr) : State :=
  if s.busy ∧ s.eng.written.any (fun r => spanHolds r a.toNat) then
    { s with memData := Config.freeByte s.draws a.toNat, draws := s.draws + 1 }
  else { s with memData := s.mem.read a.toNat }

end Sys2Proof.Machine
end

