-- ==== Sys2Proof/Machine/Engine.lean ====
section
/-! DEFINITION. One step of the engine (10_state.md R20, 42_decoder.md R233, 41_encoder.md R191) and the landing of one
host event (10_state.md R21, R42; 20_memory.md R67; 70_reset_and_hazards.md R320). -/

namespace Sys2Proof.Machine

/-- A running decoder runs the instruction at its cursor, finishes at a record boundary at the end of IN (R234), or
fails with the exhausted input's cause at its cursor (R235, R236, R240, R247). -/
def decoderStep (s : State) : Result :=
  match fetch s with
  | .instr i => exec i s
  | .exhausted c => .next (s.decodeFail s.exhausted c s.eng.inPos)
  | .finished => .next s.decodeDone
  | .lost => .fault .engineLost

/-- One engine step: nothing in IDLE (70_reset_and_hazards.md R323), else the step of the engine's stage. -/
def engineStep (s : State) : Result :=
  match s.eng.phase with
  | .idle => .next s
  | .run =>
    match s.eng.stage with
    | .none => .fault .engineLost
    | .scan => .next s.scanStep
    | .emit => .next s.emitStep
    | .classByte => decoderStep s
    | .tag => decoderStep s
    | .nrChain => decoderStep s
    | .literal => decoderStep s
    | .rChain => decoderStep s

/-- A write to CMD (10_state.md R42): ignored while BUSY, else the command word's instruction runs. -/
def writeCommand (s : State) (w : Reg) : Result := if s.busy then .next s else exec (decodeCmd w) s

/-- A host register write lands (R21, R22): a write outside the register block is not this block's, an access that
reaches it and is not aligned 32-bit is refused. -/
def landRegWrite (s : State) (addr : Addr) (width : Nat) (v : Reg) : Result :=
  match regAccess s.params addr width with
  | .outside => .next s
  | .odd => .refused .registerAccess
  | .register off => if off = cmdOffset then writeCommand s v else .next (s.writeRegister off v)

/-- A host register read lands (R21, R22). -/
def landRegRead (s : State) (addr : Addr) (width : Nat) : Result :=
  match regAccess s.params addr width with
  | .outside => .next s
  | .odd => .refused .registerAccess
  | .register off => .next (s.readRegister off)

/-- A host event lands. -/
def landHost (act : HostAct) (s : State) : Result :=
  match act with
  | .regWrite a w v => landRegWrite s a w v
  | .regRead a w => landRegRead s a w
  | .memWrite a v => hostMemWrite s a v
  | .memRead a => .next (s.hostMemRead a)
  | .reset => .next s.hardReset

/-- The next outcome, if there is a next state. -/
def thenStep (r : Result) (f : State → Result) : Result :=
  match r with
  | .next s => f s
  | .fault x => .fault x
  | .refused x => .refused x

/-- The first pending event is due: it lands, and where it shares its cycle with an engine step, the engine steps after
it, so that a completion's set of DONE_PEND wins over the host's clear (60_exceptions.md R292). -/
def landEvent (e : HostEvent) (s : State) : Result :=
  if e.together then thenStep (landHost e.act s) engineStep else landHost e.act s

end Sys2Proof.Machine
end

