-- ==== Sys2Proof/Machine/Step.lean ====
section
/-! DEFINITION. The step of the whole machine: the first pending host event lands when its wait is over; otherwise the
engine steps. -/

namespace Sys2Proof.Machine

/-- One step. With no event pending, the engine steps; with one that still waits, the engine steps and the wait counts
down; with one that is due, it lands. -/
def step (s : State) : Host.Outcome State Fault Refusal :=
  match s.host with
  | [] => engineStep s
  | e :: rest =>
    if e.wait = 0 then landEvent e { s with host := rest }
    else engineStep { s with host := { e with wait := e.wait - 1 } :: rest }

/-- The pending events, the first one step later: so that the engine steps next. -/
def delayed : List HostEvent → List HostEvent
  | [] => []
  | e :: rest => { e with wait := e.wait + 1 } :: rest

/-- The stage in which the engine reads a word of the format. -/
def stageOf : Format → Stage
  | .cmd => .none
  | .classByte => .classByte
  | .tag _ => .tag
  | .esc => .nrChain
  | .lit => .literal

/-- The class whose tags a format holds. -/
def formatClass : Format → BlockClass
  | .tag c => c
  | .cmd => .c0
  | .classByte => .c0
  | .esc => .c0
  | .lit => .c0

/-- A command word is placed as the host's due write to CMD, in an idle block. -/
def State.withCommand (s : State) (w : Reg) : State :=
  { s with
    host := ⟨0, false, .regWrite (s.params.regBase + BitVec.ofNat 64 cmdOffset) 4 w⟩ :: s.host
    regs := { s.regs with status := s.regs.status &&& 2 }
    eng := { s.eng with phase := .idle, stage := .none } }

/-- A word of the stream is placed at the cursor of a running DECODE in the stage that reads it: a region IN of 8 bytes
at 0x1000, a region OUT of 64 bytes at 0x2000, nothing produced yet, one literal to go (log entry 7). -/
def State.withStream (s : State) (f : Format) (bytes : List Byte) : State :=
  let pos := if f = .classByte then 0 else 1
  { s with
    host := delayed s.host
    regs := { s.regs with status := statusBusy }
    mem := s.mem.writeBytes (0x1000 + BitVec.ofNat 64 pos) bytes
    eng := { s.eng with
      phase := .run, op := opDecode, stage := stageOf f
      inAddr := 0x1000, inLen := 8, outAddr := 0x2000, outCap := 64
      cls := formatClass f
      nrLog2 := (classParams (formatClass f)).nrLog2
      offLog2 := (classParams (formatClass f)).offLog2
      rLog2 := (classParams (formatClass f)).rLog2
      inPos := pos, outPos := 0, recN := 1, recM := Config.repeatMin, recR := 0, recOff := 0 } }

/-- `s` with the table's word placed where the next step fetches (see `tableFormat` for the format it is read in). -/
def State.withFetchWord (s : State) (nbits w : Nat) : State :=
  if tableFormat nbits w = .cmd then s.withCommand (BitVec.ofNat 32 w)
  else s.withStream (tableFormat nbits w) (bytesOfNat (tableFormat nbits w).size w)

end Sys2Proof.Machine
end

