-- ==== Sys2Proof/Safety.lean ====
section
/-! DEFINITION. What counts as a sound state of the block and as a safe step, in the terms the statements use. -/

namespace Sys2Proof.Machine

/-- The memory keeps its canonical form. -/
def MemoryInv (s : State) : Prop := s.mem.wf

/-- The host-visible registers keep their reserved fields 0 (10_state.md R22), BUSY and DONE are never both 1 (R26, R27),
BUSY is 1 exactly while the engine is in RUN (R40), and RESULT, CAUSE and FAULT_POS read 0 while BUSY is 1
(70_reset_and_hazards.md R332 (c)). -/
def RegisterInv (s : State) : Prop :=
  s.regs.cmd.toNat < 16 ∧ s.regs.status.toNat ≤ 2 ∧ s.regs.cause.toNat < 256 ∧ s.regs.irqEn.toNat ≤ 1 ∧
  s.regs.irqPend.toNat ≤ 1 ∧ (s.busy = true ↔ s.eng.phase = .run) ∧
  (s.busy = true → s.regs.result = 0 ∧ s.regs.cause = 0 ∧ s.regs.faultPos = 0)

/-- The field widths are those of the class (40_primitives.md R133). -/
def Engine.widthsOk (e : Engine) : Prop :=
  e.nrLog2 = (classParams e.cls).nrLog2 ∧ e.offLog2 = (classParams e.cls).offLog2 ∧
  e.rLog2 = (classParams e.cls).rLog2

/-- A running decoder: its arguments passed their checks (42_decoder.md R231, R260), its cursor is inside IN (10_state.md
R41), and it has produced no more than the effective capacity. -/
def Engine.decoding (e : Engine) : Prop :=
  (e.op = opDecode ∨ e.op = opDecodeDelta) ∧ 4 < e.inLen.toNat ∧ e.inPos ≤ e.inLen.toNat ∧ e.outPos ≤ e.capEff ∧
  e.inAddr.toNat + e.inLen.toNat ≤ 2 ^ 64 ∧ e.outAddr.toNat + e.outCap.toNat ≤ 2 ^ 64 ∧
  (e.op = opDecodeDelta → 0 < e.dictLen.toNat → e.outAddr.toNat = e.dictAddr.toNat + e.dictLen.toNat) ∧
  anyMeet e.regions = false

/-- A running encode command: its arguments passed their checks (41_encoder.md R171, R201, R206), its scan region has a
class and is at most 64 KB (R174, R207), its effective soft limit is at most the capacity (R175). -/
def Engine.encoding (e : Engine) : Prop :=
  (e.op = opEncode ∨ e.op = opUpdate ∨ e.op = opEncodeDelta) ∧
  e.stateAddr.toNat + Config.stateMinSize ≤ 2 ^ 64 ∧ e.scanEnd ≤ Config.maxBlock ∧
  (e.op ≠ opEncode → e.dictAddr.toNat + e.dictLen.toNat ≤ 2 ^ 64) ∧
  (e.op ≠ opUpdate → classOf e.scanEnd = some e.cls ∧ e.widthsOk ∧ e.softEff ≤ e.outCap.toNat ∧
    0 < e.outCap.toNat ∧ e.inAddr.toNat + e.inLen.toNat ≤ 2 ^ 64 ∧ e.outAddr.toNat + e.outCap.toNat ≤ 2 ^ 64) ∧
  anyMeet e.regions = false

/-- What holds of a running engine at each stage. -/
def Engine.sound (e : Engine) : Prop :=
  match e.stage with
  | .none => False
  | .classByte => e.decoding ∧ e.inPos = 0 ∧ e.outPos = 0
  | .tag => e.decoding ∧ e.widthsOk
  | .nrChain => e.decoding ∧ e.widthsOk
  | .literal => e.decoding ∧ e.widthsOk ∧ 0 < e.recN ∧ e.recN ≤ e.inLeft ∧ e.recN ≤ e.capEff - e.outPos
  | .rChain => e.decoding ∧ e.widthsOk ∧ e.recOff ≠ 0
  | .scan => e.encoding ∧ 2 ≤ e.ctr
  | .emit => e.encoding ∧ e.op ≠ opUpdate

/-- A running engine is at a stage of its command, with its cursors in bounds. -/
def EngineInv (s : State) : Prop := s.eng.phase = .run → s.eng.sound

/-- The repeat records found so far are valid and partition `R[q, last)` (41_encoder.md R178). -/
def validRecords (R : Nat → Byte) (c : BlockClass) (last : Nat) : Nat → List ParseRecord → Prop
  | q, [] => q = last
  | q, r :: rest => validRecord R c q r = true ∧ validRecords R c last (q + r.n + r.m) rest

/-- The parse in progress is valid up to the pending literal run, and the finished parse is valid (R178, R192). -/
def ParseInv (s : State) : Prop :=
  s.eng.phase = .run → s.eng.op ≠ opUpdate →
    (s.eng.stage = .scan →
      validRecords s.scanByte s.eng.cls s.eng.lit s.eng.scanStart s.eng.parse ∧ s.eng.lit ≤ s.eng.p ∧
      s.eng.lit ≤ s.eng.scanEnd) ∧
    (s.eng.stage = .emit → validParse s.scanByte s.eng.cls s.eng.scanEnd s.eng.scanStart s.eng.parse = true)

/-- A step is safe when it does not fault. -/
def SafeStep (s : State) : Prop := ∀ r, step s ≠ .fault r

/-! ## Frames -/

/-- Every byte of memory reads as before. -/
def SameMemory (s t : State) : Prop := ∀ a, t.mem.read a = s.mem.read a

/-- Every byte outside the spans reads as before. -/
def SameOutside (spans : List Span) (s t : State) : Prop :=
  ∀ a, (∀ r ∈ spans, spanHolds r a = false) → t.mem.read a = s.mem.read a

/-- What no instruction changes: the parameters, the host's pending events, what its last reads returned. -/
def SameSurroundings (s t : State) : Prop :=
  t.params = s.params ∧ t.host = s.host ∧ t.busData = s.busData ∧ t.memData = s.memData

/-- The registers of an accepted command that runs (10_state.md R42). -/
def Regs.accepted (r : Regs) (op : BitVec 4) : Regs :=
  { r with cmd := op.setWidth 32, status := 1, result := 0, cause := 0, faultPos := 0 }

/-- The registers after a completion (R43): STATUS is DONE, DONE_PEND is set. -/
def Regs.ended (r : Regs) (result cause pos : Reg) : Regs :=
  { r with status := 2, result := result, cause := cause, faultPos := pos, irqPend := r.irqPend ||| 1 }

/-- The running command has ended: the registers of a completion and no other, the engine IDLE. -/
def EndedWith (s t : State) (result cause pos : Reg) : Prop :=
  t.regs = s.regs.ended result cause pos ∧ t.eng.phase = .idle ∧ SameSurroundings s t

/-- A command that is accepted and completes at once: the registers of a completion, the engine IDLE, memory as before. -/
def EndedAtOnce (s t : State) (op : BitVec 4) (result cause : Reg) : Prop :=
  t.regs = (s.regs.accepted op).ended result cause 0 ∧ t.eng.phase = .idle ∧ SameMemory s t ∧ SameSurroundings s t

/-- The latched arguments a command `op` finds in the registers of `s` (R42). -/
def State.latched (s : State) (op : BitVec 4) : Engine := Engine.start op s.regs

/-- No launch premise is broken (20_memory.md R65, R67; 70_reset_and_hazards.md R330, R331). -/
def LaunchOk (p : Params) (e : Engine) : Prop :=
  anyMeet e.regions = false ∧ (usesState e.op = true → Config.stateMinSize ≤ p.stateBufLen) ∧
  ∀ r ∈ e.regions, ∀ q ∈ p.notMemory, spanMeets r q = false

/-- An engine that keeps the latched arguments of `e`. -/
def SameArgs (e f : Engine) : Prop :=
  f.op = e.op ∧ f.inAddr = e.inAddr ∧ f.outAddr = e.outAddr ∧ f.stateAddr = e.stateAddr ∧ f.dictAddr = e.dictAddr ∧
  f.inLen = e.inLen ∧ f.outCap = e.outCap ∧ f.soft = e.soft ∧ f.dictLen = e.dictLen

/-! ## The elements of a record -/

/-- The class and the fields `(nr_field, r_field, off_field)` of a tag (30_encoding.md R94); none for the other
formats. -/
def tagFields : Instr → Option (BlockClass × Nat × Nat × Nat)
  | .endC0 nr => some (.c0, nr.toNat, 0, 0)
  | .badEndC0 nr r => some (.c0, nr.toNat, r.toNat, 0)
  | .repC0 nr r off => some (.c0, nr.toNat, r.toNat, off.toNat)
  | .endC1 nr => some (.c1, nr.toNat, 0, 0)
  | .badEndC1 nr r => some (.c1, nr.toNat, r.toNat, 0)
  | .repC1 nr r off => some (.c1, nr.toNat, r.toNat, off.toNat)
  | .endC2 nr => some (.c2, nr.toNat, 0, 0)
  | .badEndC2 nr r => some (.c2, nr.toNat, r.toNat, 0)
  | .repC2 nr r off => some (.c2, nr.toNat, r.toNat, off.toNat)
  | .endC3 nr => some (.c3, nr.toNat, 0, 0)
  | .badEndC3 nr r => some (.c3, nr.toNat, r.toNat, 0)
  | .repC3 nr r off => some (.c3, nr.toNat, r.toNat, off.toNat)
  | .endC4 nr => some (.c4, nr.toNat, 0, 0)
  | .badEndC4 nr r => some (.c4, nr.toNat, r.toNat, 0)
  | .repC4 nr r off => some (.c4, nr.toNat, r.toNat, off.toNat)
  | .encode => none
  | .decode => none
  | .updateDeltaState => none
  | .encodeDelta => none
  | .decodeDelta => none
  | .illegalOp0 => none
  | .illegalOp67 _ => none
  | .illegalOp8F _ => none
  | .hdrC0 => none
  | .hdrC1 => none
  | .hdrC2 => none
  | .hdrC3 => none
  | .hdrC4 => none
  | .badHdr05 => none
  | .badHdr0607 _ => none
  | .badHdr080F _ => none
  | .badHdr101F _ => none
  | .badHdr203F _ => none
  | .badHdr407F _ => none
  | .badHdr80FF _ => none
  | .escCont => none
  | .escEnd _ => none
  | .lit _ => none

/-- Is the row an END row (R95)? -/
def isEnd : Instr → Bool
  | .endC0 _ => true
  | .endC1 _ => true
  | .endC2 _ => true
  | .endC3 _ => true
  | .endC4 _ => true
  | _ => false

/-- Is the row a REP row (R95)? -/
def isRep : Instr → Bool
  | .repC0 _ _ _ => true
  | .repC1 _ _ _ => true
  | .repC2 _ _ _ => true
  | .repC3 _ _ _ => true
  | .repC4 _ _ _ => true
  | _ => false

/-- The engine just past a tag: the cursor is 3 bytes on, the record's fields are set (42_decoder.md R236, R240). -/
def Engine.pastTag (e : Engine) (nf rf off : Nat) : Engine :=
  { e with inPos := e.inPos + 3, recN := nf, recR := rf, recOff := off, recM := rf + 4 }

/-- The tag `i` of the block's class, with its fields. -/
def tagOf (s : State) (i : Instr) (nf rf off : Nat) : Prop :=
  tagFields i = some (s.eng.cls, nf, rf, off) ∧ s.eng.widthsOk

/-- `i` ends the literal-length part of a record: the engine `e` then stands at the first literal byte, and `e.recN` is
the number of literals (R236). It is a tag whose nr_field is below its maximum, or the last byte of the literal-length
chain. -/
def LiteralsKnown (s : State) (i : Instr) (e : Engine) : Prop :=
  (∃ nf rf off, tagOf s i nf rf off ∧ nf ≠ mask (classParams s.eng.cls).nrLog2 ∧ e = s.eng.pastTag nf rf off) ∨
  (∃ v : Byte, i = .escEnd v ∧ s.eng.stage = .nrChain ∧
    e = { s.eng with inPos := s.eng.inPos + 1, recN := s.eng.recN + v.toNat })

/-- `i` ends the literals of a record: the engine `e` then stands after them, and `m` is the memory with them copied. It
is a tag with no literals, or the last literal byte. -/
def LiteralsDone (s : State) (i : Instr) (e : Engine) (m : Memory) : Prop :=
  (∃ rf off, tagOf s i 0 rf off ∧ e = s.eng.pastTag 0 rf off ∧ m = s.mem) ∨
  (∃ v : Byte, i = .lit v ∧ s.eng.widthsOk ∧ s.eng.recN = 1 ∧
    e = { s.eng with inPos := s.eng.inPos + 1, outPos := s.eng.outPos + 1, recN := 0 } ∧
    m = s.mem.write (byteAddr s.eng.outAddr s.eng.outPos) v)

/-- A literal byte has room in OUT, which the bounds check before its run has found (R237). -/
def LiteralHasRoom (s : State) (i : Instr) : Prop :=
  ∀ v, i = .lit v → s.eng.outPos < s.eng.outCap.toNat ∧ s.eng.outAddr.toNat + s.eng.outCap.toNat ≤ 2 ^ 64

/-- `i` ends a REP before its repeat: the engine `e` then stands after the record, `e.recM` is the repeat length, and `m`
is the memory before the repeat (R240). The literals are done and r_field is below its maximum, or `i` is the last byte
of the repeat-length chain. -/
def RepeatKnown (s : State) (i : Instr) (e : Engine) (m : Memory) : Prop :=
  (LiteralsDone s i e m ∧ e.recOff ≠ 0 ∧ e.recR ≠ mask (classParams s.eng.cls).rLog2) ∨
  (∃ v : Byte, i = .escEnd v ∧ s.eng.stage = .rChain ∧ s.eng.recOff ≠ 0 ∧ m = s.mem ∧
    e = { s.eng with inPos := s.eng.inPos + 1, recM := s.eng.recM + v.toNat })

/-- EXH as RESULT holds it: FAILED, or READ_ERROR under READ_ERR_ON_EXHAUST (R247). -/
def exhCode (p : Params) : Reg := if p.readErrOnExhaust then 0xFFFFFFFE else 0xFFFFFFFF

/-- The running decode fails: the registers of a completion with this result, cause and position; every byte outside OUT
reads as before (R250, 60_exceptions.md R284). -/
def DecodeFailed (s t : State) (result cause : Reg) (pos : Nat) : Prop :=
  EndedWith s t result cause (BitVec.ofNat 32 pos) ∧ SameOutside [s.eng.outSpan] s t

/-- The running decode succeeds with `n` bytes, over the memory `m`: `OUT[0 .. n)` and everything outside OUT read as in
`m`, what follows in OUT is open (R250). -/
def DecodeSucceeded (s t : State) (m : Memory) (n : Nat) : Prop :=
  EndedWith s t (BitVec.ofNat 32 n) 0 0 ∧
  ∀ a, ¬(s.eng.outAddr.toNat + n ≤ a ∧ a < s.eng.outAddr.toNat + s.eng.outCap.toNat) → t.mem.read a = m.read a

/-- The stream goes on: registers and memory as before, the engine is `e`. -/
def StreamGoesOn (s t : State) (e : Engine) : Prop :=
  t.regs = s.regs ∧ t.eng = e ∧ SameMemory s t ∧ SameSurroundings s t ∧ t.draws = s.draws

/-- The spans the running decoder reads: IN, what it has produced of OUT, and DICT in DECODE_DELTA (R248). -/
def Engine.decoderReads (e : Engine) : List Span :=
  [e.inSpan, ⟨e.outAddr.toNat, e.outPos⟩] ++ (if e.op = opDecodeDelta then [e.dictSpan] else [])

/-- Two states read the same in the spans. -/
def AgreeOn (spans : List Span) (s t : State) : Prop :=
  ∀ r ∈ spans, ∀ a, spanHolds r a = true → t.mem.read a = s.mem.read a

/-- The engine runs and no host event is pending: the next step is the engine's. -/
def Running (s : State) : Prop := s.eng.phase = .run ∧ s.host = []

/-- The running command is a decode. -/
def Engine.isDecode (e : Engine) : Prop := e.op = opDecode ∨ e.op = opDecodeDelta

end Sys2Proof.Machine
end

