-- ==== Sys2Proof/Certificates/Slice0/Obligations.lean ====
section
/-! DEFINITION. The statements about the LZ4K codec block, for the provers. -/

open Sys2Proof Sys2Proof.Machine

/-! ## Encoding and primitives -/

/-- Decoding an encoded well-formed instruction gives it back, whatever follows it in the stream. -/
def Obligations.DecodeOfEncodeIsIdentity : Prop :=
  ∀ (i : Instr) (rest : List Byte), i.wf = true → decode i.format (encode i ++ rest) = .ok (i, rest)

/-- Every stream word has one meaning: what the decoder reads is well formed, of the format asked for, and encodes back
to the bytes it was read from. -/
def Obligations.StreamWordsReencode : Prop :=
  ∀ (f : Format) (bs rest : List Byte) (i : Instr), f ≠ .cmd → decode f bs = .ok (i, rest) →
    i.wf = true ∧ i.format = f ∧ encode i ++ rest = bs

/-- R90: only OP = CMD[3:0] selects; bits 31:4 are ignored on write and read as 0. -/
def Obligations.CommandWordSelectsByOpcode : Prop :=
  ∀ w : Reg,
    decodeCmd w = decodeCmd (w &&& 15) ∧
    (w.toNat % 16 = 1 ↔ decodeCmd w = .encode) ∧
    (w.toNat % 16 = 2 ↔ decodeCmd w = .decode) ∧
    (w.toNat % 16 = 3 ↔ decodeCmd w = .updateDeltaState) ∧
    (w.toNat % 16 = 4 ↔ decodeCmd w = .encodeDelta) ∧
    (w.toNat % 16 = 5 ↔ decodeCmd w = .decodeDelta) ∧
    ((w.toNat % 16 = 0 ∨ 6 ≤ w.toNat % 16) ↔
      decodeCmd w = .illegalOp0 ∨ (∃ lo, decodeCmd w = .illegalOp67 lo) ∨ ∃ lo, decodeCmd w = .illegalOp8F lo) ∧
    (∀ s t, exec (decodeCmd w) s = .next t → regRead t.params t.regs 0x0C = w &&& 15)

/-- A few words written out from the spec's encodings decode to what they stand for. -/
def Obligations.SampleWordsDecode : Prop :=
  decode .cmd [0x04, 0xFF, 0xFF, 0xFF] = .ok (.encodeDelta, []) ∧
  decode .classByte [0x03] = .ok (.hdrC3, []) ∧
  decode (.tag .c0) [0x01, 0xF0, 0x07] = .ok (.repC0 1 63 1, []) ∧
  decode (.tag .c2) [0x64, 0x80, 0x18] = .ok (.repC2 3 2 100, []) ∧
  decode (.tag .c4) [0xFF, 0xFF, 0xFF] = .ok (.repC4 15 15 65535, []) ∧
  decode (.tag .c0) [0x00, 0x00, 0x04] = .ok (.endC0 1, []) ∧
  decode .esc [0xFF, 0x01] = .ok (.escCont, [0x01]) ∧
  decode .lit [0x61] = .ok (.lit 0x61, [])

/-- R94: the three fields of a tag stand at their places for each class, and fill its 24 bits; off_field and r_field
choose the record kind. -/
def Obligations.DecodedTagHasItsFields : Prop :=
  ∀ (c : BlockClass) (t : BitVec 24),
    (classParams c).offLog2 + (classParams c).rLog2 + (classParams c).nrLog2 = 24 ∧
    (∃ nf rf off, tagFields (decodeTag c t) = some (c, nf, rf, off) ∧
      off = t.toNat % 2 ^ (classParams c).offLog2 ∧
      rf = t.toNat / 2 ^ (classParams c).offLog2 % 2 ^ (classParams c).rLog2 ∧
      nf = t.toNat / 2 ^ ((classParams c).offLog2 + (classParams c).rLog2) ∧
      nf < 2 ^ (classParams c).nrLog2 ∧
      (isRep (decodeTag c t) = true ↔ off ≠ 0) ∧
      (isEnd (decodeTag c t) = true ↔ off = 0 ∧ rf = 0))

/-- R134, R138: packing fields that are in range loses none of them, stays in 24 bits, and the decoder reads the packed
bytes back as the record with these fields. -/
def Obligations.PackedTagUnpacks : Prop :=
  ∀ (c : BlockClass) (nf rf off : Nat), nf < 2 ^ (classParams c).nrLog2 → rf < 2 ^ (classParams c).rLog2 →
    off < 2 ^ (classParams c).offLog2 →
    packTag c nf rf off < 2 ^ 24 ∧ unpackTag c (packTag c nf rf off) = (nf, rf, off) ∧
    ∃ i, decode (.tag c) (packTagBytes c nf rf off) = .ok (i, []) ∧ tagFields i = some (c, nf, rf, off)

/-- R135, R136: an escape chain decodes to the value it encodes, whatever follows it, and takes `u / 255 + 1` bytes; a
chain of 255s with no terminator is truncated. -/
def Obligations.EscapeChainRoundTrip : Prop :=
  (∀ (u : Nat) (rest : List Byte), (escEncode u).length = u / 255 + 1 ∧
    escDecode (escEncode u ++ rest) = some (u, u / 255 + 1)) ∧
  (∀ n, escDecode (List.replicate n 255#8) = none)

/-- R131: `msb` is the largest k with 2^k ≤ x, `ceil_log2` the smallest k with 2^k ≥ x. -/
def Obligations.CeilLog2IsLeastPower : Prop :=
  ∀ x : Nat, 1 ≤ x →
    2 ^ msb x ≤ x ∧ (∀ k, 2 ^ k ≤ x → k ≤ msb x) ∧
    x ≤ 2 ^ ceilLog2 x ∧ (∀ k, x ≤ 2 ^ k → ceilLog2 x ≤ k) ∧
    ceilLog2 x = if x = 2 ^ msb x then msb x else msb x + 1

/-- R132: the class of a length is the smallest one whose block size holds it, and there is none for 0 and past 65536. -/
def Obligations.ClassSelectorRoundsUp : Prop :=
  (∀ len, 1 ≤ len → len ≤ 65536 → ∃ c, classOf len = some c ∧ c.toNat = ceilLog2 len - 12 ∧
    len ≤ 2 ^ (12 + c.toNat) ∧ ∀ d : BlockClass, len ≤ 2 ^ (12 + d.toNat) → c.toNat ≤ d.toNat) ∧
  classOf 0 = none ∧ ∀ len, 65536 < len → classOf len = none

/-- R172, R175: the gain threshold and the effective soft limit, a signed integer below the capacity; a limit that is not
positive is exceeded by every parse. -/
def Obligations.GainAndSoftLimit : Prop :=
  (∀ (R : Nat → Byte) (c : BlockClass) (q fin : Nat) (P : List ParseRecord), validParse R c fin q P = true →
    4 ≤ (emitBlock c R q P).length) ∧
  ∀ soft inLen outCap : Nat,
    gainThreshold inLen = max 64 (inLen / 64) ∧
    (∀ d : Int, d = (min inLen outCap : Nat) - (gainThreshold inLen : Nat) →
      ((soft = 0 ∨ d < soft) → effectiveSoftLimit soft inLen outCap (gainThreshold inLen) = d) ∧
      (¬(soft = 0 ∨ d < soft) → effectiveSoftLimit soft inLen outCap (gainThreshold inLen) = soft)) ∧
    effectiveSoftLimit soft inLen outCap (gainThreshold inLen) < outCap

/-- R142, R143: forward extension gives the longest common run that stays below the end; backward extension keeps the
offset, stays at or above the literal start, and stops only where it must. -/
def Obligations.MatchExtensionIsMaximal : Prop :=
  (∀ (R : Nat → Byte) (c p fin : Nat), p + 4 ≤ fin → same4 R c p = true →
    4 ≤ matchLen R c p fin ∧ p + matchLen R c p fin ≤ fin ∧
    (∀ j, j < matchLen R c p fin → R (p + j) = R (c + j)) ∧
    (p + matchLen R c p fin < fin → R (p + matchLen R c p fin) ≠ R (c + matchLen R c p fin))) ∧
  (∀ (R : Nat → Byte) (c p lit : Nat), c < p → lit ≤ p →
    ∃ k, backExtend R lit c p = (c - k, p - k) ∧ k ≤ c ∧ lit + k ≤ p ∧
      (∀ j, j < k → R (p - 1 - j) = R (c - 1 - j)) ∧
      (k < c → lit + k < p → R (p - 1 - k) ≠ R (c - 1 - k)))

/-- R186: the worst-case bound is the size of the all-literal parse, and no valid parse of a non-delta input exceeds
it. -/
def Obligations.WorstCaseBoundsEveryParse : Prop :=
  ∀ (R : Nat → Byte) (c : BlockClass) (len : Nat),
    wcb len c = 4 + len + (if len < mask (classParams c).nrLog2 then 0
      else (len - mask (classParams c).nrLog2) / 255 + 1) ∧
    (emitBlock c R 0 (literalParse 0 len)).length = wcb len c ∧
    ∀ P, validParse R c len 0 P = true → (emitBlock c R 0 P).length ≤ wcb len c

/-! ## Commands -/

/-- R91: an illegal opcode, and a delta opcode where the delta commands are absent, is accepted and completes at once with
FAILED and BAD_OPCODE, with no memory access. -/
def Obligations.IllegalCommandFailsAtOnce : Prop :=
  ∀ s : State,
    (∃ t, exec .illegalOp0 s = .next t ∧ EndedAtOnce s t 0 0xFFFFFFFF 0x04) ∧
    (∀ lo : BitVec 1, ∃ t, exec (.illegalOp67 lo) s = .next t ∧ EndedAtOnce s t (3#3 ++ lo) 0xFFFFFFFF 0x04) ∧
    (∀ lo : BitVec 3, ∃ t, exec (.illegalOp8F lo) s = .next t ∧ EndedAtOnce s t (1#1 ++ lo) 0xFFFFFFFF 0x04) ∧
    (s.params.deltaPresent = false →
      (∃ t, exec .updateDeltaState s = .next t ∧ EndedAtOnce s t 3 0xFFFFFFFF 0x04) ∧
      (∃ t, exec .encodeDelta s = .next t ∧ EndedAtOnce s t 4 0xFFFFFFFF 0x04) ∧
      (∃ t, exec .decodeDelta s = .next t ∧ EndedAtOnce s t 5 0xFFFFFFFF 0x04))

/-- R171: the argument checks of ENCODE, in their order; the first that fails decides the result, and none writes
memory. -/
def Obligations.EncodeArgumentChecks : Prop :=
  ∀ (s : State) (e : Engine), e = s.latched 1 →
    ((e.stateAddr = 0 ∨ e.inAddr = 0 ∨ e.outAddr = 0) →
      ∃ t, exec .encode s = .next t ∧ EndedAtOnce s t 1 0xFFFFFFFF 0x01) ∧
    (e.stateAddr ≠ 0 → e.inAddr ≠ 0 → e.outAddr ≠ 0 → (e.inLen = 0 ∨ e.outCap = 0) →
      ∃ t, exec .encode s = .next t ∧ EndedAtOnce s t 1 0xFFFFFFFF 0x02) ∧
    (e.stateAddr ≠ 0 → e.inAddr ≠ 0 → e.outAddr ≠ 0 → e.inLen ≠ 0 → e.outCap ≠ 0 →
      (2 ^ 64 < e.inAddr.toNat + e.inLen.toNat ∨ 2 ^ 64 < e.outAddr.toNat + e.outCap.toNat ∨
        2 ^ 64 < e.stateAddr.toNat + 8192) →
      ∃ t, exec .encode s = .next t ∧ EndedAtOnce s t 1 0xFFFFFFFF 0x03)

/-- R201, R206: the argument checks of UPDATE_DELTA_STATE and of ENCODE_DELTA, in their order; none writes memory. -/
def Obligations.DeltaArgumentChecks : Prop :=
  (∀ (s : State) (e : Engine), e = s.latched 3 → s.params.deltaPresent = true →
    ((e.stateAddr = 0 ∨ (0 < e.dictLen.toNat ∧ e.dictAddr = 0)) →
      ∃ t, exec .updateDeltaState s = .next t ∧ EndedAtOnce s t 3 0xFFFFFFFF 0x01) ∧
    (e.stateAddr ≠ 0 → (e.dictLen.toNat = 0 ∨ e.dictAddr ≠ 0) →
      (65536 < e.dictLen.toNat ∨ 2 ^ 64 < e.dictAddr.toNat + e.dictLen.toNat ∨
        2 ^ 64 < e.stateAddr.toNat + 8192) →
      ∃ t, exec .updateDeltaState s = .next t ∧ EndedAtOnce s t 3 0xFFFFFFFF 0x03)) ∧
  (∀ (s : State) (e : Engine), e = s.latched 4 → s.params.deltaPresent = true →
    ((e.stateAddr = 0 ∨ e.inAddr = 0 ∨ e.outAddr = 0 ∨ (0 < e.dictLen.toNat ∧ e.dictAddr = 0)) →
      ∃ t, exec .encodeDelta s = .next t ∧ EndedAtOnce s t 4 0xFFFFFFFF 0x01) ∧
    (e.stateAddr ≠ 0 → e.inAddr ≠ 0 → e.outAddr ≠ 0 → (e.dictLen.toNat = 0 ∨ e.dictAddr ≠ 0) →
      (e.inLen = 0 ∨ e.outCap = 0) →
      ∃ t, exec .encodeDelta s = .next t ∧ EndedAtOnce s t 4 0xFFFFFFFF 0x02) ∧
    (e.stateAddr ≠ 0 → e.inAddr ≠ 0 → e.outAddr ≠ 0 → (e.dictLen.toNat = 0 ∨ e.dictAddr ≠ 0) →
      e.inLen ≠ 0 → e.outCap ≠ 0 →
      (2 ^ 64 < e.inAddr.toNat + e.inLen.toNat ∨ 2 ^ 64 < e.outAddr.toNat + e.outCap.toNat ∨
        2 ^ 64 < e.stateAddr.toNat + 8192 ∨ 2 ^ 64 < e.dictAddr.toNat + e.dictLen.toNat) →
      ∃ t, exec .encodeDelta s = .next t ∧ EndedAtOnce s t 4 0xFFFFFFFF 0x03))

/-- R231, R260: the argument checks of DECODE and of DECODE_DELTA, in their order; none writes memory. -/
def Obligations.DecodeArgumentChecks : Prop :=
  (∀ (s : State) (e : Engine), e = s.latched 2 →
    ((e.inAddr = 0 ∨ e.outAddr = 0) →
      ∃ t, exec .decode s = .next t ∧ EndedAtOnce s t 2 0xFFFFFFFF 0x01) ∧
    (e.inAddr ≠ 0 → e.outAddr ≠ 0 → (e.inLen.toNat ≤ 4 ∨ e.outCap = 0) →
      ∃ t, exec .decode s = .next t ∧ EndedAtOnce s t 2 0xFFFFFFFF 0x02) ∧
    (e.inAddr ≠ 0 → e.outAddr ≠ 0 → 4 < e.inLen.toNat → e.outCap ≠ 0 →
      (2 ^ 64 < e.inAddr.toNat + e.inLen.toNat ∨ 2 ^ 64 < e.outAddr.toNat + e.outCap.toNat) →
      ∃ t, exec .decode s = .next t ∧ EndedAtOnce s t 2 0xFFFFFFFF 0x03)) ∧
  (∀ (s : State) (e : Engine), e = s.latched 5 → s.params.deltaPresent = true →
    ((e.inAddr = 0 ∨ e.outAddr = 0 ∨ (0 < e.dictLen.toNat ∧ e.dictAddr = 0)) →
      ∃ t, exec .decodeDelta s = .next t ∧ EndedAtOnce s t 5 0xFFFFFFFF 0x01) ∧
    (e.inAddr ≠ 0 → e.outAddr ≠ 0 → (e.dictLen.toNat = 0 ∨ e.dictAddr ≠ 0) →
      (e.inLen.toNat ≤ 4 ∨ e.outCap = 0) →
      ∃ t, exec .decodeDelta s = .next t ∧ EndedAtOnce s t 5 0xFFFFFFFF 0x02) ∧
    (e.inAddr ≠ 0 → e.outAddr ≠ 0 → (e.dictLen.toNat = 0 ∨ e.dictAddr ≠ 0) → 4 < e.inLen.toNat → e.outCap ≠ 0 →
      (2 ^ 64 < e.inAddr.toNat + e.inLen.toNat ∨ 2 ^ 64 < e.outAddr.toNat + e.outCap.toNat ∨
        2 ^ 64 < e.dictAddr.toNat + e.dictLen.toNat ∨
        (0 < e.dictLen.toNat ∧ e.outAddr.toNat ≠ e.dictAddr.toNat + e.dictLen.toNat)) →
      ∃ t, exec .decodeDelta s = .next t ∧ EndedAtOnce s t 5 0xFFFFFFFF 0x03))

/-- R173, R174, R205: behind the argument checks, an input of at most 64 bytes (the floor trips exactly there) gives 0
with ENC_TOO_SMALL; a longer one past 65536 bytes (for ENCODE_DELTA: dictionary and input together, or a dictionary that
is not adjacent) gives ARG_RANGE. No memory access. -/
def Obligations.EncodeFloorAndRange : Prop :=
  (∀ len : Nat, 1 ≤ len → (len ≤ gainThreshold len ↔ len ≤ 64)) ∧
  (∀ (s : State) (e : Engine), e = s.latched 1 → encodeArgs e = none →
    (e.inLen.toNat ≤ 64 → ∃ t, exec .encode s = .next t ∧ EndedAtOnce s t 1 0 0x10) ∧
    (65536 < e.inLen.toNat → ∃ t, exec .encode s = .next t ∧ EndedAtOnce s t 1 0xFFFFFFFF 0x03)) ∧
  (∀ (s : State) (e : Engine), e = s.latched 4 → s.params.deltaPresent = true → encodeDeltaArgs e = none →
    (e.inLen.toNat ≤ 64 → ∃ t, exec .encodeDelta s = .next t ∧ EndedAtOnce s t 4 0 0x10) ∧
    (64 < e.inLen.toNat →
      (65536 < e.dictLen.toNat + e.inLen.toNat ∨
        (0 < e.dictLen.toNat ∧ e.inAddr.toNat ≠ e.dictAddr.toNat + e.dictLen.toNat)) →
      ∃ t, exec .encodeDelta s = .next t ∧ EndedAtOnce s t 4 0xFFFFFFFF 0x03))

/-- ENCODE starts (R170 to R177): for legal arguments and a length of 65 to 65536 the scan begins, with the class byte at
OUT[0], the table cleared, and nothing else in memory changed. -/
def Obligations.EncodeStartsItsScan : Prop :=
  ∀ (s : State) (e : Engine), e = s.latched 1 →
    e.stateAddr ≠ 0 → e.inAddr ≠ 0 → e.outAddr ≠ 0 → e.outCap ≠ 0 →
    e.inAddr.toNat + e.inLen.toNat ≤ 2 ^ 64 → e.outAddr.toNat + e.outCap.toNat ≤ 2 ^ 64 →
    e.stateAddr.toNat + 8192 ≤ 2 ^ 64 → 64 < e.inLen.toNat → e.inLen.toNat ≤ 65536 → LaunchOk s.params e →
    ∃ t c, exec .encode s = .next t ∧ classOf e.inLen.toNat = some c ∧
      t.regs = s.regs.accepted 1 ∧ SameArgs e t.eng ∧ t.eng.phase = .run ∧ t.eng.stage = .scan ∧
      t.eng.cls = c ∧ t.eng.widthsOk ∧ t.eng.gain = max 64 (e.inLen.toNat / 64) ∧
      t.eng.softEff = effectiveSoftLimit e.soft.toNat e.inLen.toNat e.outCap.toNat t.eng.gain ∧
      t.eng.p = 0 ∧ t.eng.lit = 0 ∧ t.eng.ctr = 2 ∧ t.eng.parse = [] ∧ SameSurroundings s t ∧ t.draws = s.draws ∧
      ∀ a, t.mem.read a = if spanHolds e.stateSpan a then 0 else
        if a = e.outAddr.toNat then BitVec.ofNat 8 c.toNat else s.mem.read a

/-- ENCODE_DELTA starts (R205, R207): the class is that of the dictionary and the input together, the scan begins behind
the dictionary, the class byte stands at OUT[0], and nothing else in memory, the table included, has changed. -/
def Obligations.EncodeDeltaStartsItsScan : Prop :=
  ∀ (s : State) (e : Engine), e = s.latched 4 → s.params.deltaPresent = true →
    e.stateAddr ≠ 0 → e.inAddr ≠ 0 → e.outAddr ≠ 0 → (e.dictLen.toNat = 0 ∨ e.dictAddr ≠ 0) → e.outCap ≠ 0 →
    e.inAddr.toNat + e.inLen.toNat ≤ 2 ^ 64 → e.outAddr.toNat + e.outCap.toNat ≤ 2 ^ 64 →
    e.stateAddr.toNat + 8192 ≤ 2 ^ 64 → e.dictAddr.toNat + e.dictLen.toNat ≤ 2 ^ 64 → 64 < e.inLen.toNat →
    e.dictLen.toNat + e.inLen.toNat ≤ 65536 →
    (e.dictLen.toNat = 0 ∨ e.inAddr.toNat = e.dictAddr.toNat + e.dictLen.toNat) → LaunchOk s.params e →
    ∃ t c, exec .encodeDelta s = .next t ∧ classOf (e.dictLen.toNat + e.inLen.toNat) = some c ∧
      t.regs = s.regs.accepted 4 ∧ SameArgs e t.eng ∧ t.eng.phase = .run ∧ t.eng.stage = .scan ∧
      t.eng.cls = c ∧ t.eng.widthsOk ∧ t.eng.gain = max 64 (e.inLen.toNat / 64) ∧
      t.eng.softEff = effectiveSoftLimit e.soft.toNat e.inLen.toNat e.outCap.toNat t.eng.gain ∧
      t.eng.p = e.dictLen.toNat ∧ t.eng.lit = e.dictLen.toNat ∧ t.eng.ctr = 2 ∧ t.eng.parse = [] ∧
      SameSurroundings s t ∧ t.draws = s.draws ∧
      ∀ a, t.mem.read a = if a = e.outAddr.toNat then BitVec.ofNat 8 c.toNat else s.mem.read a

/-- UPDATE_DELTA_STATE starts (R200): the table is cleared and the scan of the dictionary begins at 0. -/
def Obligations.UpdateStartsItsScan : Prop :=
  ∀ (s : State) (e : Engine), e = s.latched 3 → s.params.deltaPresent = true →
    e.stateAddr ≠ 0 → (e.dictLen.toNat = 0 ∨ e.dictAddr ≠ 0) → e.dictLen.toNat ≤ 65536 →
    e.dictAddr.toNat + e.dictLen.toNat ≤ 2 ^ 64 → e.stateAddr.toNat + 8192 ≤ 2 ^ 64 → LaunchOk s.params e →
    ∃ t, exec .updateDeltaState s = .next t ∧ t.regs = s.regs.accepted 3 ∧ SameArgs e t.eng ∧
      t.eng.phase = .run ∧ t.eng.stage = .scan ∧ t.eng.p = 0 ∧ t.eng.lit = 0 ∧ t.eng.ctr = 2 ∧ t.eng.parse = [] ∧
      SameSurroundings s t ∧ t.draws = s.draws ∧
      ∀ a, t.mem.read a = if spanHolds e.stateSpan a then 0 else s.mem.read a

/-- DECODE and DECODE_DELTA start (R230, R259): for legal arguments the engine runs and waits for the class byte; memory
is as before (that the class byte is a step of its own is the model's choice: log entry 8). -/
def Obligations.DecodeStartsAtClassByte : Prop :=
  (∀ (s : State) (e : Engine), e = s.latched 2 →
    e.inAddr ≠ 0 → e.outAddr ≠ 0 → 4 < e.inLen.toNat → e.outCap ≠ 0 →
    e.inAddr.toNat + e.inLen.toNat ≤ 2 ^ 64 → e.outAddr.toNat + e.outCap.toNat ≤ 2 ^ 64 → LaunchOk s.params e →
    ∃ t, exec .decode s = .next t ∧ t.regs = s.regs.accepted 2 ∧ SameArgs e t.eng ∧ t.eng.avail = 0 ∧
      t.eng.phase = .run ∧ t.eng.stage = .classByte ∧ SameMemory s t ∧ SameSurroundings s t ∧ t.draws = s.draws) ∧
  (∀ (s : State) (e : Engine), e = s.latched 5 → s.params.deltaPresent = true →
    e.inAddr ≠ 0 → e.outAddr ≠ 0 → (e.dictLen.toNat = 0 ∨ e.dictAddr ≠ 0) → 4 < e.inLen.toNat → e.outCap ≠ 0 →
    e.inAddr.toNat + e.inLen.toNat ≤ 2 ^ 64 → e.outAddr.toNat + e.outCap.toNat ≤ 2 ^ 64 →
    e.dictAddr.toNat + e.dictLen.toNat ≤ 2 ^ 64 →
    (e.dictLen.toNat = 0 ∨ e.outAddr.toNat = e.dictAddr.toNat + e.dictLen.toNat) → LaunchOk s.params e →
    ∃ t, exec .decodeDelta s = .next t ∧ t.regs = s.regs.accepted 5 ∧ SameArgs e t.eng ∧
      t.eng.avail = e.dictLen.toNat ∧ t.eng.phase = .run ∧ t.eng.stage = .classByte ∧ SameMemory s t ∧
      SameSurroundings s t ∧ t.draws = s.draws)

/-- R67 (c), R330, R331: a launch that would go on to access memory is refused where two regions overlap, or the state
buffer is short, or a region is not ordinary memory. -/
def Obligations.BrokenLaunchIsRefused : Prop :=
  ∀ (s : State) (e : Engine),
    (e = s.latched 2 → decodeArgs e = none → ¬LaunchOk s.params e → ∃ r, exec .decode s = .refused r) ∧
    (e = s.latched 5 → s.params.deltaPresent = true → decodeDeltaArgs e = none → ¬LaunchOk s.params e →
      ∃ r, exec .decodeDelta s = .refused r) ∧
    (e = s.latched 3 → s.params.deltaPresent = true → updateArgs e = none → ¬LaunchOk s.params e →
      ∃ r, exec .updateDeltaState s = .refused r) ∧
    (e = s.latched 1 → encodeArgs e = none → 64 < e.inLen.toNat → e.inLen.toNat ≤ 65536 → ¬LaunchOk s.params e →
      ∃ r, exec .encode s = .refused r) ∧
    (e = s.latched 4 → s.params.deltaPresent = true → encodeDeltaArgs e = none → 64 < e.inLen.toNat →
      encodeDeltaRange e = none → ¬LaunchOk s.params e → ∃ r, exec .encodeDelta s = .refused r)

/-- R42, R43: whatever command is written, a next state has the arguments latched, the argument registers and IRQ_EN as
they were, CMD at the opcode, and is either running (BUSY, results 0, IRQ_PEND as it was) or complete (DONE, DONE_PEND
set); and only bytes of the regions the command may write have changed. Of a command that runs, the latched arguments are
R42's; that the idle engine of a command that has completed keeps them is the model's choice, not the spec's (10_state.md
R40 and R47 leave an idle engine's copies unspecified): log entry 1. -/
def Obligations.CommandAcceptedOrCompleted : Prop :=
  ∀ (s t : State) (w : Reg), exec (decodeCmd w) s = .next t →
    SameArgs (s.latched (w.extractLsb' 0 4)) t.eng ∧
    ((t.eng.phase = .run ∧ t.regs = s.regs.accepted (w.extractLsb' 0 4)) ∨
      ∃ result cause, EndedAtOnce s t (w.extractLsb' 0 4) result cause) ∧
    SameOutside t.eng.written s t ∧ SameSurroundings s t

/-! ## The decoder -/

/-- R93, R232: a legal class byte selects the field widths and starts the record loop behind it; every other class byte
fails the decode with DEC_BAD_CLASS at position 0. -/
def Obligations.ClassByteSelectsOrFails : Prop :=
  (∀ (s : State) (i : Instr) (c : BlockClass), i.format = .classByte → encode i = [BitVec.ofNat 8 c.toNat] →
    ∃ t, exec i s = .next t ∧ StreamGoesOn s t { s.eng with
      cls := c, nrLog2 := (classParams c).nrLog2, offLog2 := (classParams c).offLog2,
      rLog2 := (classParams c).rLog2, inPos := 1, outPos := 0, stage := .tag }) ∧
  (∀ (s : State) (i : Instr) (b : Byte), i.format = .classByte → encode i = [b] → 5 ≤ b.toNat →
    ∃ t, exec i s = .next t ∧ DecodeFailed s t 0xFFFFFFFF 0x20 0)

/-- A tag whose nr_field is at its maximum opens the literal-length chain (R236), for END, BAD_END and REP of every
class (that a chain is read one byte per step is the model's choice: log entry 8). -/
def Obligations.FullLiteralFieldOpensChain : Prop :=
  ∀ (s : State) (i : Instr) (nf rf off : Nat), tagOf s i nf rf off → nf = mask (classParams s.eng.cls).nrLog2 →
    ∃ t, exec i s = .next t ∧ StreamGoesOn s t { s.eng.pastTag nf rf off with stage := .nrChain }

/-- Once the number of literals is known and lies in the rest of IN and in the rest of the capacity, the record goes on to
its literal bytes (R236); nothing is written yet (that they follow one per step is the model's choice: log entry 8). -/
def Obligations.KnownLiteralsAreAwaited : Prop :=
  ∀ (s : State) (i : Instr) (e : Engine), LiteralsKnown s i e → 0 < e.recN →
    e.recN ≤ e.inLen.toNat - e.inPos → e.recN ≤ e.capEff - e.outPos →
    ∃ t, exec i s = .next t ∧ StreamGoesOn s t { e with stage := .literal }

/-- R237: a literal run that passes the end of IN fails with EXH and DEC_LIT_IN, one that passes the capacity with FAILED
and DEC_LIT_OUT, both at the first literal byte; nothing outside OUT changes. -/
def Obligations.LiteralBoundsFail : Prop :=
  ∀ (s : State) (i : Instr) (e : Engine), LiteralsKnown s i e →
    (e.inLen.toNat - e.inPos < e.recN →
      ∃ t, exec i s = .next t ∧ DecodeFailed s t (exhCode s.params) 0x23 e.inPos) ∧
    (e.recN ≤ e.inLen.toNat - e.inPos → e.capEff - e.outPos < e.recN →
      ∃ t, exec i s = .next t ∧ DecodeFailed s t 0xFFFFFFFF 0x24 e.inPos)

/-- R140: a literal byte that is not its run's last goes to OUT at the output position, and changes no other byte. -/
def Obligations.LiteralByteIsCopied : Prop :=
  ∀ (s : State) (v : Byte), 1 < s.eng.recN →
    ∃ t, exec (.lit v) s = .next t ∧ t.regs = s.regs ∧
      t.eng = { s.eng with inPos := s.eng.inPos + 1, outPos := s.eng.outPos + 1, recN := s.eng.recN - 1 } ∧
      SameSurroundings s t ∧ t.draws = s.draws ∧
      ∀ a, t.mem.read a = if a = byteAddr s.eng.outAddr s.eng.outPos then v else s.mem.read a

/-- R136: a byte of 255 adds 255 to the length its chain extends and the chain goes on (one byte per step: the model's choice,
log entry 8). -/
def Obligations.EscapeContinueAdds255 : Prop :=
  ∀ s : State,
    (s.eng.stage = .nrChain → ∃ t, exec .escCont s = .next t ∧
      StreamGoesOn s t { s.eng with inPos := s.eng.inPos + 1, recN := s.eng.recN + 255 }) ∧
    (s.eng.stage = .rChain → ∃ t, exec .escCont s = .next t ∧
      StreamGoesOn s t { s.eng with inPos := s.eng.inPos + 1, recM := s.eng.recM + 255 })

/-- When the literals of a REP are done and its r_field is at its maximum, the repeat-length chain opens (R240); only the
last literal byte has been written (that a chain is read one byte per step is the model's choice: log entry 8). -/
def Obligations.FullRepeatFieldOpensChain : Prop :=
  ∀ (s : State) (i : Instr) (e : Engine) (m : Memory), LiteralsDone s i e m → e.recOff ≠ 0 →
    e.recR = mask (classParams s.eng.cls).rLog2 →
    ∃ t, exec i s = .next t ∧ t.regs = s.regs ∧ t.eng = { e with stage := .rChain } ∧ SameSurroundings s t ∧
      t.draws = s.draws ∧ ∀ a, t.mem.read a = m.read a

/-- R141, R240: a repeat that passes its checks is copied: every byte of it equals the byte `off` before it (so a repeat
longer than its offset replicates), every other byte is as before, and the record loop goes on. -/
def Obligations.RepeatCopyReplicates : Prop :=
  ∀ (s : State) (i : Instr) (e : Engine) (m : Memory), RepeatKnown s i e m →
    e.recOff ≤ e.avail + e.outPos → e.recM ≤ e.capEff - e.outPos →
    e.outAddr.toNat + e.outCap.toNat ≤ 2 ^ 64 → e.avail ≤ e.outAddr.toNat →
    ∃ t, exec i s = .next t ∧ t.regs = s.regs ∧
      t.eng = { e with outPos := e.outPos + e.recM, stage := .tag } ∧ SameSurroundings s t ∧ t.draws = s.draws ∧
      (∀ j, j < e.recM → t.mem.read (e.outAddr.toNat + e.outPos + j) =
        t.mem.read (e.outAddr.toNat + e.outPos + j - e.recOff)) ∧
      ∀ a, ¬(e.outAddr.toNat + e.outPos ≤ a ∧ a < e.outAddr.toNat + e.outPos + e.recM) → t.mem.read a = m.read a

/-- R241, R242: an offset that reaches before OUT (or DICT in a delta decode) fails with DEC_OFFSET; a repeat past the
capacity fails with DEC_REP_OUT; both at the cursor behind the record. -/
def Obligations.RepeatChecksFail : Prop :=
  ∀ (s : State) (i : Instr) (e : Engine) (m : Memory), RepeatKnown s i e m → LiteralHasRoom s i →
    (e.avail + e.outPos < e.recOff →
      ∃ t, exec i s = .next t ∧ DecodeFailed s t 0xFFFFFFFF 0x27 e.inPos) ∧
    (e.recOff ≤ e.avail + e.outPos → e.capEff - e.outPos < e.recM →
      ∃ t, exec i s = .next t ∧ DecodeFailed s t 0xFFFFFFFF 0x28 e.inPos)

/-- R245: behind the literals of a terminal record, a non-zero r_field fails with DEC_TERM_R, then input left over fails
with DEC_TERM_TRAIL, else the command finishes with the output position. -/
def Obligations.TerminalRecordEnds : Prop :=
  ∀ (s : State) (i : Instr) (e : Engine) (m : Memory), LiteralsDone s i e m → e.recOff = 0 →
    LiteralHasRoom s i →
    (e.recR ≠ 0 → ∃ t, exec i s = .next t ∧ DecodeFailed s t 0xFFFFFFFF 0x25 e.inPos) ∧
    (e.recR = 0 → e.inPos ≠ e.inLen.toNat →
      ∃ t, exec i s = .next t ∧ DecodeFailed s t 0xFFFFFFFF 0x26 e.inPos) ∧
    (e.recR = 0 → e.inPos = e.inLen.toNat →
      ∃ t, exec i s = .next t ∧ DecodeSucceeded s t m e.outPos)

/-- R234: at a record boundary at the end of IN the command completes with the bytes produced. -/
def Obligations.EndAtRecordBoundaryFinishes : Prop :=
  ∀ s : State, Running s → s.eng.stage = .tag → s.eng.inPos = s.eng.inLen.toNat →
    ∃ t, step s = .next t ∧ DecodeSucceeded s t s.mem s.eng.outPos

/-- R235, R236, R240, R247: with 1 or 2 bytes left where a tag must start the decode fails with DEC_TRUNC_TAG at the
cursor; with none left inside an escape chain, with DEC_TRUNC_ESC at the end of IN; the status is EXH. -/
def Obligations.ExhaustedInputFails : Prop :=
  ∀ s : State, Running s →
    (s.eng.stage = .tag → s.eng.inPos < s.eng.inLen.toNat → s.eng.inLen.toNat < s.eng.inPos + 3 →
      ∃ t, step s = .next t ∧ DecodeFailed s t (exhCode s.params) 0x21 s.eng.inPos) ∧
    ((s.eng.stage = .nrChain ∨ s.eng.stage = .rChain) → s.eng.inPos = s.eng.inLen.toNat →
      ∃ t, step s = .next t ∧ DecodeFailed s t (exhCode s.params) 0x22 s.eng.inPos)

/-! ## The step -/

/-- A step runs the decoded instruction (one per step: the model's choice, log entry 8): where the bytes of IN at the cursor decode, in the format the stage expects, to
`i`, the step of a running decoder is exec of `i`. -/
def Obligations.StepRunsStreamInstruction : Prop :=
  ∀ (s : State) (f : Format) (i : Instr) (rest : List Byte), Running s → s.eng.expects = some f →
    s.eng.inPos + f.size ≤ s.eng.inLen.toNat →
    decode f (s.mem.readBytes (s.eng.inAddr + BitVec.ofNat 64 s.eng.inPos) f.size) = .ok (i, rest) →
    step s = exec i s

/-- A step runs the written command word (the host's events stand in State as the model's choice, log entry 5): where the
host's due event is a 32-bit write to CMD and the block is not busy,
the step is exec of the word's instruction with the event gone; while it is busy the write does nothing (R42). -/
def Obligations.StepRunsCommandWord : Prop :=
  ∀ (s : State) (w : Reg) (rest : List HostEvent),
    s.host = ⟨0, false, .regWrite (s.params.regBase + 12) 4 w⟩ :: rest →
    (s.busy = false → step s = exec (decodeCmd w) { s with host := rest }) ∧
    (s.busy = true → step s = .next { s with host := rest })

/-! ## The encoder -/

/-- R191 to R195: a probe of the reference finder reads entry h = hash6(R, p), stores p there, and takes the candidate
exactly where it is below p and its 4 bytes are equal: it is extended backward and forward, recorded, and the scan goes
on behind it; else the scan moves on by `ctr >> 1`. Nothing else in memory changes. -/
def Obligations.ReferenceProbe : Prop :=
  ∀ (s : State) (h c : Nat), Running s → EngineInv s → s.eng.stage = .scan → s.params.matchFinder = .reference →
    s.eng.p + 6 ≤ s.eng.scanEnd → h = hash6 s.params.hashMul s.scanByte s.eng.p → c = s.tableEntry h →
    ∃ t, step s = .next t ∧ t.regs = s.regs ∧ SameSurroundings s t ∧ t.draws = s.draws ∧ t.tableEntry h = s.eng.p ∧
      SameOutside [⟨s.eng.stateAddr.toNat + 2 * h, 2⟩] s t ∧
      (c < s.eng.p ∧ (∀ j, j < 4 → s.scanByte (c + j) = s.scanByte (s.eng.p + j)) →
        ∃ c' p' m, (c', p') = backExtend s.scanByte s.eng.lit c s.eng.p ∧ m = matchLen s.scanByte c' p' s.eng.scanEnd ∧
          t.eng = { s.eng with
            parse := s.eng.parse ++ [⟨p' - s.eng.lit, p' - c', m⟩], p := p' + m, lit := p' + m, ctr := 2 }) ∧
      (¬(c < s.eng.p ∧ ∀ j, j < 4 → s.scanByte (c + j) = s.scanByte (s.eng.p + j)) →
        t.eng = { s.eng with p := s.eng.p + s.eng.ctr / 2, ctr := s.eng.ctr + 1 })

/-- R196, R200: where no probe position is left, the rest is the terminal record's literal run and the block is emitted
next; UPDATE_DELTA_STATE instead discards the parse and finishes with 0. Memory is as before. -/
def Obligations.ReferenceScanEnds : Prop :=
  ∀ s : State, Running s → s.eng.stage = .scan → s.params.matchFinder = .reference →
    s.eng.scanEnd < s.eng.p + 6 →
    ∃ t, step s = .next t ∧ SameMemory s t ∧ SameSurroundings s t ∧
      (s.eng.op = 3 → EndedWith s t 0 0 0) ∧
      (s.eng.op ≠ 3 → t.regs = s.regs ∧ t.eng = { s.eng with
        parse := s.eng.parse ++ [⟨s.eng.scanEnd - s.eng.lit, 0, 0⟩], stage := .emit })

/-- R179, R185, R200: under ANY the parse is a valid one, and it is the drawn proposal wherever that is valid;
UPDATE_DELTA_STATE finishes with 0; nothing outside STATE changes. -/
def Obligations.AnyParseIsValid : Prop :=
  ∀ s : State, Running s → s.eng.stage = .scan → s.params.matchFinder = .any → s.eng.scanStart ≤ s.eng.scanEnd →
    ∃ t, step s = .next t ∧ SameOutside [s.eng.stateSpan] s t ∧ SameSurroundings s t ∧
      (s.eng.op = 3 → EndedWith s t 0 0 0) ∧
      (s.eng.op ≠ 3 → t.regs = s.regs ∧
        ∃ P, t.eng = { s.eng with parse := P, stage := .emit } ∧
          validParse s.scanByte s.eng.cls s.eng.scanEnd s.eng.scanStart P = true ∧
          ∃ Q, Q = Config.freeParse s.draws s.eng.cls (slice s.scanByte 0 s.eng.scanEnd) s.eng.scanStart ∧
            P = if validParse s.scanByte s.eng.cls s.eng.scanEnd s.eng.scanStart Q then Q
              else literalParse s.eng.scanStart s.eng.scanEnd)

/-- R180, R187, R189: with the block's size S, the result is S and the block stands in OUT where S fits the soft limit;
0 with ENC_SOFT_LIMIT where it fits the capacity only; 0 with ENC_SOFT_LIMIT or WRITE_ERROR with ENC_WRITE where it fits
neither. Nothing outside OUT changes. -/
def Obligations.EmitFollowsTheEnvelope : Prop :=
  ∀ (s : State) (S : Nat), Running s → EngineInv s → s.eng.stage = .emit → S = s.block.length →
    ∃ t, step s = .next t ∧ SameOutside [s.eng.outSpan] s t ∧
      ((S : Int) ≤ s.eng.softEff → EndedWith s t (BitVec.ofNat 32 S) 0 0 ∧
        ∀ j, (hj : j < s.block.length) → t.mem.read (s.eng.outAddr.toNat + j) = s.block[j]) ∧
      (s.eng.softEff < S → S ≤ s.eng.outCap.toNat → ∃ pos, EndedWith s t 0 0x11 pos) ∧
      (s.eng.softEff < S → s.eng.outCap.toNat < S →
        ∃ pos, EndedWith s t 0 0x11 pos ∨ EndedWith s t 0xFFFFFFFD 0x12 pos)

/-- R334: an ENCODE whose capacity is at least the worst case does not return WRITE_ERROR. -/
def Obligations.HeadroomExcludesWriteError : Prop :=
  ∀ s t : State, Running s → EngineInv s → ParseInv s → s.eng.stage = .emit → s.eng.op = 1 →
    wcb s.eng.inLen.toNat s.eng.cls ≤ s.eng.outCap.toNat → step s = .next t →
    t.regs.result ≠ 0xFFFFFFFD ∧ (t.regs.result = BitVec.ofNat 32 s.block.length ∨ t.regs.result = 0)

/-! ## The host port, reset -/

/-- R21, R22: what a naturally aligned 32-bit read returns, register by register, and 0 for every offset that is not
listed; nothing else changes. -/
def Obligations.RegisterReadsAsListed : Prop :=
  ∀ (s : State) (off : Nat) (rest : List HostEvent), off < 256 → off % 4 = 0 →
    s.host = ⟨0, false, .regRead (s.params.regBase + BitVec.ofNat 64 off) 4⟩ :: rest →
    ∃ v, step s = .next { s with host := rest, busData := v } ∧
      (off = 0x00 → v = 0x4B345A4C) ∧
      (off = 0x04 → v = if s.params.deltaPresent then 0x00050C01 else 0x00050C00) ∧
      (off = 0x08 → v = 0x00002000) ∧ (off = 0x0C → v = s.regs.cmd) ∧ (off = 0x10 → v = s.regs.status) ∧
      (off = 0x14 → v = s.regs.result) ∧ (off = 0x18 → v = s.regs.cause) ∧ (off = 0x1C → v = s.regs.faultPos) ∧
      (off = 0x20 → v = s.regs.irqEn) ∧ (off = 0x24 → v = s.regs.irqPend) ∧ (off = 0x28 → v = s.regs.inLen) ∧
      (off = 0x2C → v = s.regs.outCap) ∧ (off = 0x30 → v = s.regs.softLimit) ∧ (off = 0x34 → v = s.regs.dictLen) ∧
      (off = 0x40 → v = s.regs.inAddrLo) ∧ (off = 0x44 → v = s.regs.inAddrHi) ∧
      (off = 0x48 → v = s.regs.outAddrLo) ∧ (off = 0x4C → v = s.regs.outAddrHi) ∧
      (off = 0x50 → v = s.regs.stateAddrLo) ∧ (off = 0x54 → v = s.regs.stateAddrHi) ∧
      (off = 0x58 → v = s.regs.dictAddrLo) ∧ (off = 0x5C → v = s.regs.dictAddrHi) ∧
      ((off = 0x38 ∨ off = 0x3C ∨ 0x60 ≤ off) → v = 0)

/-- R22, R332 (a): a naturally aligned 32-bit write at an offset other than CMD's is stored in its register alone, IRQ_EN
keeps bit 0 only, writing 1 to bit 0 of IRQ_PEND clears it, the read-only and the unlisted offsets ignore it; the running
command, memory and everything else are as before. -/
def Obligations.RegisterWriteStaysInItsRegister : Prop :=
  ∀ (s : State) (off : Nat) (v : Reg) (rest : List HostEvent), off < 256 → off % 4 = 0 → off ≠ 0x0C →
    s.host = ⟨0, false, .regWrite (s.params.regBase + BitVec.ofNat 64 off) 4 v⟩ :: rest →
    ∃ r, step s = .next { s with host := rest, regs := r } ∧
      (∀ other, other ≠ off → regRead s.params r other = regRead s.params s.regs other) ∧
      (off = 0x20 → regRead s.params r off = v &&& 1) ∧
      (off = 0x24 → regRead s.params r off = if v.getLsbD 0 then s.regs.irqPend &&& 0xFFFFFFFE else s.regs.irqPend) ∧
      ((0x28 ≤ off ∧ off ≤ 0x34 ∨ 0x40 ≤ off ∧ off ≤ 0x5C) → regRead s.params r off = v) ∧
      ((off < 0x20 ∨ off = 0x38 ∨ off = 0x3C ∨ 0x60 ≤ off) → r = s.regs)

/-- R21, I15: an access that reaches the register block, from its first byte or by a later one (it may start below
REG_BASE), and is not a naturally aligned 32-bit one in it, is refused; an access with no byte in it changes nothing
(that it is not this block's is the model's reading: log entry 15). -/
def Obligations.OddRegisterAccessIsRefused : Prop :=
  ∀ (s : State) (a : Addr) (width : Nat) (v : Reg) (rest : List HostEvent),
    (s.host = ⟨0, false, .regWrite a width v⟩ :: rest ∨ s.host = ⟨0, false, .regRead a width⟩ :: rest) →
    (((a - s.params.regBase).toNat < 256 ∨
        ∃ i, i < width ∧ (a + BitVec.ofNat 64 i - s.params.regBase).toNat < 256) →
      ¬(width = 4 ∧ (a - s.params.regBase).toNat < 256 ∧ (a - s.params.regBase).toNat % 4 = 0) →
      step s = .refused .registerAccess) ∧
    (256 ≤ (a - s.params.regBase).toNat →
      (∀ i, i < width → 256 ≤ (a + BitVec.ofNat 64 i - s.params.regBase).toNat) →
      step s = .next { s with host := rest })

/-- R290: the interrupt output is DONE_PEND and EN; a completion sets DONE_PEND whatever the result; writing 0 to
IRQ_PEND changes nothing, writing 1 clears DONE_PEND, and so does reset; EN does not affect DONE_PEND. -/
def Obligations.InterruptOutputFollowsPend : Prop :=
  ∀ (s : State) (result : Reg) (c : Cause) (pos v : Reg),
    (s.irq = true ↔ s.regs.irqPend.getLsbD 0 = true ∧ s.regs.irqEn.getLsbD 0 = true) ∧
    (s.complete result c pos).donePend = true ∧
    ((s.complete result c pos).irq = s.regs.irqEn.getLsbD 0) ∧
    (v.getLsbD 0 = false → regWrite s.regs 0x24 v = s.regs) ∧
    (v.getLsbD 0 = true → (s.writeRegister 0x24 v).donePend = false) ∧
    ((s.writeRegister 0x20 v).donePend = s.donePend) ∧
    ((s.writeRegister 0x20 v).irq = (s.donePend && v.getLsbD 0)) ∧
    s.hardReset.donePend = false

/-- R292: a host write to IRQ_PEND in the cycle in which the running command completes leaves DONE_PEND = 1. -/
def Obligations.CompletionWinsOverClear : Prop :=
  ∀ (s t : State) (v : Reg) (rest : List HostEvent), s.eng.phase = .run →
    s.host = ⟨0, true, .regWrite (s.params.regBase + 0x24) 4 v⟩ :: rest →
    step s = .next t → t.eng.phase = .idle → t.donePend = true ∧ t.done = true ∧ t.busy = false

/-- R67, R331: while a command runs, a write by the host or another bus master to a byte of its regions is refused;
outside them, or in an idle block, the byte is written. A read of a byte the command may write changes no memory; any
other read returns the byte. -/
def Obligations.HostMemoryAccess : Prop :=
  ∀ (s : State) (a : Addr) (v : Byte) (rest : List HostEvent),
    (s.host = ⟨0, false, .memWrite a v⟩ :: rest →
      (s.busy = true → (∃ r ∈ s.eng.regions, spanHolds r a.toNat = true) → step s = .refused .regionWritten) ∧
      ((s.busy = false ∨ ∀ r ∈ s.eng.regions, spanHolds r a.toNat = false) →
        ∃ t, step s = .next t ∧ t.regs = s.regs ∧ t.eng = s.eng ∧
          ∀ b, t.mem.read b = if b = a.toNat then v else s.mem.read b)) ∧
    (s.host = ⟨0, false, .memRead a⟩ :: rest →
      ∃ t, step s = .next t ∧ t.regs = s.regs ∧ t.eng = s.eng ∧ SameMemory s t ∧
        ((s.busy = false ∨ ∀ r ∈ s.eng.written, spanHolds r a.toNat = false) → t.memData = s.mem.read a.toNat))

/-- R320, R321: reset gives every register its listed value, the engine is IDLE and no completion is signalled; memory
changes only in an abandoned command's OUT and, for an encode command, STATE. -/
def Obligations.ResetGivesListedValues : Prop :=
  ∀ (s : State) (rest : List HostEvent), s.host = ⟨0, false, .reset⟩ :: rest →
    ∃ t, step s = .next t ∧ t.eng.phase = .idle ∧ t.irq = false ∧ t.donePend = false ∧
      (∀ off, regRead t.params t.regs off =
        if off = 0x00 then 0x4B345A4C
        else if off = 0x04 then (if s.params.deltaPresent then 0x00050C01 else 0x00050C00)
        else if off = 0x08 then 0x00002000 else 0) ∧
      (s.busy = false → SameMemory s t) ∧ (s.busy = true → SameOutside s.eng.written s t) ∧
      t.params = s.params ∧ t.host = rest

/-- R323, R332 (d): an idle block with no host event does nothing; its RESULT, CAUSE and FAULT_POS change only by an
accepted command or by reset. -/
def Obligations.IdleBlockHoldsItsResults : Prop :=
  (∀ s : State, s.eng.phase = .idle → s.host = [] → step s = .next s) ∧
  (∀ s t : State, s.eng.phase = .idle → step s = .next t →
    (t.regs.result ≠ s.regs.result ∨ t.regs.cause ≠ s.regs.cause ∨ t.regs.faultPos ≠ s.regs.faultPos) →
    ∃ e rest, s.host = e :: rest ∧ e.wait = 0 ∧
      (e.act = .reset ∨ ∃ a w, a = s.params.regBase + 0x0C ∧ e.act = .regWrite a 4 w ∧ s.busy = false))

/-! ## Invariants and headlines -/

/-- Every step keeps the canonical form of memory (the form is the model's choice: log entry 2). -/
def Obligations.StepKeepsMemoryCanonical : Prop :=
  ∀ s t : State, MemoryInv s → step s = .next t → MemoryInv t

/-- Every step keeps the reserved fields of the registers 0, BUSY equal to the engine's being in RUN, and RESULT, CAUSE and
FAULT_POS at 0 while a command runs (R332 (c)). -/
def Obligations.StepKeepsRegistersLegal : Prop :=
  ∀ s t : State, RegisterInv s → step s = .next t → RegisterInv t

/-- Every step keeps the engine sound: in RUN it is at a stage of its command, its cursors in bounds. -/
def Obligations.StepKeepsEngineSound : Prop :=
  ∀ s t : State, EngineInv s → step s = .next t → EngineInv t

/-- Every step keeps the parse in progress valid: under ANY and under the reference finder, whatever the table holds and
whatever the host does, the parse that is emitted is a valid parse. -/
def Obligations.StepKeepsParseValid : Prop :=
  ∀ s t : State, RegisterInv s → EngineInv s → ParseInv s → step s = .next t → ParseInv t

/-- The state after reset satisfies every invariant. -/
def Obligations.ResetSatisfiesInvariants : Prop :=
  MemoryInv State.reset ∧ RegisterInv State.reset ∧ EngineInv State.reset ∧ ParseInv State.reset

/-- No step of a sound state faults. -/
def Obligations.SoundStateNeverFaults : Prop := ∀ s : State, EngineInv s → SafeStep s

/-- R62: an engine step writes no byte outside the regions its command may write. -/
def Obligations.EngineWritesOnlyItsRegions : Prop :=
  ∀ s t : State, EngineInv s → s.host = [] → step s = .next t → SameOutside s.eng.written s t

/-- R248: a decoder step depends on memory only through IN, the produced part of OUT and, in DECODE_DELTA, DICT; and it
writes only OUT. Where the step completes the command, that the two idle engines agree is the model's choice (R40 leaves
an idle engine's fields but phase unspecified): log entry 1. -/
def Obligations.DecoderReadsOnlyItsRegions : Prop :=
  ∀ s t s' : State, EngineInv s → Running s → s.eng.isDecode → Running s' → s'.eng = s.eng → s'.regs = s.regs →
    s'.params = s.params → s'.draws = s.draws → AgreeOn s.eng.decoderReads s s' → step s = .next t →
    SameOutside [s.eng.outSpan] s t ∧
    ∃ t', step s' = .next t' ∧ t'.eng = t.eng ∧ t'.regs = t.regs ∧ AgreeOn t.eng.decoderReads t t'

/-- R43, R188: a running command, left alone, completes after finitely many steps. -/
def Obligations.EveryCommandCompletes : Prop :=
  ∀ s : State, EngineInv s → s.host = [] →
    ∃ n t, Host.Core.run Sys2Proof.core n s = .next t ∧ t.eng.phase = .idle

/-- R179: decoding the emitted block of a valid parse returns the region. From the class byte, with the block as IN, with
the dictionary (if any) as the region's first bytes, and with room for the rest, a decode completes with the length of
the rest, and OUT holds it. -/
def Obligations.DecodeInvertsEmit : Prop :=
  ∀ (s : State) (R : Nat → Byte) (c : BlockClass) (fin : Nat) (P : List ParseRecord) (block : List Byte),
    EngineInv s → Running s → s.eng.stage = .classByte →
    validParse R c fin s.eng.avail P = true → block = emitBlock c R s.eng.avail P →
    (∀ i, i < s.eng.avail → s.mem.read (byteAddr s.eng.dictAddr i) = R i) →
    s.eng.inLen.toNat = block.length →
    (∀ i, (hi : i < block.length) → s.mem.read (byteAddr s.eng.inAddr i) = block[i]) →
    fin - s.eng.avail ≤ s.eng.capEff →
    ∃ n t, Host.Core.run Sys2Proof.core n s = .next t ∧
      EndedWith s t (BitVec.ofNat 32 (fin - s.eng.avail)) 0 0 ∧
      ∀ i, i < fin - s.eng.avail → t.mem.read (byteAddr s.eng.outAddr i) = R (s.eng.avail + i)
end

