-- ==== Sys2Proof/Laws/Memory.lean ====
section
/-! SUPPORT. Laws of memory: what a read gives after each operation, and the canonical form that every operation keeps. -/

namespace Sys2Proof.Machine

/-! ## Lookup in the listed cells -/

@[simp] theorem lookupCell_nil (a : Nat) : lookupCell [] a = none := rfl

theorem lookupCell_cons (b : Nat) (v : Byte) (rest : List Host.Cell) (a : Nat) :
    lookupCell ((b, v) :: rest) a = if b = a then some v else lookupCell rest a := rfl

theorem lookupCell_dropCells (lo hi : Nat) (cells : List Host.Cell) (a : Nat) :
    lookupCell (dropCells lo hi cells) a = if lo ≤ a ∧ a < hi then none else lookupCell cells a := by
  induction cells with
  | nil => simp [dropCells]
  | cons c rest ih =>
    obtain ⟨b, v⟩ := c
    simp only [dropCells, List.filter_cons] at ih ⊢
    by_cases hb : b < lo ∨ hi ≤ b
    · simp only [hb, decide_true, if_true, lookupCell_cons, ih]
      by_cases h : b = a
      · subst h; simp only [if_true]; rw [if_neg (by omega)]
      · simp only [if_neg h]
    · simp only [hb, decide_false, Bool.false_eq_true, if_false, lookupCell_cons, ih]
      by_cases h : b = a
      · subst h; rw [if_pos (by omega), if_pos (by omega)]
      · simp only [if_neg h]

theorem lookupCell_insertCell_of_none (a : Nat) (v : Byte) (cells : List Host.Cell) (h : lookupCell cells a = none)
    (b : Nat) : lookupCell (insertCell a v cells) b = if a = b then some v else lookupCell cells b := by
  induction cells with
  | nil => simp [insertCell, lookupCell]
  | cons c rest ih =>
    obtain ⟨d, w⟩ := c
    rw [lookupCell_cons] at h
    split at h
    · cases h
    next hd =>
      simp only [insertCell]
      split
      · simp [lookupCell_cons]
      · rw [lookupCell_cons, ih h, lookupCell_cons]
        by_cases h1 : d = b
        · subst h1; simp; intro h2; exact absurd h2.symm hd
        · simp [h1]

/-! ## Open spans -/

@[simp] theorem openByte_nil (a : Nat) : openByte [] a = none := rfl

theorem openByte_cons (r : OpenSpan) (rest : List OpenSpan) (a : Nat) :
    openByte (r :: rest) a = if r.covers a then some (Config.freeByte r.draw a) else openByte rest a := rfl

theorem covers_iff (r : OpenSpan) (a : Nat) : r.covers a = true ↔ r.base ≤ a ∧ a < r.base + r.len := by
  simp [OpenSpan.covers]

theorem openByte_append (l k : List OpenSpan) (a : Nat) :
    openByte (l ++ k) a = (openByte l a).or (openByte k a) := by
  induction l with
  | nil => simp
  | cons r rest ih =>
    simp only [List.cons_append, openByte_cons, ih]
    split <;> simp

theorem openByte_cutSpan (lo hi : Nat) (hlt : lo < hi) (r : OpenSpan) (a : Nat) :
    openByte (cutSpan lo hi r) a =
      if lo ≤ a ∧ a < hi then none else if r.covers a then some (Config.freeByte r.draw a) else none := by
  have hc := covers_iff r a
  simp only [cutSpan, openByte_append]
  by_cases hin : lo ≤ a ∧ a < hi
  · rw [if_pos hin]
    split <;> split <;> simp [openByte, OpenSpan.covers] <;> omega
  · rw [if_neg hin]
    by_cases hcov : r.covers a
    · rw [if_pos hcov]
      rw [hc] at hcov
      by_cases hl : a < lo
      · rw [if_pos (by omega)]
        have : OpenSpan.covers ⟨r.base, min (r.base + r.len) lo - r.base, r.draw⟩ a = true := by
          rw [covers_iff]; constructor <;> simp <;> omega
        simp [openByte, this]
      · have hmax : max r.base hi < r.base + r.len := by omega
        rw [if_pos hmax]
        have h2 : OpenSpan.covers ⟨max r.base hi, r.base + r.len - max r.base hi, r.draw⟩ a = true := by
          rw [covers_iff]; constructor <;> simp <;> omega
        split
        · have h1 : OpenSpan.covers ⟨r.base, min (r.base + r.len) lo - r.base, r.draw⟩ a = false := by
            simp [OpenSpan.covers]; omega
          simp [openByte, h1, h2]
        · simp [openByte, h2]
    · rw [if_neg hcov]
      rw [hc] at hcov
      split <;> split <;> simp [openByte, OpenSpan.covers] <;> omega

theorem openByte_cutSpans (lo hi : Nat) (hlt : lo < hi) (spans : List OpenSpan) (a : Nat) :
    openByte (cutSpans lo hi spans) a = if lo ≤ a ∧ a < hi then none else openByte spans a := by
  induction spans with
  | nil => simp [cutSpans]
  | cons r rest ih =>
    simp only [cutSpans, List.flatMap_cons, openByte_append, openByte_cutSpan lo hi hlt] at ih ⊢
    rw [ih, openByte_cons]
    by_cases h : lo ≤ a ∧ a < hi
    · simp [h]
    · simp only [if_neg h]
      split <;> simp

theorem openByte_insertSpan (r : OpenSpan) (spans : List OpenSpan) (a : Nat)
    (h : r.covers a = true → openByte spans a = none) :
    openByte (insertSpan r spans) a = if r.covers a then some (Config.freeByte r.draw a) else openByte spans a := by
  induction spans with
  | nil => simp [insertSpan, openByte]
  | cons q rest ih =>
    simp only [insertSpan]
    split
    · rfl
    · rw [openByte_cons, openByte_cons]
      by_cases hr : r.covers a = true
      · have hn := h hr
        rw [openByte_cons] at hn
        split at hn
        · cases hn
        next hq =>
          rw [ih (fun _ => hn)]
          simp [hq, hr]
      · rw [ih (fun hh => absurd hh hr)]
        simp [hr]

/-! ## Reads after writes -/

/-- A byte written is read back. -/
@[simp] theorem Memory.read_write_same (m : Memory) (a : Nat) (v : Byte) : (m.write a v).read a = v := by
  have hl : lookupCell (dropCells a (a + 1) m.cells) a = none := by
    rw [lookupCell_dropCells]; simp
  have ho : openByte (cutSpans a (a + 1) m.spans) a = none := by
    rw [openByte_cutSpans _ _ (by omega)]; simp
  unfold Memory.read Memory.write Memory.unlisted
  by_cases hv : v = 0#8
  · simp [hv, hl, ho]
  · simp [hv, lookupCell_insertCell_of_none _ _ _ hl]

/-- A write leaves every other byte alone. -/
theorem Memory.read_write_other (m : Memory) (a b : Nat) (v : Byte) (h : b ≠ a) :
    (m.write a v).read b = m.read b := by
  have hl : lookupCell (dropCells a (a + 1) m.cells) a = none := by
    rw [lookupCell_dropCells]; simp
  have hb : ¬ (a ≤ b ∧ b < a + 1) := by omega
  unfold Memory.read Memory.write Memory.unlisted
  by_cases hv : v = 0#8
  · simp only [hv, if_true, lookupCell_dropCells, openByte_cutSpans _ _ (Nat.lt_succ_self a), if_neg hb]
  · simp only [hv, if_false, lookupCell_insertCell_of_none _ _ _ hl, lookupCell_dropCells,
      openByte_cutSpans _ _ (Nat.lt_succ_self a), if_neg hb, if_neg (Ne.symm h)]

/-- Reading after a write. -/
theorem Memory.read_write (m : Memory) (a b : Nat) (v : Byte) :
    (m.write a v).read b = if b = a then v else m.read b := by
  split
  next h => subst h; simp
  next h => exact Memory.read_write_other m a b v h

/-- Reading after a range is filled with zeros. -/
theorem Memory.read_zero (m : Memory) (base len b : Nat) :
    (m.zero base len).read b = if base ≤ b ∧ b < base + len then 0 else m.read b := by
  unfold Memory.zero
  split
  next h => rw [if_neg (by omega)]
  next h =>
    unfold Memory.read Memory.unlisted
    rw [lookupCell_dropCells, openByte_cutSpans _ _ (by omega)]
    split <;> simp

/-- Reading after a range is opened: a free value inside it, as before outside it. -/
theorem Memory.read_havoc (m : Memory) (base len draw b : Nat) :
    (m.havoc base len draw).read b =
      if base ≤ b ∧ b < base + len then Config.freeByte draw b else m.read b := by
  unfold Memory.havoc
  split
  next h => rw [if_neg (by omega)]
  next h =>
    have hc : (OpenSpan.covers ⟨base, len, draw⟩ b = true) ↔ base ≤ b ∧ b < base + len := covers_iff _ _
    unfold Memory.read Memory.unlisted
    rw [lookupCell_dropCells, openByte_insertSpan _ _ _ (by
      intro hcov
      rw [openByte_cutSpans _ _ (by omega), if_pos (hc.mp hcov)]), openByte_cutSpans _ _ (by omega)]
    by_cases hb : base ≤ b ∧ b < base + len
    · simp only [if_pos hb, if_pos (hc.mpr hb)]; rfl
    · have : ¬ OpenSpan.covers ⟨base, len, draw⟩ b = true := fun x => hb (hc.mp x)
      simp only [if_neg hb, if_neg this]

/-! ## The canonical form -/

theorem openByte_eq_none_iff (spans : List OpenSpan) (a : Nat) :
    openByte spans a = none ↔ ∀ r ∈ spans, ¬ (r.base ≤ a ∧ a < r.base + r.len) := by
  induction spans with
  | nil => simp
  | cons r rest ih =>
    rw [openByte_cons]
    have := covers_iff r a
    by_cases h : r.covers a = true
    · simp [h, this.mp h]
    · have h' := fun x => h (this.mpr x)
      simp only [if_neg h, ih, List.forall_mem_cons]
      exact ⟨fun x => ⟨h', x⟩, fun x => x.2⟩

theorem mem_insertCell (a : Nat) (v : Byte) (cells : List Host.Cell) (c : Host.Cell) :
    c ∈ insertCell a v cells ↔ c = (a, v) ∨ c ∈ cells := by
  induction cells with
  | nil => simp [insertCell]
  | cons d rest ih =>
    simp only [insertCell]
    split
    · simp
    · simp [ih]; tauto

theorem mem_insertSpan (r : OpenSpan) (spans : List OpenSpan) (q : OpenSpan) :
    q ∈ insertSpan r spans ↔ q = r ∨ q ∈ spans := by
  induction spans with
  | nil => simp [insertSpan]
  | cons d rest ih =>
    simp only [insertSpan]
    split
    · simp
    · simp [ih]; tauto

theorem pairwise_insertCell (a : Nat) (v : Byte) (cells : List Host.Cell)
    (hs : cells.Pairwise (fun c d => c.1 < d.1)) (ha : ∀ c ∈ cells, c.1 ≠ a) :
    (insertCell a v cells).Pairwise (fun c d => c.1 < d.1) := by
  induction cells with
  | nil => simp [insertCell]
  | cons d rest ih =>
    rw [List.pairwise_cons] at hs
    simp only [insertCell]
    split
    next h =>
      refine List.pairwise_cons.mpr ⟨?_, List.pairwise_cons.mpr hs⟩
      intro c hc
      rcases List.mem_cons.mp hc with rfl | hc
      · exact h
      · exact lt_trans h (hs.1 c hc)
    next h =>
      refine List.pairwise_cons.mpr ⟨?_, ih hs.2 (fun c hc => ha c (List.mem_cons_of_mem _ hc))⟩
      intro c hc
      rcases (mem_insertCell a v rest c).mp hc with rfl | hc
      · have := ha d List.mem_cons_self
        change d.1 < a
        omega
      · exact hs.1 c hc

theorem mem_dropCells (lo hi : Nat) (cells : List Host.Cell) (c : Host.Cell) :
    c ∈ dropCells lo hi cells ↔ c ∈ cells ∧ (c.1 < lo ∨ hi ≤ c.1) := by
  simp [dropCells]

theorem pairwise_dropCells (lo hi : Nat) (cells : List Host.Cell) (hs : cells.Pairwise (fun c d => c.1 < d.1)) :
    (dropCells lo hi cells).Pairwise (fun c d => c.1 < d.1) := hs.filter _

theorem mem_cutSpan (lo hi : Nat) (r q : OpenSpan) (h : q ∈ cutSpan lo hi r) :
    r.base ≤ q.base ∧ q.base + q.len ≤ r.base + r.len ∧ 0 < q.len ∧ (q.base + q.len ≤ lo ∨ hi ≤ q.base) := by
  simp only [cutSpan, List.mem_append] at h
  rcases h with h | h <;> split at h <;> simp at h <;> subst h <;> refine ⟨?_, ?_, ?_, ?_⟩ <;> simp <;> omega

theorem pairwise_cutSpan (lo hi : Nat) (hlt : lo < hi) (r : OpenSpan) :
    (cutSpan lo hi r).Pairwise (fun r q => r.base + r.len ≤ q.base) := by
  unfold cutSpan
  split <;> split <;> simp
  omega

theorem mem_cutSpans (lo hi : Nat) (spans : List OpenSpan) (q : OpenSpan) :
    q ∈ cutSpans lo hi spans ↔ ∃ r ∈ spans, q ∈ cutSpan lo hi r := by
  simp [cutSpans]

theorem pairwise_cutSpans (lo hi : Nat) (hlt : lo < hi) (spans : List OpenSpan)
    (hs : spans.Pairwise (fun r q => r.base + r.len ≤ q.base)) :
    (cutSpans lo hi spans).Pairwise (fun r q => r.base + r.len ≤ q.base) := by
  induction spans with
  | nil => simp [cutSpans]
  | cons r rest ih =>
    rw [List.pairwise_cons] at hs
    simp only [cutSpans, List.flatMap_cons] at ih ⊢
    refine List.pairwise_append.mpr ⟨pairwise_cutSpan lo hi hlt r, ih hs.2, ?_⟩
    intro x hx y hy
    obtain ⟨z, hz, hy⟩ := (mem_cutSpans lo hi rest y).mp hy
    have h1 := mem_cutSpan lo hi r x hx
    have h2 := mem_cutSpan lo hi z y hy
    have h3 := hs.1 z hz
    omega

theorem pairwise_insertSpan (r : OpenSpan) (spans : List OpenSpan)
    (hs : spans.Pairwise (fun r q => r.base + r.len ≤ q.base)) (hr : 0 < r.len)
    (ha : ∀ q ∈ spans, 0 < q.len ∧ (q.base + q.len ≤ r.base ∨ r.base + r.len ≤ q.base)) :
    (insertSpan r spans).Pairwise (fun r q => r.base + r.len ≤ q.base) := by
  induction spans with
  | nil => simp [insertSpan]
  | cons d rest ih =>
    rw [List.pairwise_cons] at hs
    have hd := ha d List.mem_cons_self
    simp only [insertSpan]
    split
    next h =>
      refine List.pairwise_cons.mpr ⟨?_, List.pairwise_cons.mpr hs⟩
      intro q hq
      rcases List.mem_cons.mp hq with rfl | hq
      · omega
      · have := hs.1 q hq; omega
    next h =>
      refine List.pairwise_cons.mpr ⟨?_, ih hs.2 (fun q hq => ha q (List.mem_cons_of_mem _ hq))⟩
      intro q hq
      rcases (mem_insertSpan r rest q).mp hq with rfl | hq
      · omega
      · exact hs.1 q hq

theorem Memory.empty_wf : Memory.empty.wf := by decide

/-- Writing a byte of the address space keeps the canonical form. -/
theorem Memory.write_wf (m : Memory) (a : Nat) (v : Byte) (h : m.wf) (ha : a < 2 ^ 64) : (m.write a v).wf := by
  obtain ⟨h1, h2, h3, h4⟩ := h
  have hopen : ∀ b, openByte (cutSpans a (a + 1) m.spans) b = if a ≤ b ∧ b < a + 1 then none else openByte m.spans b :=
    openByte_cutSpans a (a + 1) (by omega) m.spans
  have hdrop : ∀ c ∈ dropCells a (a + 1) m.cells,
      c.1 < 2 ^ 64 ∧ c.2 ≠ 0#8 ∧ openByte (cutSpans a (a + 1) m.spans) c.1 = none := by
    intro c hc
    have hc := (mem_dropCells _ _ _ _).mp hc
    obtain ⟨x1, x2, x3⟩ := h2 c hc.1
    refine ⟨x1, x2, ?_⟩
    rw [hopen, x3]; simp
  refine ⟨?_, ?_, pairwise_cutSpans _ _ (by omega) _ h3, ?_⟩
  · unfold Memory.write
    by_cases hv : v = 0#8
    · simp only [hv, if_true]; exact pairwise_dropCells _ _ _ h1
    · simp only [hv, if_false]
      refine pairwise_insertCell _ _ _ (pairwise_dropCells _ _ _ h1) ?_
      intro c hc
      have := (mem_dropCells _ _ _ _).mp hc
      omega
  · unfold Memory.write
    by_cases hv : v = 0#8
    · simp only [hv, if_true]; exact hdrop
    · simp only [hv, if_false]
      intro c hc
      rcases (mem_insertCell _ _ _ _).mp hc with rfl | hc
      · refine ⟨ha, hv, ?_⟩
        rw [hopen]; simp
      · exact hdrop c hc
  · intro r hr
    obtain ⟨q, hq, hr⟩ := (mem_cutSpans _ _ _ _).mp hr
    exact (mem_cutSpan _ _ _ _ hr).2.2.1

/-- Filling a range with zeros keeps the canonical form. -/
theorem Memory.zero_wf (m : Memory) (base len : Nat) (h : m.wf) : (m.zero base len).wf := by
  unfold Memory.zero
  split
  · exact h
  next hl =>
    obtain ⟨h1, h2, h3, h4⟩ := h
    refine ⟨pairwise_dropCells _ _ _ h1, ?_, pairwise_cutSpans _ _ (by omega) _ h3, ?_⟩
    · intro c hc
      have hc := (mem_dropCells _ _ _ _).mp hc
      obtain ⟨x1, x2, x3⟩ := h2 c hc.1
      refine ⟨x1, x2, ?_⟩
      rw [openByte_cutSpans _ _ (by omega), x3]; simp
    · intro r hr
      obtain ⟨q, hq, hr⟩ := (mem_cutSpans _ _ _ _).mp hr
      exact (mem_cutSpan _ _ _ _ hr).2.2.1

/-- Opening a range keeps the canonical form. -/
theorem Memory.havoc_wf (m : Memory) (base len draw : Nat) (h : m.wf) : (m.havoc base len draw).wf := by
  unfold Memory.havoc
  split
  · exact h
  next hl =>
    obtain ⟨h1, h2, h3, h4⟩ := h
    have hcut : ∀ q ∈ cutSpans base (base + len) m.spans,
        0 < q.len ∧ (q.base + q.len ≤ base ∨ base + len ≤ q.base) := by
      intro q hq
      obtain ⟨z, hz, hq⟩ := (mem_cutSpans _ _ _ _).mp hq
      have := mem_cutSpan _ _ _ _ hq
      exact ⟨this.2.2.1, this.2.2.2⟩
    refine ⟨pairwise_dropCells _ _ _ h1, ?_, ?_, ?_⟩
    · intro c hc
      have hc := (mem_dropCells _ _ _ _).mp hc
      obtain ⟨x1, x2, x3⟩ := h2 c hc.1
      refine ⟨x1, x2, ?_⟩
      have hcov : ¬ OpenSpan.covers ⟨base, len, draw⟩ c.1 = true := by
        rw [covers_iff]
        have := hc.2
        change ¬ (base ≤ c.1 ∧ c.1 < base + len)
        omega
      rw [openByte_insertSpan _ _ _ (fun x => absurd x hcov), if_neg hcov, openByte_cutSpans _ _ (by omega), x3]
      simp
    · exact pairwise_insertSpan _ _ (pairwise_cutSpans _ _ (by omega) _ h3) (by change 0 < len; omega) hcut
    · intro r hr
      rcases (mem_insertSpan _ _ _).mp hr with rfl | hr
      · change 0 < len; omega
      · exact (hcut r hr).1

/-- Writing a byte string keeps the canonical form. -/
theorem Memory.writeBytes_wf (m : Memory) (a : Addr) (bs : List Byte) (h : m.wf) : (m.writeBytes a bs).wf := by
  induction bs generalizing m a with
  | nil => exact h
  | cons b rest ih => exact ih _ _ (Memory.write_wf m _ b h a.isLt)

/-- A byte-serial copy keeps the canonical form. -/
theorem Memory.copy_wf (m : Memory) (src dst : Addr) (n : Nat) (h : m.wf) : (m.copy src dst n).wf := by
  induction n generalizing m src dst with
  | zero => exact h
  | succ n ih => exact ih _ _ _ (Memory.write_wf m _ _ h dst.isLt)

/-- A copy leaves every byte outside its destination alone. -/
theorem Memory.read_copy_other (m : Memory) (src dst : Addr) (n b : Nat)
    (h : ∀ i, i < n → b ≠ (dst + BitVec.ofNat 64 i).toNat) : (m.copy src dst n).read b = m.read b := by
  induction n generalizing m src dst with
  | zero => rfl
  | succ n ih =>
    unfold Memory.copy
    rw [ih, Memory.read_write_other]
    · have := h 0 (by omega); simpa using this
    · intro i hi
      have := h (i + 1) (by omega)
      have hadd : dst + BitVec.ofNat 64 (i + 1) = dst + 1 + BitVec.ofNat 64 i := by
        have : BitVec.ofNat 64 (i + 1) = 1 + BitVec.ofNat 64 i := by
          apply BitVec.eq_of_toNat_eq; simp [Nat.add_comm]
        rw [this, BitVec.add_assoc]
      rwa [hadd] at this

/-- A byte string leaves every byte outside it alone. -/
theorem Memory.read_writeBytes_other (m : Memory) (a : Addr) (bs : List Byte) (b : Nat)
    (h : ∀ i, i < bs.length → b ≠ (a + BitVec.ofNat 64 i).toNat) : (m.writeBytes a bs).read b = m.read b := by
  induction bs generalizing m a with
  | nil => rfl
  | cons v rest ih =>
    unfold Memory.writeBytes
    rw [ih, Memory.read_write_other]
    · have := h 0 (by simp); simpa using this
    · intro i hi
      have := h (i + 1) (by simp; omega)
      have hadd : a + BitVec.ofNat 64 (i + 1) = a + 1 + BitVec.ofNat 64 i := by
        have : BitVec.ofNat 64 (i + 1) = 1 + BitVec.ofNat 64 i := by
          apply BitVec.eq_of_toNat_eq; simp [Nat.add_comm]
        rw [this, BitVec.add_assoc]
      rwa [hadd] at this

end Sys2Proof.Machine
end

