-- ==== Sys2Proof/Laws/State.lean ====
section
/-! SUPPORT. The fields of the state after each shared update, one lemma per field (true by rfl), so that no later proof
unfolds a record update. -/

namespace Sys2Proof.Machine

@[simp] theorem State.havoc_regs (s : State) (base : Addr) (off len : Nat) :
    (s.havoc base off len).regs = s.regs := rfl
@[simp] theorem State.havoc_eng (s : State) (base : Addr) (off len : Nat) :
    (s.havoc base off len).eng = s.eng := rfl
@[simp] theorem State.havoc_mem (s : State) (base : Addr) (off len : Nat) :
    (s.havoc base off len).mem = s.mem.havoc (base.toNat + off) len s.draws := rfl
@[simp] theorem State.havoc_params (s : State) (base : Addr) (off len : Nat) :
    (s.havoc base off len).params = s.params := rfl
@[simp] theorem State.havoc_host (s : State) (base : Addr) (off len : Nat) :
    (s.havoc base off len).host = s.host := rfl
@[simp] theorem State.havoc_busData (s : State) (base : Addr) (off len : Nat) :
    (s.havoc base off len).busData = s.busData := rfl
@[simp] theorem State.havoc_memData (s : State) (base : Addr) (off len : Nat) :
    (s.havoc base off len).memData = s.memData := rfl
@[simp] theorem State.havoc_draws (s : State) (base : Addr) (off len : Nat) :
    (s.havoc base off len).draws = s.draws + 1 := rfl

@[simp] theorem State.havocOut_regs (s : State) :
    (s.havocOut).regs = s.regs := rfl
@[simp] theorem State.havocOut_eng (s : State) :
    (s.havocOut).eng = s.eng := rfl
@[simp] theorem State.havocOut_mem (s : State) :
    (s.havocOut).mem = s.mem.havoc s.eng.outAddr.toNat s.eng.outCap.toNat s.draws := rfl
@[simp] theorem State.havocOut_params (s : State) :
    (s.havocOut).params = s.params := rfl
@[simp] theorem State.havocOut_host (s : State) :
    (s.havocOut).host = s.host := rfl
@[simp] theorem State.havocOut_busData (s : State) :
    (s.havocOut).busData = s.busData := rfl
@[simp] theorem State.havocOut_memData (s : State) :
    (s.havocOut).memData = s.memData := rfl
@[simp] theorem State.havocOut_draws (s : State) :
    (s.havocOut).draws = s.draws + 1 := rfl

@[simp] theorem State.havocOutFrom_regs (s : State) (n : Nat) :
    (s.havocOutFrom n).regs = s.regs := rfl
@[simp] theorem State.havocOutFrom_eng (s : State) (n : Nat) :
    (s.havocOutFrom n).eng = s.eng := rfl
@[simp] theorem State.havocOutFrom_mem (s : State) (n : Nat) :
    (s.havocOutFrom n).mem = s.mem.havoc (s.eng.outAddr.toNat + n) (s.eng.outCap.toNat - n) s.draws := rfl
@[simp] theorem State.havocOutFrom_params (s : State) (n : Nat) :
    (s.havocOutFrom n).params = s.params := rfl
@[simp] theorem State.havocOutFrom_host (s : State) (n : Nat) :
    (s.havocOutFrom n).host = s.host := rfl
@[simp] theorem State.havocOutFrom_busData (s : State) (n : Nat) :
    (s.havocOutFrom n).busData = s.busData := rfl
@[simp] theorem State.havocOutFrom_memData (s : State) (n : Nat) :
    (s.havocOutFrom n).memData = s.memData := rfl
@[simp] theorem State.havocOutFrom_draws (s : State) (n : Nat) :
    (s.havocOutFrom n).draws = s.draws + 1 := rfl

@[simp] theorem State.havocTable_regs (s : State) :
    (s.havocTable).regs = s.regs := rfl
@[simp] theorem State.havocTable_eng (s : State) :
    (s.havocTable).eng = s.eng := rfl
@[simp] theorem State.havocTable_mem (s : State) :
    (s.havocTable).mem = s.mem.havoc s.eng.stateAddr.toNat Config.stateMinSize s.draws := rfl
@[simp] theorem State.havocTable_params (s : State) :
    (s.havocTable).params = s.params := rfl
@[simp] theorem State.havocTable_host (s : State) :
    (s.havocTable).host = s.host := rfl
@[simp] theorem State.havocTable_busData (s : State) :
    (s.havocTable).busData = s.busData := rfl
@[simp] theorem State.havocTable_memData (s : State) :
    (s.havocTable).memData = s.memData := rfl
@[simp] theorem State.havocTable_draws (s : State) :
    (s.havocTable).draws = s.draws + 1 := rfl

@[simp] theorem State.accept_regs (s : State) (op : BitVec 4) :
    (s.accept op).regs =
      { s.regs with cmd := op.setWidth 32, status := statusBusy, result := 0, cause := 0, faultPos := 0 } := rfl
@[simp] theorem State.accept_eng (s : State) (op : BitVec 4) :
    (s.accept op).eng = Engine.start op s.regs := rfl
@[simp] theorem State.accept_mem (s : State) (op : BitVec 4) :
    (s.accept op).mem = s.mem := rfl
@[simp] theorem State.accept_params (s : State) (op : BitVec 4) :
    (s.accept op).params = s.params := rfl
@[simp] theorem State.accept_host (s : State) (op : BitVec 4) :
    (s.accept op).host = s.host := rfl
@[simp] theorem State.accept_busData (s : State) (op : BitVec 4) :
    (s.accept op).busData = s.busData := rfl
@[simp] theorem State.accept_memData (s : State) (op : BitVec 4) :
    (s.accept op).memData = s.memData := rfl
@[simp] theorem State.accept_draws (s : State) (op : BitVec 4) :
    (s.accept op).draws = s.draws := rfl

@[simp] theorem State.complete_regs (s : State) (v : Reg) (c : Cause) (pos : Reg) :
    (s.complete v c pos).regs =
      { s.regs with status := statusDone, result := v, cause := c.toReg, faultPos := pos, irqPend := setDonePend s.regs.irqPend } := rfl
@[simp] theorem State.complete_eng (s : State) (v : Reg) (c : Cause) (pos : Reg) :
    (s.complete v c pos).eng = { s.eng with phase := .idle, stage := .none } := rfl
@[simp] theorem State.complete_mem (s : State) (v : Reg) (c : Cause) (pos : Reg) :
    (s.complete v c pos).mem = s.mem := rfl
@[simp] theorem State.complete_params (s : State) (v : Reg) (c : Cause) (pos : Reg) :
    (s.complete v c pos).params = s.params := rfl
@[simp] theorem State.complete_host (s : State) (v : Reg) (c : Cause) (pos : Reg) :
    (s.complete v c pos).host = s.host := rfl
@[simp] theorem State.complete_busData (s : State) (v : Reg) (c : Cause) (pos : Reg) :
    (s.complete v c pos).busData = s.busData := rfl
@[simp] theorem State.complete_memData (s : State) (v : Reg) (c : Cause) (pos : Reg) :
    (s.complete v c pos).memData = s.memData := rfl
@[simp] theorem State.complete_draws (s : State) (v : Reg) (c : Cause) (pos : Reg) :
    (s.complete v c pos).draws = s.draws := rfl

@[simp] theorem State.fail_regs (s : State) (st : Status) (c : Cause) (pos : Reg) :
    (s.fail st c pos).regs =
      { s.regs with status := statusDone, result := st.toReg, cause := c.toReg, faultPos := pos, irqPend := setDonePend s.regs.irqPend } := rfl
@[simp] theorem State.fail_eng (s : State) (st : Status) (c : Cause) (pos : Reg) :
    (s.fail st c pos).eng = { s.eng with phase := .idle, stage := .none } := rfl
@[simp] theorem State.fail_mem (s : State) (st : Status) (c : Cause) (pos : Reg) :
    (s.fail st c pos).mem = s.mem := rfl
@[simp] theorem State.fail_params (s : State) (st : Status) (c : Cause) (pos : Reg) :
    (s.fail st c pos).params = s.params := rfl
@[simp] theorem State.fail_host (s : State) (st : Status) (c : Cause) (pos : Reg) :
    (s.fail st c pos).host = s.host := rfl
@[simp] theorem State.fail_busData (s : State) (st : Status) (c : Cause) (pos : Reg) :
    (s.fail st c pos).busData = s.busData := rfl
@[simp] theorem State.fail_memData (s : State) (st : Status) (c : Cause) (pos : Reg) :
    (s.fail st c pos).memData = s.memData := rfl
@[simp] theorem State.fail_draws (s : State) (st : Status) (c : Cause) (pos : Reg) :
    (s.fail st c pos).draws = s.draws := rfl

@[simp] theorem State.finish_regs (s : State) (v : Nat) :
    (s.finish v).regs =
      { s.regs with status := statusDone, result := BitVec.ofNat 32 v, cause := 0, faultPos := 0, irqPend := setDonePend s.regs.irqPend } := rfl
@[simp] theorem State.finish_eng (s : State) (v : Nat) :
    (s.finish v).eng = { s.eng with phase := .idle, stage := .none } := rfl
@[simp] theorem State.finish_mem (s : State) (v : Nat) :
    (s.finish v).mem = s.mem := rfl
@[simp] theorem State.finish_params (s : State) (v : Nat) :
    (s.finish v).params = s.params := rfl
@[simp] theorem State.finish_host (s : State) (v : Nat) :
    (s.finish v).host = s.host := rfl
@[simp] theorem State.finish_busData (s : State) (v : Nat) :
    (s.finish v).busData = s.busData := rfl
@[simp] theorem State.finish_memData (s : State) (v : Nat) :
    (s.finish v).memData = s.memData := rfl
@[simp] theorem State.finish_draws (s : State) (v : Nat) :
    (s.finish v).draws = s.draws := rfl

@[simp] theorem State.decodeFail_regs (s : State) (st : Status) (c : Cause) (pos : Nat) :
    (s.decodeFail st c pos).regs =
      { s.regs with status := statusDone, result := st.toReg, cause := c.toReg, faultPos := BitVec.ofNat 32 pos, irqPend := setDonePend s.regs.irqPend } := rfl
@[simp] theorem State.decodeFail_eng (s : State) (st : Status) (c : Cause) (pos : Nat) :
    (s.decodeFail st c pos).eng = { s.eng with phase := .idle, stage := .none } := rfl
@[simp] theorem State.decodeFail_mem (s : State) (st : Status) (c : Cause) (pos : Nat) :
    (s.decodeFail st c pos).mem = s.mem.havoc s.eng.outAddr.toNat s.eng.outCap.toNat s.draws := rfl
@[simp] theorem State.decodeFail_params (s : State) (st : Status) (c : Cause) (pos : Nat) :
    (s.decodeFail st c pos).params = s.params := rfl
@[simp] theorem State.decodeFail_host (s : State) (st : Status) (c : Cause) (pos : Nat) :
    (s.decodeFail st c pos).host = s.host := rfl
@[simp] theorem State.decodeFail_busData (s : State) (st : Status) (c : Cause) (pos : Nat) :
    (s.decodeFail st c pos).busData = s.busData := rfl
@[simp] theorem State.decodeFail_memData (s : State) (st : Status) (c : Cause) (pos : Nat) :
    (s.decodeFail st c pos).memData = s.memData := rfl
@[simp] theorem State.decodeFail_draws (s : State) (st : Status) (c : Cause) (pos : Nat) :
    (s.decodeFail st c pos).draws = s.draws + 1 := rfl

@[simp] theorem State.decodeDone_regs (s : State) :
    (s.decodeDone).regs =
      { s.regs with status := statusDone, result := BitVec.ofNat 32 s.eng.outPos, cause := 0, faultPos := 0, irqPend := setDonePend s.regs.irqPend } := rfl
@[simp] theorem State.decodeDone_eng (s : State) :
    (s.decodeDone).eng = { s.eng with phase := .idle, stage := .none } := rfl
@[simp] theorem State.decodeDone_mem (s : State) :
    (s.decodeDone).mem =
      s.mem.havoc (s.eng.outAddr.toNat + s.eng.outPos) (s.eng.outCap.toNat - s.eng.outPos) s.draws := rfl
@[simp] theorem State.decodeDone_params (s : State) :
    (s.decodeDone).params = s.params := rfl
@[simp] theorem State.decodeDone_host (s : State) :
    (s.decodeDone).host = s.host := rfl
@[simp] theorem State.decodeDone_busData (s : State) :
    (s.decodeDone).busData = s.busData := rfl
@[simp] theorem State.decodeDone_memData (s : State) :
    (s.decodeDone).memData = s.memData := rfl
@[simp] theorem State.decodeDone_draws (s : State) :
    (s.decodeDone).draws = s.draws + 1 := rfl

@[simp] theorem State.toStage_regs (s : State) (st : Stage) :
    (s.toStage st).regs = s.regs := rfl
@[simp] theorem State.toStage_eng (s : State) (st : Stage) :
    (s.toStage st).eng = { s.eng with stage := st } := rfl
@[simp] theorem State.toStage_mem (s : State) (st : Stage) :
    (s.toStage st).mem = s.mem := rfl
@[simp] theorem State.toStage_params (s : State) (st : Stage) :
    (s.toStage st).params = s.params := rfl
@[simp] theorem State.toStage_host (s : State) (st : Stage) :
    (s.toStage st).host = s.host := rfl
@[simp] theorem State.toStage_busData (s : State) (st : Stage) :
    (s.toStage st).busData = s.busData := rfl
@[simp] theorem State.toStage_memData (s : State) (st : Stage) :
    (s.toStage st).memData = s.memData := rfl
@[simp] theorem State.toStage_draws (s : State) (st : Stage) :
    (s.toStage st).draws = s.draws := rfl

@[simp] theorem State.selectClass_regs (s : State) (c : BlockClass) :
    (s.selectClass c).regs = s.regs := rfl
@[simp] theorem State.selectClass_eng (s : State) (c : BlockClass) :
    (s.selectClass c).eng =
      { s.eng with cls := c, nrLog2 := (classParams c).nrLog2, offLog2 := (classParams c).offLog2, rLog2 := (classParams c).rLog2, inPos := 1, outPos := 0, stage := .tag } := rfl
@[simp] theorem State.selectClass_mem (s : State) (c : BlockClass) :
    (s.selectClass c).mem = s.mem := rfl
@[simp] theorem State.selectClass_params (s : State) (c : BlockClass) :
    (s.selectClass c).params = s.params := rfl
@[simp] theorem State.selectClass_host (s : State) (c : BlockClass) :
    (s.selectClass c).host = s.host := rfl
@[simp] theorem State.selectClass_busData (s : State) (c : BlockClass) :
    (s.selectClass c).busData = s.busData := rfl
@[simp] theorem State.selectClass_memData (s : State) (c : BlockClass) :
    (s.selectClass c).memData = s.memData := rfl
@[simp] theorem State.selectClass_draws (s : State) (c : BlockClass) :
    (s.selectClass c).draws = s.draws := rfl

@[simp] theorem State.startEncode_regs (s : State) (c : BlockClass) (clear : Bool) :
    (s.startEncode c clear).regs = s.regs := rfl
@[simp] theorem State.startEncode_eng (s : State) (c : BlockClass) (clear : Bool) :
    (s.startEncode c clear).eng = s.eng.startScan c := rfl
@[simp] theorem State.startEncode_params (s : State) (c : BlockClass) (clear : Bool) :
    (s.startEncode c clear).params = s.params := rfl
@[simp] theorem State.startEncode_host (s : State) (c : BlockClass) (clear : Bool) :
    (s.startEncode c clear).host = s.host := rfl
@[simp] theorem State.startEncode_busData (s : State) (c : BlockClass) (clear : Bool) :
    (s.startEncode c clear).busData = s.busData := rfl
@[simp] theorem State.startEncode_memData (s : State) (c : BlockClass) (clear : Bool) :
    (s.startEncode c clear).memData = s.memData := rfl
@[simp] theorem State.startEncode_draws (s : State) (c : BlockClass) (clear : Bool) :
    (s.startEncode c clear).draws = s.draws := rfl

@[simp] theorem State.emitFailure_regs (s : State) (st : Status) (c : Cause) :
    (s.emitFailure st c).regs =
      { s.regs with status := statusDone, result := st.toReg, cause := c.toReg, faultPos := Config.freePos s.draws, irqPend := setDonePend s.regs.irqPend } := rfl
@[simp] theorem State.emitFailure_eng (s : State) (st : Status) (c : Cause) :
    (s.emitFailure st c).eng = { s.eng with phase := .idle, stage := .none } := rfl
@[simp] theorem State.emitFailure_mem (s : State) (st : Status) (c : Cause) :
    (s.emitFailure st c).mem = s.mem.havoc s.eng.outAddr.toNat s.eng.outCap.toNat (s.draws + 1) := rfl
@[simp] theorem State.emitFailure_params (s : State) (st : Status) (c : Cause) :
    (s.emitFailure st c).params = s.params := rfl
@[simp] theorem State.emitFailure_host (s : State) (st : Status) (c : Cause) :
    (s.emitFailure st c).host = s.host := rfl
@[simp] theorem State.emitFailure_busData (s : State) (st : Status) (c : Cause) :
    (s.emitFailure st c).busData = s.busData := rfl
@[simp] theorem State.emitFailure_memData (s : State) (st : Status) (c : Cause) :
    (s.emitFailure st c).memData = s.memData := rfl
@[simp] theorem State.emitFailure_draws (s : State) (st : Status) (c : Cause) :
    (s.emitFailure st c).draws = s.draws + 1 + 1 := rfl

@[simp] theorem State.emitSuccess_regs (s : State) (b : List Byte) :
    (s.emitSuccess b).regs =
      { s.regs with status := statusDone, result := BitVec.ofNat 32 b.length, cause := 0, faultPos := 0, irqPend := setDonePend s.regs.irqPend } := rfl
@[simp] theorem State.emitSuccess_eng (s : State) (b : List Byte) :
    (s.emitSuccess b).eng = { s.eng with outPos := b.length, phase := .idle, stage := .none } := rfl
@[simp] theorem State.emitSuccess_mem (s : State) (b : List Byte) :
    (s.emitSuccess b).mem =
      (s.mem.writeBytes s.eng.outAddr b).havoc (s.eng.outAddr.toNat + b.length) (s.eng.outCap.toNat - b.length) s.draws := rfl
@[simp] theorem State.emitSuccess_params (s : State) (b : List Byte) :
    (s.emitSuccess b).params = s.params := rfl
@[simp] theorem State.emitSuccess_host (s : State) (b : List Byte) :
    (s.emitSuccess b).host = s.host := rfl
@[simp] theorem State.emitSuccess_busData (s : State) (b : List Byte) :
    (s.emitSuccess b).busData = s.busData := rfl
@[simp] theorem State.emitSuccess_memData (s : State) (b : List Byte) :
    (s.emitSuccess b).memData = s.memData := rfl
@[simp] theorem State.emitSuccess_draws (s : State) (b : List Byte) :
    (s.emitSuccess b).draws = s.draws + 1 := rfl

@[simp] theorem State.readRegister_regs (s : State) (off : Nat) :
    (s.readRegister off).regs = s.regs := rfl
@[simp] theorem State.readRegister_eng (s : State) (off : Nat) :
    (s.readRegister off).eng = s.eng := rfl
@[simp] theorem State.readRegister_mem (s : State) (off : Nat) :
    (s.readRegister off).mem = s.mem := rfl
@[simp] theorem State.readRegister_params (s : State) (off : Nat) :
    (s.readRegister off).params = s.params := rfl
@[simp] theorem State.readRegister_host (s : State) (off : Nat) :
    (s.readRegister off).host = s.host := rfl
@[simp] theorem State.readRegister_busData (s : State) (off : Nat) :
    (s.readRegister off).busData = regRead s.params s.regs off := rfl
@[simp] theorem State.readRegister_memData (s : State) (off : Nat) :
    (s.readRegister off).memData = s.memData := rfl
@[simp] theorem State.readRegister_draws (s : State) (off : Nat) :
    (s.readRegister off).draws = s.draws := rfl

@[simp] theorem State.writeRegister_regs (s : State) (off : Nat) (v : Reg) :
    (s.writeRegister off v).regs = regWrite s.regs off v := rfl
@[simp] theorem State.writeRegister_eng (s : State) (off : Nat) (v : Reg) :
    (s.writeRegister off v).eng = s.eng := rfl
@[simp] theorem State.writeRegister_mem (s : State) (off : Nat) (v : Reg) :
    (s.writeRegister off v).mem = s.mem := rfl
@[simp] theorem State.writeRegister_params (s : State) (off : Nat) (v : Reg) :
    (s.writeRegister off v).params = s.params := rfl
@[simp] theorem State.writeRegister_host (s : State) (off : Nat) (v : Reg) :
    (s.writeRegister off v).host = s.host := rfl
@[simp] theorem State.writeRegister_busData (s : State) (off : Nat) (v : Reg) :
    (s.writeRegister off v).busData = s.busData := rfl
@[simp] theorem State.writeRegister_memData (s : State) (off : Nat) (v : Reg) :
    (s.writeRegister off v).memData = s.memData := rfl
@[simp] theorem State.writeRegister_draws (s : State) (off : Nat) (v : Reg) :
    (s.writeRegister off v).draws = s.draws := rfl

@[simp] theorem State.hardReset_params (s : State) : s.hardReset.params = s.params := by
  unfold State.hardReset; split <;> split <;> rfl
@[simp] theorem State.hardReset_host (s : State) : s.hardReset.host = s.host := by
  unfold State.hardReset; split <;> split <;> rfl
@[simp] theorem State.hardReset_busData (s : State) : s.hardReset.busData = s.busData := by
  unfold State.hardReset; split <;> split <;> rfl
@[simp] theorem State.hardReset_memData (s : State) : s.hardReset.memData = s.memData := by
  unfold State.hardReset; split <;> split <;> rfl
@[simp] theorem State.hardReset_regs (s : State) : s.hardReset.regs = Regs.reset := rfl
@[simp] theorem State.hardReset_eng (s : State) : s.hardReset.eng = Engine.reset := rfl

/-! ## The latched engine -/

@[simp] theorem Engine.start_phase (op : BitVec 4) (r : Regs) : (Engine.start op r).phase = .run := rfl
@[simp] theorem Engine.start_op (op : BitVec 4) (r : Regs) : (Engine.start op r).op = op := rfl
@[simp] theorem Engine.start_inAddr (op : BitVec 4) (r : Regs) : (Engine.start op r).inAddr = addrOf r.inAddrHi r.inAddrLo := rfl
@[simp] theorem Engine.start_outAddr (op : BitVec 4) (r : Regs) : (Engine.start op r).outAddr = addrOf r.outAddrHi r.outAddrLo := rfl
@[simp] theorem Engine.start_stateAddr (op : BitVec 4) (r : Regs) : (Engine.start op r).stateAddr = addrOf r.stateAddrHi r.stateAddrLo := rfl
@[simp] theorem Engine.start_dictAddr (op : BitVec 4) (r : Regs) : (Engine.start op r).dictAddr = addrOf r.dictAddrHi r.dictAddrLo := rfl
@[simp] theorem Engine.start_inLen (op : BitVec 4) (r : Regs) : (Engine.start op r).inLen = r.inLen := rfl
@[simp] theorem Engine.start_outCap (op : BitVec 4) (r : Regs) : (Engine.start op r).outCap = r.outCap := rfl
@[simp] theorem Engine.start_soft (op : BitVec 4) (r : Regs) : (Engine.start op r).soft = r.softLimit := rfl
@[simp] theorem Engine.start_dictLen (op : BitVec 4) (r : Regs) : (Engine.start op r).dictLen = r.dictLen := rfl

/-! ## Reset -/

@[simp] theorem State.reset_regs : State.reset.regs = Regs.reset := rfl
@[simp] theorem State.reset_eng : State.reset.eng = Engine.reset := rfl
@[simp] theorem State.reset_mem : State.reset.mem = Memory.empty := rfl
@[simp] theorem State.reset_params : State.reset.params = Config.defaults := rfl
@[simp] theorem State.reset_host : State.reset.host = [] := rfl
@[simp] theorem Engine.reset_phase : Engine.reset.phase = .idle := rfl
@[simp] theorem Engine.reset_stage : Engine.reset.stage = .none := rfl

end Sys2Proof.Machine
end

