-- ==== Sys2Proof/Laws/Ops.lean ====
section
/-! SUPPORT. What each shared operation can do, said once: the provers cite these instead of unfolding the operations. -/

namespace Sys2Proof.Machine

/-! ## Commands -/

/-- A launch goes on exactly where no premise is broken. -/
theorem launch_next_iff (s go t : State) : launch s go = .next t ↔ launchRefusal s = none ∧ t = go := by
  unfold launch
  split
  next r h => simp [h]
  next h => simp [h, eq_comm]

/-- A launch goes on, or is refused with the premise it breaks. -/
theorem launch_cases (s go : State) :
    (launchRefusal s = none ∧ launch s go = .next go) ∨ (∃ r, launchRefusal s = some r ∧ launch s go = .refused r) := by
  unfold launch
  cases h : launchRefusal s <;> simp

/-- A decode fails its argument checks, starts at the class byte, or breaks a launch premise. -/
theorem runDecode_cases (s : State) (args : Option Cause) :
    (∃ c, args = some c ∧ runDecode s args = .next (s.fail .failed c 0)) ∨
    (args = none ∧ launchRefusal s = none ∧ runDecode s args = .next (s.toStage .classByte)) ∨
    (∃ r, args = none ∧ launchRefusal s = some r ∧ runDecode s args = .refused r) := by
  unfold runDecode launch
  cases args with
  | some c => simp
  | none => cases h : launchRefusal s <;> simp

/-- ENCODE fails its argument checks, meets the floor, has no class, starts its scan, or breaks a launch premise. -/
theorem runEncode_cases (s : State) :
    (∃ c, encodeArgs s.eng = some c ∧ runEncode s = .next (s.fail .failed c 0)) ∨
    (encodeArgs s.eng = none ∧ s.eng.inLen.toNat ≤ gainThreshold s.eng.inLen.toNat ∧
      runEncode s = .next (s.fail .incompressible .encTooSmall 0)) ∨
    (encodeArgs s.eng = none ∧ gainThreshold s.eng.inLen.toNat < s.eng.inLen.toNat ∧
      classOf s.eng.inLen.toNat = none ∧ runEncode s = .next (s.fail .failed .argRange 0)) ∨
    (∃ c, encodeArgs s.eng = none ∧ gainThreshold s.eng.inLen.toNat < s.eng.inLen.toNat ∧
      classOf s.eng.inLen.toNat = some c ∧ launchRefusal s = none ∧
      runEncode s = .next (s.startEncode c true)) ∨
    (∃ r, launchRefusal s = some r ∧ runEncode s = .refused r) := by
  unfold runEncode launch
  cases h1 : encodeArgs s.eng with
  | some c => simp
  | none =>
    by_cases h2 : s.eng.inLen.toNat ≤ gainThreshold s.eng.inLen.toNat
    · simp [h2]
    · have h3 := Nat.lt_of_not_le h2
      cases h4 : classOf s.eng.inLen.toNat with
      | none => simp [h2, h3]
      | some c => cases h5 : launchRefusal s <;> simp [h2, h3]

/-- ENCODE_DELTA fails its argument checks, meets the floor, fails a range check, has no class, starts its scan, or
breaks a launch premise. -/
theorem runEncodeDelta_cases (s : State) :
    (∃ c, encodeDeltaArgs s.eng = some c ∧ runEncodeDelta s = .next (s.fail .failed c 0)) ∨
    (encodeDeltaArgs s.eng = none ∧ s.eng.inLen.toNat ≤ gainThreshold s.eng.inLen.toNat ∧
      runEncodeDelta s = .next (s.fail .incompressible .encTooSmall 0)) ∨
    (∃ c, encodeDeltaArgs s.eng = none ∧ gainThreshold s.eng.inLen.toNat < s.eng.inLen.toNat ∧
      encodeDeltaRange s.eng = some c ∧ runEncodeDelta s = .next (s.fail .failed c 0)) ∨
    (encodeDeltaArgs s.eng = none ∧ gainThreshold s.eng.inLen.toNat < s.eng.inLen.toNat ∧
      encodeDeltaRange s.eng = none ∧ classOf (s.eng.dictLen.toNat + s.eng.inLen.toNat) = none ∧
      runEncodeDelta s = .next (s.fail .failed .argRange 0)) ∨
    (∃ c, encodeDeltaArgs s.eng = none ∧ gainThreshold s.eng.inLen.toNat < s.eng.inLen.toNat ∧
      encodeDeltaRange s.eng = none ∧ classOf (s.eng.dictLen.toNat + s.eng.inLen.toNat) = some c ∧
      launchRefusal s = none ∧ runEncodeDelta s = .next (s.startEncode c false)) ∨
    (∃ r, launchRefusal s = some r ∧ runEncodeDelta s = .refused r) := by
  unfold runEncodeDelta launch
  cases h1 : encodeDeltaArgs s.eng with
  | some c => simp
  | none =>
    by_cases h2 : s.eng.inLen.toNat ≤ gainThreshold s.eng.inLen.toNat
    · simp [h2]
    · have h3 := Nat.lt_of_not_le h2
      cases h6 : encodeDeltaRange s.eng with
      | some c => simp [h2, h3]
      | none =>
        cases h4 : classOf (s.eng.dictLen.toNat + s.eng.inLen.toNat) with
        | none => simp [h2, h3]
        | some c => cases h5 : launchRefusal s <;> simp [h2, h3]

/-- UPDATE_DELTA_STATE fails its argument checks, starts its scan, or breaks a launch premise. -/
theorem runUpdate_cases (s : State) :
    (∃ c, updateArgs s.eng = some c ∧ runUpdate s = .next (s.fail .failed c 0)) ∨
    (updateArgs s.eng = none ∧ launchRefusal s = none ∧
      runUpdate s = .next { s with mem := s.withTableClear, eng := s.eng.startPrime }) ∨
    (∃ r, launchRefusal s = some r ∧ runUpdate s = .refused r) := by
  unfold runUpdate launch
  cases h1 : updateArgs s.eng with
  | some c => simp
  | none => cases h : launchRefusal s <;> simp

/-! ## Records -/

/-- The three ends of a REP. -/
theorem repeatBody_cases (s : State) :
    (s.eng.avail + s.eng.outPos < s.eng.recOff ∧ s.repeatBody = s.decodeFail .failed .decOffset s.eng.inPos) ∨
    (s.eng.recOff ≤ s.eng.avail + s.eng.outPos ∧ s.eng.capEff - s.eng.outPos < s.eng.recM ∧
      s.repeatBody = s.decodeFail .failed .decRepOut s.eng.inPos) ∨
    (s.eng.recOff ≤ s.eng.avail + s.eng.outPos ∧ s.eng.recM ≤ s.eng.capEff - s.eng.outPos ∧
      s.repeatBody = { s with
        mem := s.mem.copy (s.eng.outAddr + BitVec.ofNat 64 s.eng.outPos - BitVec.ofNat 64 s.eng.recOff)
          (s.eng.outAddr + BitVec.ofNat 64 s.eng.outPos) s.eng.recM
        eng := { s.eng with outPos := s.eng.outPos + s.eng.recM, stage := .tag } }) := by
  unfold State.repeatBody
  by_cases h1 : s.eng.avail + s.eng.outPos < s.eng.recOff
  · exact .inl ⟨h1, by simp [h1]⟩
  · by_cases h2 : s.eng.capEff - s.eng.outPos < s.eng.recM
    · exact .inr (.inl ⟨Nat.le_of_not_lt h1, h2, by simp [h1, h2]⟩)
    · exact .inr (.inr ⟨Nat.le_of_not_lt h1, Nat.le_of_not_lt h2, by simp [h1, h2]⟩)

/-- The three ends of a terminal record. -/
theorem terminal_cases (s : State) :
    (s.eng.recR ≠ 0 ∧ s.terminal = s.decodeFail .failed .decTermR s.eng.inPos) ∨
    (s.eng.recR = 0 ∧ s.eng.inPos ≠ s.eng.inLen.toNat ∧
      s.terminal = s.decodeFail .failed .decTermTrail s.eng.inPos) ∨
    (s.eng.recR = 0 ∧ s.eng.inPos = s.eng.inLen.toNat ∧ s.terminal = s.decodeDone) := by
  unfold State.terminal
  by_cases h1 : s.eng.recR = 0
  · by_cases h2 : s.eng.inPos = s.eng.inLen.toNat
    · exact .inr (.inr ⟨h1, h2, by simp [h1, h2]⟩)
    · exact .inr (.inl ⟨h1, h2, by simp [h1, h2]⟩)
  · exact .inl ⟨h1, by simp [h1]⟩

/-- What follows the literals of a record. -/
theorem afterLiterals_cases (s : State) :
    (s.eng.recOff = 0 ∧ s.afterLiterals = s.terminal) ∨
    (s.eng.recOff ≠ 0 ∧ s.eng.recR = mask s.eng.rLog2 ∧ s.afterLiterals = s.toStage .rChain) ∨
    (s.eng.recOff ≠ 0 ∧ s.eng.recR ≠ mask s.eng.rLog2 ∧ s.afterLiterals = s.repeatBody) := by
  unfold State.afterLiterals
  by_cases h1 : s.eng.recOff = 0
  · exact .inl ⟨h1, by simp [h1]⟩
  · by_cases h2 : s.eng.recR = mask s.eng.rLog2
    · exact .inr (.inl ⟨h1, h2, by simp [h1, h2]⟩)
    · exact .inr (.inr ⟨h1, h2, by simp [h1, h2]⟩)

/-- The literal bounds: two failures, no literals, or literals to copy. -/
theorem literalBounds_cases (s : State) :
    (s.eng.inLeft < s.eng.recN ∧ s.literalBounds = s.decodeFail s.exhausted .decLitIn s.eng.inPos) ∨
    (s.eng.recN ≤ s.eng.inLeft ∧ s.eng.capEff - s.eng.outPos < s.eng.recN ∧
      s.literalBounds = s.decodeFail .failed .decLitOut s.eng.inPos) ∨
    (s.eng.recN = 0 ∧ s.literalBounds = s.afterLiterals) ∨
    (s.eng.recN ≤ s.eng.inLeft ∧ s.eng.recN ≤ s.eng.capEff - s.eng.outPos ∧ s.eng.recN ≠ 0 ∧
      s.literalBounds = s.toStage .literal) := by
  unfold State.literalBounds
  by_cases h1 : s.eng.inLeft < s.eng.recN
  · exact .inl ⟨h1, by simp [h1]⟩
  · by_cases h2 : s.eng.capEff - s.eng.outPos < s.eng.recN
    · exact .inr (.inl ⟨Nat.le_of_not_lt h1, h2, by simp [h1, h2]⟩)
    · by_cases h3 : s.eng.recN = 0
      · exact .inr (.inr (.inl ⟨h3, by simp [h3]⟩))
      · exact .inr (.inr (.inr ⟨Nat.le_of_not_lt h1, Nat.le_of_not_lt h2, h3, by simp [h1, h2, h3]⟩))

/-! ## The encoder -/

/-- One iteration of the reference scan: a verified candidate, a miss, or the end. -/
theorem scanReference_cases (s : State) :
    (s.eng.p + Config.hashBytes ≤ s.eng.scanEnd ∧
      ∃ e', s.scanReference =
        { s with mem := s.withTableEntry (hash6 s.params.hashMul s.scanByte s.eng.p) s.eng.p, eng := e' } ∧
        ((s.tableEntry (hash6 s.params.hashMul s.scanByte s.eng.p) < s.eng.p ∧
            same4 s.scanByte (s.tableEntry (hash6 s.params.hashMul s.scanByte s.eng.p)) s.eng.p = true ∧
            e' = s.eng.takeMatch s.scanByte (s.tableEntry (hash6 s.params.hashMul s.scanByte s.eng.p)) s.eng.scanEnd) ∨
          e' = s.eng.missProbe)) ∨
    (s.eng.scanEnd < s.eng.p + Config.hashBytes ∧
      s.scanReference = s.scanDone (s.eng.parse ++ [⟨s.eng.scanEnd - s.eng.lit, 0, 0⟩])) := by
  unfold State.scanReference
  by_cases h1 : s.eng.p + Config.hashBytes ≤ s.eng.scanEnd
  · refine .inl ⟨h1, _, by simp only [h1, if_true]; rfl, ?_⟩
    split
    next h => exact .inl ⟨h.1, h.2, rfl⟩
    next => exact .inr rfl
  · exact .inr ⟨Nat.lt_of_not_le h1, by simp only [h1, if_false]⟩

/-- The four ends of an encode. -/
theorem emitStep_cases (s : State) :
    ((s.block.length : Int) ≤ s.eng.softEff ∧ s.emitStep = s.emitSuccess s.block) ∨
    (s.eng.softEff < s.block.length ∧ s.block.length ≤ s.eng.outCap.toNat ∧
      s.emitStep = s.emitFailure .incompressible .encSoftLimit) ∨
    (s.eng.softEff < s.block.length ∧ s.eng.outCap.toNat < s.block.length ∧
      (s.emitStep = ({ s with draws := s.draws + 1 } : State).emitFailure .writeError .encWrite ∨
       s.emitStep = ({ s with draws := s.draws + 1 } : State).emitFailure .incompressible .encSoftLimit)) := by
  unfold State.emitStep
  by_cases h1 : (s.block.length : Int) ≤ s.eng.softEff
  · exact .inl ⟨h1, by simp only [h1, if_true]⟩
  · by_cases h2 : s.block.length ≤ s.eng.outCap.toNat
    · exact .inr (.inl ⟨lt_of_not_ge h1, h2, by simp only [h1, h2, if_true, if_false]⟩)
    · refine .inr (.inr ⟨lt_of_not_ge h1, Nat.lt_of_not_le h2, ?_⟩)
      simp only [h1, h2, if_false]
      split
      · exact .inl rfl
      · exact .inr rfl

/-- The parse drawn under ANY is a valid one: the proposal where it is valid, else the all-literal parse. -/
theorem chooseParse_valid (draw : Nat) (c : BlockClass) (R : Nat → Byte) (start fin : Nat) (h : start ≤ fin) :
    validParse R c fin start (chooseParse draw c R start fin) = true := by
  unfold chooseParse
  split
  next hv => exact hv
  next => simp [literalParse, validParse]; omega

/-! ## The engine and the whole machine -/

/-- A running decoder runs an instruction, fails with an exhausted input, finishes, or is lost. -/
theorem decoderStep_cases (s : State) :
    (∃ i, fetch s = .instr i ∧ decoderStep s = exec i s) ∨
    (∃ c, fetch s = .exhausted c ∧ decoderStep s = .next (s.decodeFail s.exhausted c s.eng.inPos)) ∨
    (fetch s = .finished ∧ decoderStep s = .next s.decodeDone) ∨
    (fetch s = .lost ∧ decoderStep s = .fault .engineLost) := by
  unfold decoderStep
  cases h : fetch s <;> simp

/-- What one engine step can do. -/
theorem engineStep_cases (s : State) :
    (s.eng.phase = .idle ∧ engineStep s = .next s) ∨
    (s.eng.phase = .run ∧ s.eng.stage = .none ∧ engineStep s = .fault .engineLost) ∨
    (s.eng.phase = .run ∧ s.eng.stage = .scan ∧ engineStep s = .next s.scanStep) ∨
    (s.eng.phase = .run ∧ s.eng.stage = .emit ∧ engineStep s = .next s.emitStep) ∨
    (s.eng.phase = .run ∧
      (s.eng.stage = .classByte ∨ s.eng.stage = .tag ∨ s.eng.stage = .nrChain ∨ s.eng.stage = .literal ∨
        s.eng.stage = .rChain) ∧ engineStep s = decoderStep s) := by
  unfold engineStep
  cases h : s.eng.phase
  · simp
  · cases h2 : s.eng.stage <;> simp

/-- What one step of the machine can do. -/
theorem step_cases (s : State) :
    (s.host = [] ∧ step s = engineStep s) ∨
    (∃ e rest, s.host = e :: rest ∧ e.wait = 0 ∧ step s = landEvent e { s with host := rest }) ∨
    (∃ e rest, s.host = e :: rest ∧ e.wait ≠ 0 ∧
      step s = engineStep { s with host := { e with wait := e.wait - 1 } :: rest }) := by
  unfold step
  cases h : s.host with
  | nil => simp
  | cons e rest =>
    by_cases hw : e.wait = 0
    · exact .inr (.inl ⟨e, rest, rfl, hw, by simp [hw]⟩)
    · exact .inr (.inr ⟨e, rest, rfl, hw, by simp [hw]⟩)

/-! ## The host port -/

/-- Offset `off` of the register block lies `off` behind REG_BASE. -/
@[simp] theorem regDistance_offset (p : Params) (off : Nat) (h : off < 256) :
    regDistance p (p.regBase + BitVec.ofNat 64 off) = off := by
  rw [regDistance, BitVec.add_comm, BitVec.add_sub_cancel, BitVec.toNat_ofNat]
  omega

/-- An aligned 32-bit access at an offset of the block is the access to that register. -/
theorem regAccess_offset (p : Params) (off : Nat) (h : off < 256) (h4 : off % 4 = 0) :
    regAccess p (p.regBase + BitVec.ofNat 64 off) 4 = .register off := by
  simp [regAccess, regDistance_offset p off h, h, aligned32, h4]

/-- What an access is, with what says so. -/
theorem regAccess_cases (p : Params) (a : Addr) (w : Nat) :
    (regAccess p a w = .outside ∧ 256 ≤ regDistance p a ∧ regDistance p a + w ≤ 2 ^ 64) ∨
    (regAccess p a w = .odd ∧
      (regDistance p a < 256 ∧ (w ≠ 4 ∨ regDistance p a % 4 ≠ 0) ∨
        256 ≤ regDistance p a ∧ 2 ^ 64 < regDistance p a + w)) ∨
    (regAccess p a w = .register (regDistance p a) ∧ regDistance p a < 256 ∧ w = 4 ∧ regDistance p a % 4 = 0) := by
  unfold regAccess aligned32
  by_cases h1 : regDistance p a < 256
  · by_cases h2 : w = 4 ∧ regDistance p a % 4 = 0
    · simp [h1, h2]
    · have h3 : w ≠ 4 ∨ regDistance p a % 4 ≠ 0 := by tauto
      exact .inr (.inl ⟨by simp [h1]; tauto, .inl ⟨h1, h3⟩⟩)
  · by_cases h2 : 2 ^ 64 < regDistance p a + w
    · exact .inr (.inl ⟨by rw [if_neg h1, if_pos h2], .inr ⟨Nat.le_of_not_lt h1, h2⟩⟩)
    · exact .inl ⟨by rw [if_neg h1, if_neg h2], Nat.le_of_not_lt h1, Nat.le_of_not_lt h2⟩

/-- What a host register write does when it lands. -/
theorem landRegWrite_cases (s : State) (a : Addr) (w : Nat) (v : Reg) :
    (regAccess s.params a w = .outside ∧ landRegWrite s a w v = .next s) ∨
    (regAccess s.params a w = .odd ∧ landRegWrite s a w v = .refused .registerAccess) ∨
    (∃ off, regAccess s.params a w = .register off ∧ off ≠ cmdOffset ∧
      landRegWrite s a w v = .next (s.writeRegister off v)) ∨
    (regAccess s.params a w = .register cmdOffset ∧ s.busy = true ∧ landRegWrite s a w v = .next s) ∨
    (regAccess s.params a w = .register cmdOffset ∧ s.busy = false ∧
      landRegWrite s a w v = exec (decodeCmd v) s) := by
  unfold landRegWrite writeCommand
  cases h : regAccess s.params a w with
  | outside => simp
  | odd => simp
  | register off =>
    by_cases h2 : off = cmdOffset
    · subst h2
      cases h3 : s.busy <;> simp
    · simp [h2]

/-- What a host register read does when it lands. -/
theorem landRegRead_cases (s : State) (a : Addr) (w : Nat) :
    (regAccess s.params a w = .outside ∧ landRegRead s a w = .next s) ∨
    (regAccess s.params a w = .odd ∧ landRegRead s a w = .refused .registerAccess) ∨
    (∃ off, regAccess s.params a w = .register off ∧ landRegRead s a w = .next (s.readRegister off)) := by
  unfold landRegRead
  cases h : regAccess s.params a w <;> simp

end Sys2Proof.Machine
end

