-- ==== Sys2Proof/Laws/PerInstr.lean ====
section
/-! SUPPORT. The per-instruction family `EncodedSize`: an instruction's encoding has exactly the bytes its format has. -/

namespace Sys2Proof.Laws.EncodedSize

/-- The encoding of `i` has the size of its format (30_encoding.md R90, R92, R94, R97). -/
def Statement (i : Instr) : Prop := (Sys2Proof.encode i).length = i.format.size

theorem encode : Statement (.encode) := rfl
theorem decode : Statement (.decode) := rfl
theorem updateDeltaState : Statement (.updateDeltaState) := rfl
theorem encodeDelta : Statement (.encodeDelta) := rfl
theorem decodeDelta : Statement (.decodeDelta) := rfl
theorem illegalOp0 : Statement (.illegalOp0) := rfl
theorem illegalOp67 (lo : BitVec 1) : Statement (.illegalOp67 lo) := rfl
theorem illegalOp8F (lo : BitVec 3) : Statement (.illegalOp8F lo) := rfl
theorem hdrC0 : Statement (.hdrC0) := rfl
theorem hdrC1 : Statement (.hdrC1) := rfl
theorem hdrC2 : Statement (.hdrC2) := rfl
theorem hdrC3 : Statement (.hdrC3) := rfl
theorem hdrC4 : Statement (.hdrC4) := rfl
theorem badHdr05 : Statement (.badHdr05) := rfl
theorem badHdr0607 (lo : BitVec 1) : Statement (.badHdr0607 lo) := rfl
theorem badHdr080F (lo : BitVec 3) : Statement (.badHdr080F lo) := rfl
theorem badHdr101F (lo : BitVec 4) : Statement (.badHdr101F lo) := rfl
theorem badHdr203F (lo : BitVec 5) : Statement (.badHdr203F lo) := rfl
theorem badHdr407F (lo : BitVec 6) : Statement (.badHdr407F lo) := rfl
theorem badHdr80FF (lo : BitVec 7) : Statement (.badHdr80FF lo) := rfl
theorem endC0 (nr : BitVec 6) : Statement (.endC0 nr) := rfl
theorem badEndC0 (nr : BitVec 6) (r : BitVec 6) : Statement (.badEndC0 nr r) := rfl
theorem repC0 (nr : BitVec 6) (r : BitVec 6) (off : BitVec 12) : Statement (.repC0 nr r off) := rfl
theorem endC1 (nr : BitVec 5) : Statement (.endC1 nr) := rfl
theorem badEndC1 (nr : BitVec 5) (r : BitVec 6) : Statement (.badEndC1 nr r) := rfl
theorem repC1 (nr : BitVec 5) (r : BitVec 6) (off : BitVec 13) : Statement (.repC1 nr r off) := rfl
theorem endC2 (nr : BitVec 5) : Statement (.endC2 nr) := rfl
theorem badEndC2 (nr : BitVec 5) (r : BitVec 5) : Statement (.badEndC2 nr r) := rfl
theorem repC2 (nr : BitVec 5) (r : BitVec 5) (off : BitVec 14) : Statement (.repC2 nr r off) := rfl
theorem endC3 (nr : BitVec 4) : Statement (.endC3 nr) := rfl
theorem badEndC3 (nr : BitVec 4) (r : BitVec 5) : Statement (.badEndC3 nr r) := rfl
theorem repC3 (nr : BitVec 4) (r : BitVec 5) (off : BitVec 15) : Statement (.repC3 nr r off) := rfl
theorem endC4 (nr : BitVec 4) : Statement (.endC4 nr) := rfl
theorem badEndC4 (nr : BitVec 4) (r : BitVec 4) : Statement (.badEndC4 nr r) := rfl
theorem repC4 (nr : BitVec 4) (r : BitVec 4) (off : BitVec 16) : Statement (.repC4 nr r off) := rfl
theorem escCont : Statement (.escCont) := rfl
theorem escEnd (value : Byte) : Statement (.escEnd value) := rfl
theorem lit (value : Byte) : Statement (.lit value) := rfl

end Sys2Proof.Laws.EncodedSize
end

