-- ==== Sys2Proof/Tests/Slice0.lean ====
section
/-! SUPPORT. Tests: ill-formed terms are refused; words written out from the spec's encodings decode; one step of each
instruction gives what the spec's rules and vectors give; every statement with hypotheses has a state that meets them.
Expected values are the spec's (95_test_vectors.md) or worked out by hand from its rules. -/

-- One test after another: as parallel tasks of one text they wait for each other and use up the threads.
set_option Elab.async false

namespace Sys2Proof.Tests

open Sys2Proof Sys2Proof.Machine

/-! ## Well-formedness: one ill-formed term for each check -/

theorem test_wf_refuses_bad_end_with_zero_r :
    (Instr.badEndC0 5 0).wf = false ∧ (Instr.badEndC1 5 0).wf = false ∧ (Instr.badEndC2 5 0).wf = false ∧
    (Instr.badEndC3 5 0).wf = false ∧ (Instr.badEndC4 5 0).wf = false := by decide

theorem test_wf_refuses_rep_with_zero_offset :
    (Instr.repC0 1 2 0).wf = false ∧ (Instr.repC1 1 2 0).wf = false ∧ (Instr.repC2 1 2 0).wf = false ∧
    (Instr.repC3 1 2 0).wf = false ∧ (Instr.repC4 1 2 0).wf = false := by decide

theorem test_wf_refuses_esc_end_255 : (Instr.escEnd 255).wf = false := by decide

/-! ## Decoding: words written out bit by bit from 30_encoding.md -/

/-- R90: OP in bits 3:0, bits 31:4 ignored. -/
theorem test_decode_cmd :
    decodeCmd 0b0001#32 = .encode ∧ decodeCmd 0b0010#32 = .decode ∧ decodeCmd 0b0011#32 = .updateDeltaState ∧
    decodeCmd 0b0100#32 = .encodeDelta ∧ decodeCmd 0b0101#32 = .decodeDelta ∧ decodeCmd 0b0000#32 = .illegalOp0 ∧
    decodeCmd 0b0111#32 = .illegalOp67 1 ∧ decodeCmd 0b1101#32 = .illegalOp8F 0b101 ∧
    decodeCmd 0xFFFFFFF2#32 = .decode := by decide

/-- R93: the class byte. -/
theorem test_decode_class :
    decodeClass 0 = .hdrC0 ∧ decodeClass 1 = .hdrC1 ∧ decodeClass 2 = .hdrC2 ∧ decodeClass 3 = .hdrC3 ∧
    decodeClass 4 = .hdrC4 ∧ decodeClass 5 = .badHdr05 ∧ decodeClass 0b00000111 = .badHdr0607 1 ∧
    decodeClass 0b00001101 = .badHdr080F 0b101 ∧ decodeClass 0b00011001 = .badHdr101F 0b1001 ∧
    decodeClass 0b00110011 = .badHdr203F 0b10011 ∧ decodeClass 0b01100101 = .badHdr407F 0b100101 ∧
    decodeClass 0b10000011 = .badHdr80FF 0b0000011 := by decide

/-- R94: nr in 23:18, r in 17:12, off in 11:0. -/
theorem test_decode_tags_c0 :
    decodeTag .c0 0b100101_000000_000000000000 = .endC0 0b100101 ∧
    decodeTag .c0 0b000001_110001_000000000000 = .badEndC0 1 0b110001 ∧
    decodeTag .c0 0b000001_111111_000000000001 = .repC0 1 63 1 := by decide

/-- R94: nr in 23:19, r in 18:13, off in 12:0. -/
theorem test_decode_tags_c1 :
    decodeTag .c1 0b10011_000000_0000000000000 = .endC1 0b10011 ∧
    decodeTag .c1 0b00001_100001_0000000000000 = .badEndC1 1 0b100001 ∧
    decodeTag .c1 0b00001_000001_1000000000001 = .repC1 1 1 0b1000000000001 := by decide

/-- R94: nr in 23:19, r in 18:14, off in 13:0. -/
theorem test_decode_tags_c2 :
    decodeTag .c2 0b10011_00000_00000000000000 = .endC2 0b10011 ∧
    decodeTag .c2 0b00001_10001_00000000000000 = .badEndC2 1 0b10001 ∧
    decodeTag .c2 0b00011_00010_00000001100100 = .repC2 3 2 100 := by decide

/-- R94: nr in 23:20, r in 19:15, off in 14:0. -/
theorem test_decode_tags_c3 :
    decodeTag .c3 0b1001_00000_000000000000000 = .endC3 0b1001 ∧
    decodeTag .c3 0b0001_10001_000000000000000 = .badEndC3 1 0b10001 ∧
    decodeTag .c3 0b0001_11111_100000000000001 = .repC3 1 31 0b100000000000001 := by decide

/-- R94: nr in 23:20, r in 19:16, off in 15:0. -/
theorem test_decode_tags_c4 :
    decodeTag .c4 0b1001_0000_0000000000000000 = .endC4 0b1001 ∧
    decodeTag .c4 0b0001_1001_0000000000000000 = .badEndC4 1 0b1001 ∧
    decodeTag .c4 0b1111_1111_1111111111111111 = .repC4 15 15 65535 := by decide

/-- R63, V-P5: the lowest address holds the least significant byte. -/
theorem test_decode_tag_byte_order :
    decode (.tag .c0) [0x00, 0x10, 0x04] = .ok (.badEndC0 1 1, []) ∧
    decode (.tag .c1) [0x00, 0xF0, 0x07] = .ok (.repC1 0 63 4096, []) := by decide

/-- R97, R236: escape bytes and literal bytes; R99: an input that ends too soon is refused by name. -/
theorem test_decode_bytes :
    decode .esc [0xFF] = .ok (.escCont, []) ∧ decode .esc [0xFE] = .ok (.escEnd 0xFE, []) ∧
    decode .lit [0x61] = .ok (.lit 0x61, []) ∧ decode (.tag .c3) [1, 2] = .error .truncTag ∧
    decode .esc [] = .error .truncEsc := by decide

/-- The convention for bare table words (log entry 6). -/
theorem test_table_words :
    decodeTableWord 8 0x4 = some .encodeDelta ∧ decodeTableWord 8 0x20 = some (.badHdr203F 0) ∧
    decodeTableWord 8 0xFF = some .escCont ∧ decodeTableWord 24 0x07F001 = some (.repC0 1 63 1) := by decide

/-! ## Primitives: the vectors of Part 2 -/

/-- V-P2, V-P6, V-P7, V-P12. -/
theorem test_primitives :
    classOf 4096 = some .c0 ∧ classOf 4097 = some .c1 ∧ classOf 65536 = some .c4 ∧ classOf 65537 = none ∧
    escEncode 510 = [255, 255, 0] ∧ escDecode [0xFF, 0x01] = some (256, 2) ∧
    gainThreshold 6400 = 100 ∧ effectiveSoftLimit 0 4096 24 64 = -40 ∧ effectiveSoftLimit 5000 4096 8192 64 = 4032 ∧
    wcb 4096 .c0 = 4116 := by decide +kernel

/-- V-P9: the bytes 00 01 02 03 04 05 hash to 786, six bytes FF to 782. -/
theorem test_hash :
    hash6 Config.defaults.hashMul (fun i => BitVec.ofNat 8 i) 0 = 786 ∧
    hash6 Config.defaults.hashMul (fun _ => 0xFF) 3 = 782 := by decide +kernel

/-- V-P11: backward extension on "xabcdyabcd", and forward extension to the end. -/
theorem test_match_extension :
    backExtend (fun i => [0x78, 0x61, 0x62, 0x63, 0x64, 0x79, 0x61, 0x62, 0x63, 0x64].getD i 0) 5 2 7 = (1, 6) ∧
    matchLen (fun i => [0x78, 0x61, 0x62, 0x63, 0x64, 0x79, 0x61, 0x62, 0x63, 0x64].getD i 0) 1 6 10 = 4 := by decide

/-! ## Small states -/

/-- The next state, or the state after reset where there is none. -/
def after (r : Result) : State :=
  match r with
  | .next s => s
  | .fault _ => State.reset
  | .refused _ => State.reset

/-- Is the outcome a next state? -/
def goesOn (r : Result) : Bool :=
  match r with
  | .next _ => true
  | .fault _ => false
  | .refused _ => false

/-- An idle block with its argument registers set (all below 2^32). -/
def args (stateA dictA dictL inA inL outA outC : Nat) : State :=
  { State.reset with regs := { Regs.reset with
      stateAddrLo := BitVec.ofNat 32 stateA, dictAddrLo := BitVec.ofNat 32 dictA, dictLen := BitVec.ofNat 32 dictL,
      inAddrLo := BitVec.ofNat 32 inA, inLen := BitVec.ofNat 32 inL,
      outAddrLo := BitVec.ofNat 32 outA, outCap := BitVec.ofNat 32 outC } }

/-- Legal arguments of every command: a dictionary of 16 bytes before IN. -/
def encArgs : State := args 0x10000 0x0FF0 16 0x1000 100 0x4000 200

/-- Legal arguments of the decode commands: a dictionary of 4 bytes before OUT. -/
def decArgs : State := args 0 0x3FFC 4 0x1000 7 0x4000 64

/-- A decode at the word `bytes` of the format, with `inLen` and the fields of a record in progress. -/
def inStream (f : Format) (bytes : List Byte) (inLen : Nat) (upd : Engine → Engine) : State :=
  let s := State.reset.withStream f bytes
  { s with eng := upd { s.eng with inLen := BitVec.ofNat 32 inLen } }

/-- The block is running a command of the encoder at the stage `st`, over an input of 100 zero bytes. -/
def encoding (op : BitVec 4) (st : Stage) (upd : Engine → Engine) : State :=
  let s := (after (exec (if op = 3 then .updateDeltaState else if op = 4 then .encodeDelta else .encode) encArgs))
  { s with eng := upd { s.eng with stage := st } }

/-- The reference finder. -/
def reference (s : State) : State := { s with params := { s.params with matchFinder := .reference } }

/-- The state with one due host event. -/
def due (s : State) (act : HostAct) : State := { s with host := [⟨0, false, act⟩] }

/-! ## Steps: the commands -/

/-- R170, R176: 100 bytes start a scan in class 0. -/
theorem test_encode_starts :
    (after (exec .encode encArgs)).eng.stage = .scan ∧ (after (exec .encode encArgs)).regs.status = 1 ∧
    (after (exec .encode encArgs)).mem.read 0x4000 = 0 := by decide +kernel

/-- V-E3: 64 bytes give ENC_TOO_SMALL. -/
theorem test_encode_floor :
    (after (exec .encode (args 0x10000 0 0 0x1000 64 0x4000 200))).regs.cause = 0x10 := by decide +kernel

/-- R230: a decode starts at the class byte. -/
theorem test_decode_starts : (after (exec .decode decArgs)).eng.stage = .classByte := by decide +kernel

/-- R231: four bytes of input are too few. -/
theorem test_decode_short_input :
    (after (exec .decode (args 0 0 0 0x1000 4 0x4000 64))).regs.cause = 0x02 := by decide +kernel

/-- R200: the scan of a dictionary starts at 0. -/
theorem test_update_starts :
    (after (exec .updateDeltaState encArgs)).eng.stage = .scan ∧ (after (exec .updateDeltaState encArgs)).eng.p = 0 := by
  decide +kernel

/-- R205: the scan starts behind the dictionary. -/
theorem test_encode_delta_starts : (after (exec .encodeDelta encArgs)).eng.p = 16 := by decide +kernel

/-- R71, R205: a dictionary that is not adjacent gives ARG_RANGE. -/
theorem test_encode_delta_adjacency :
    (after (exec .encodeDelta (args 0x10000 0x0FF0 15 0x1000 100 0x4000 200))).regs.cause = 0x03 := by decide +kernel

/-- R259: a delta decode may reach the dictionary. -/
theorem test_decode_delta_starts : (after (exec .decodeDelta decArgs)).eng.avail = 4 := by decide +kernel

/-- R91: CMD = 7 gives RESULT = -1 and CAUSE = 0x04. -/
theorem test_illegal_commands :
    (after (exec (decodeCmd 7) encArgs)).regs.result = 0xFFFFFFFF ∧
    (after (exec (decodeCmd 7) encArgs)).regs.cause = 0x04 ∧ (after (exec (decodeCmd 0) encArgs)).regs.cause = 0x04 ∧
    (after (exec (decodeCmd 15) encArgs)).regs.cmd = 15 := by decide +kernel

/-- R67 (c): a decode whose IN and OUT overlap is refused. -/
theorem test_overlap_refused : exec .decode (args 0 0 0 0x1000 7 0x1003 64) = .refused .regionsOverlap := by
  rfl

/-! ## Steps: the stream -/

/-- R232: a class byte selects its widths. -/
theorem test_class_bytes :
    (after (step (inStream .classByte [0] 8 id))).eng.nrLog2 = 6 ∧
    (after (step (inStream .classByte [1] 8 id))).eng.rLog2 = 6 ∧
    (after (step (inStream .classByte [2] 8 id))).eng.offLog2 = 14 ∧
    (after (step (inStream .classByte [3] 8 id))).eng.offLog2 = 15 ∧
    (after (step (inStream .classByte [4] 8 id))).eng.rLog2 = 4 := by decide +kernel

/-- R232: an illegal class byte gives DEC_BAD_CLASS. -/
theorem test_bad_class_bytes :
    ([5, 6, 9, 0x1F, 0x20, 0x55, 0xFF].map fun b => (after (step (inStream .classByte [b] 8 id))).regs.cause) =
      [0x20, 0x20, 0x20, 0x20, 0x20, 0x20, 0x20] := by decide +kernel

/-- R245: an empty END that is the last 3 bytes finishes with the output position (here 9). -/
theorem test_end_finishes :
    ([BlockClass.c0, .c1, .c2, .c3, .c4].map fun c =>
      (after (step (inStream (.tag c) [0, 0, 0] 4 fun e => { e with outPos := 9 }))).regs.result) = [9, 9, 9, 9, 9] := by
  decide +kernel

/-- R245: END with one byte left over gives DEC_TERM_TRAIL at the cursor 4. -/
theorem test_end_trail :
    (after (step (inStream (.tag .c0) [0, 0, 0] 5 id))).regs.cause = 0x26 ∧
    (after (step (inStream (.tag .c0) [0, 0, 0] 5 id))).regs.faultPos = 4 := by decide +kernel

/-- R245: BAD_END with no literals gives DEC_TERM_R (the tags have r_field = 1). -/
theorem test_bad_end :
    [(after (step (inStream (.tag .c0) [0, 0x10, 0] 4 id))).regs.cause,
     (after (step (inStream (.tag .c1) [0, 0x20, 0] 4 id))).regs.cause,
     (after (step (inStream (.tag .c2) [0, 0x40, 0] 4 id))).regs.cause,
     (after (step (inStream (.tag .c3) [0, 0x80, 0] 4 id))).regs.cause,
     (after (step (inStream (.tag .c4) [0, 0, 1] 4 id))).regs.cause] = [0x25, 0x25, 0x25, 0x25, 0x25] := by
  decide +kernel

/-- V-P4, R240: the tags of (nf, rf, of) = (1, 1, 1) wait for one literal, and give a repeat of 5 at distance 1. -/
theorem test_rep_fields :
    ([(BlockClass.c0, [0x01, 0x10, 0x04]), (.c1, [0x01, 0x20, 0x08]), (.c2, [0x01, 0x40, 0x08]),
      (.c3, [0x01, 0x80, 0x10]), (.c4, [0x01, 0x00, 0x11])].map fun (c, bs) =>
        let e := (after (step (inStream (.tag c) bs 8 id))).eng
        (e.stage, e.recN, e.recM, e.recOff)) = List.replicate 5 (.literal, 1, 5, 1) := by decide +kernel

/-- V-D14: `REP "", 4, 5` over the dictionary "abcd" gives "abcda". -/
theorem test_rep_copies_from_dictionary :
    let s := inStream (.tag .c0) [0x04, 0x10, 0x00] 8 fun e =>
      { e with op := opDecodeDelta, dictLen := 4, dictAddr := 0x1FFC }
    let t := after (step { s with mem := s.mem.writeBytes 0x1FFC [0x61, 0x62, 0x63, 0x64] })
    t.mem.readBytes 0x2000 5 = [0x61, 0x62, 0x63, 0x64, 0x61] ∧ t.eng.outPos = 5 := by decide +kernel

/-- R241: an offset past the output gives DEC_OFFSET behind the record. -/
theorem test_rep_offset_checked :
    (after (step (inStream (.tag .c0) [0x04, 0x10, 0x00] 8 fun e => { e with outPos := 3 }))).regs.cause = 0x27 := by
  decide +kernel

/-- R136: FF adds 255 and the chain goes on; 01 ends it: V-P8's chain FF 01 has the value 256. -/
theorem test_escape_bytes :
    (after (step (inStream .esc [0xFF] 8 fun e => { e with recN := 63 }))).eng.recN = 318 ∧
    (after (step (inStream .esc [0x01] 800 fun e => { e with recN := 318, outCap := 4096, cls := .c0 }))).eng.recN = 319 ∧
    (after (step (inStream .esc [0x01] 800 fun e => { e with recN := 318, outCap := 4096 }))).eng.stage = .literal := by
  decide +kernel

/-- R240: the end of a repeat-length chain copies: 4 + 63 + 2 bytes at distance 1. -/
theorem test_escape_end_copies :
    let t := after (step (inStream .esc [0x02] 8 fun e =>
      { e with stage := .rChain, recM := 67, recOff := 1, outPos := 1, outCap := 100 }))
    t.eng.outPos = 70 ∧ t.eng.stage = .tag := by decide +kernel

/-- R236: a literal goes to OUT, and the last one of a REP is followed by the copy (R240: "a" then 5 more). -/
theorem test_literal_bytes :
    (after (step (inStream .lit [0x61] 8 fun e => { e with recN := 2 }))).mem.read 0x2000 = 0x61 ∧
    (after (step (inStream .lit [0x61] 8 fun e => { e with recN := 1, recR := 1, recM := 5, recOff := 1 }))).mem.readBytes
      0x2000 6 = [0x61, 0x61, 0x61, 0x61, 0x61, 0x61] := by decide +kernel

/-- R234, R235: at the end of IN a record boundary finishes; two bytes left are a truncated tag. -/
theorem test_end_of_input :
    (after (step (inStream (.tag .c0) [] 5 fun e => { e with inPos := 5, outPos := 7 }))).regs.result = 7 ∧
    (after (step (inStream (.tag .c0) [] 5 fun e => { e with inPos := 3 }))).regs.cause = 0x21 := by decide +kernel

/-! ## Steps: the encoder, the host port -/

/-- R191, R193: on zero bytes the probe at 0 misses (its candidate 0 is not below it), the probe at 1 hits candidate 0, and
the match runs to the end (100 bytes). -/
theorem test_reference_probes :
    (after (step (reference (encoding 1 .scan id)))).eng.p = 1 ∧
    (after (step (reference (encoding 1 .scan fun e => { e with p := 1, ctr := 3 })))).eng.parse = [⟨1, 1, 99⟩] := by
  decide +kernel

/-- R196, R200: behind the last probe UPDATE_DELTA_STATE finishes with 0. -/
theorem test_update_finishes :
    (after (step (reference (encoding 3 .scan fun e => { e with p := 11 })))).regs.result = 0 ∧
    (after (step (reference (encoding 3 .scan fun e => { e with p := 11 })))).regs.status = 2 := by decide +kernel

/-- R197: `(1, 1, 99)` and the terminal in class 0 are 01 F0 07, the literal, the chain 20, and 00 00 00; with the class
byte 9 bytes. -/
theorem test_emit_block :
    (after (step (encoding 1 .emit fun e => { e with parse := [⟨1, 1, 99⟩, ⟨0, 0, 0⟩] }))).regs.result = 9 ∧
    (after (step (encoding 1 .emit fun e => { e with parse := [⟨1, 1, 99⟩, ⟨0, 0, 0⟩] }))).mem.readBytes 0x4000 9 =
      [0x00, 0x01, 0xF0, 0x07, 0x00, 0x20, 0x00, 0x00, 0x00] := by decide +kernel

/-- R22: ID reads its constant; an unlisted offset reads 0. -/
theorem test_register_reads :
    (after (step { State.reset with host := [⟨0, false, .regRead 0 4⟩] })).busData = 0x4B345A4C ∧
    (after (step { encArgs with host := [⟨0, false, .regRead 0x38 4⟩] })).busData = 0 := by decide +kernel

/-- R292: a completion in the cycle of the host's clear leaves DONE_PEND set. -/
theorem test_set_wins :
    (after (step { inStream (.tag .c0) [0, 0, 0] 4 id with
      host := [⟨0, true, .regWrite 0x24 4 1⟩] })).regs.irqPend = 1 := by decide +kernel

/-- The placed word runs: command 0x9 is illegal, the class byte 0x21 is illegal, the tag 0x041001 waits for a literal. -/
theorem test_with_fetch_word :
    (after (step (State.reset.withFetchWord 8 0x9))).regs.cmd = 9 ∧
    (after (step (State.reset.withFetchWord 8 0x21))).regs.cause = 0x20 ∧
    (after (step (State.reset.withFetchWord 24 0x041001))).eng.stage = .literal := by decide +kernel

/-! ## Witnesses: states and operands that meet the hypotheses of each statement -/

/-- A running decode at a tag of class 0, 7 bytes left, nothing produced. -/
def atTag : State := inStream (.tag .c0) [0, 0, 0] 8 id

/-- A running decode in the last literal of a REP with recR = 1 and distance 1. -/
def atLastLiteral : State := inStream .lit [0x61] 8 fun e => { e with recR := 1, recM := 5, recOff := 1 }

/-- A running decode in the last byte of a repeat-length chain. -/
def atRepeatChain : State := inStream .esc [0x02] 8 fun e =>
  { e with stage := .rChain, recM := 67, recOff := 1, outPos := 1, outCap := 100 }

/-- A scan under the reference finder, at its second probe of 100 zero bytes. -/
def atProbe : State := reference (encoding 1 .scan fun e => { e with p := 1, ctr := 3 })

/-- An emission of 100 zero bytes as one literal, one repeat of 99 and the empty terminal. -/
def atEmit : State := encoding 1 .emit fun e => { e with parse := [⟨1, 1, 99⟩, ⟨0, 0, 0⟩] }

theorem atTag_engineInv : EngineInv atTag := fun _ => by
  show Engine.decoding _ ∧ Engine.widthsOk _
  unfold Engine.decoding Engine.widthsOk
  decide +kernel

theorem atProbe_engineInv : EngineInv atProbe := fun _ => by
  show Engine.encoding _ ∧ _
  unfold Engine.encoding Engine.widthsOk
  decide +kernel

theorem atEmit_engineInv : EngineInv atEmit := fun _ => by
  show Engine.encoding _ ∧ _
  unfold Engine.encoding Engine.widthsOk
  decide +kernel

theorem atTag_tagOf : tagOf atTag (.endC0 0) 0 0 0 := ⟨rfl, by unfold Engine.widthsOk; decide⟩

theorem witness_DecodeOfEncodeIsIdentity :
    (Instr.repC0 63 63 4095).wf = true ∧ (Instr.escEnd 254).wf = true ∧ (Instr.badEndC4 15 1).wf = true := by decide

theorem witness_StreamWordsReencode :
    (Format.tag .c0) ≠ .cmd ∧ decode (.tag .c0) [0x01, 0xF0, 0x07, 0x00] = .ok (.repC0 1 63 1, [0x00]) := by decide

theorem witness_CommandWordSelectsByOpcode : ∃ t, exec (decodeCmd 0x17) encArgs = .next t := ⟨_, rfl⟩

theorem witness_PackedTagUnpacks :
    63 < 2 ^ (classParams .c0).nrLog2 ∧ 63 < 2 ^ (classParams .c0).rLog2 ∧ 4095 < 2 ^ (classParams .c0).offLog2 := by
  decide

theorem witness_CeilLog2IsLeastPower : 1 ≤ 1 ∧ 2 ^ 12 ≤ 4097 ∧ 4097 ≤ 2 ^ 13 := by decide

theorem witness_ClassSelectorRoundsUp :
    (1 ≤ 1 ∧ 1 ≤ 65536) ∧ (1 ≤ 65536 ∧ 65536 ≤ 65536) ∧ 65536 < 65537 ∧ 4096 ≤ 2 ^ (12 + BlockClass.c0.toNat) := by
  decide

theorem witness_GainAndSoftLimit :
    validParse (fun _ => 0) .c0 0 0 [⟨0, 0, 0⟩] = true ∧
    ((4032 : Int) = (min 4096 8192 : Nat) - (gainThreshold 4096 : Nat)) ∧
    (5000 = 0 ∨ (4032 : Int) < (5000 : Nat)) ∧ ¬(24 = 0 ∨ (4032 : Int) < (24 : Nat)) := by decide

theorem witness_MatchExtensionIsMaximal :
    (1 + 4 ≤ 5 ∧ same4 (fun _ => 0) 0 1 = true) ∧ (0 < 1 ∧ 1 ≤ 1) ∧ (2 < 7 ∧ 5 ≤ 7) := by decide

theorem witness_WorstCaseBoundsEveryParse :
    validParse (fun _ => 0) .c0 100 0 [⟨1, 1, 99⟩, ⟨0, 0, 0⟩] = true ∧
    validParse (fun _ => 0) .c0 0 0 [⟨0, 0, 0⟩] = true := by decide +kernel

theorem witness_IllegalCommandFailsAtOnce :
    ({ State.reset with params := { Config.defaults with deltaPresent := false } } : State).params.deltaPresent = false :=
  rfl

theorem witness_EncodeArgumentChecks :
    ((args 0 0 0 0x1000 100 0x4000 200).latched 1).stateAddr = 0 ∧
    (((args 0x10000 0 0 0x1000 100 0x4000 0).latched 1).stateAddr ≠ 0 ∧
      ((args 0x10000 0 0 0x1000 100 0x4000 0).latched 1).inAddr ≠ 0 ∧
      ((args 0x10000 0 0 0x1000 100 0x4000 0).latched 1).outAddr ≠ 0 ∧
      ((args 0x10000 0 0 0x1000 100 0x4000 0).latched 1).outCap = 0) ∧
    (∃ s : State, (s.latched 1).stateAddr ≠ 0 ∧ (s.latched 1).inAddr ≠ 0 ∧ (s.latched 1).outAddr ≠ 0 ∧
      (s.latched 1).inLen ≠ 0 ∧ (s.latched 1).outCap ≠ 0 ∧
      2 ^ 64 < (s.latched 1).inAddr.toNat + (s.latched 1).inLen.toNat) := by
  refine ⟨by decide, by decide, { encArgs with regs := { encArgs.regs with
    inAddrHi := 0xFFFFFFFF, inAddrLo := 0xFFFFFFFF, inLen := 2 } }, by decide, by decide, by decide, by decide,
    by decide, by decide⟩

theorem witness_DeltaArgumentChecks :
    (encArgs.params.deltaPresent = true ∧ ((args 0 0x0FF0 16 0x1000 100 0x4000 200).latched 3).stateAddr = 0) ∧
    (((args 0x10000 0x0FF0 65537 0x1000 100 0x4000 200).latched 3).stateAddr ≠ 0 ∧
      ((args 0x10000 0x0FF0 65537 0x1000 100 0x4000 200).latched 3).dictAddr ≠ 0 ∧
      65536 < ((args 0x10000 0x0FF0 65537 0x1000 100 0x4000 200).latched 3).dictLen.toNat) ∧
    (0 < ((args 0x10000 0 1 0x1000 100 0x4000 200).latched 4).dictLen.toNat ∧
      ((args 0x10000 0 1 0x1000 100 0x4000 200).latched 4).dictAddr = 0) ∧
    (((args 0x10000 0 0 0x1000 0 0x4000 200).latched 4).stateAddr ≠ 0 ∧
      ((args 0x10000 0 0 0x1000 0 0x4000 200).latched 4).inAddr ≠ 0 ∧
      ((args 0x10000 0 0 0x1000 0 0x4000 200).latched 4).outAddr ≠ 0 ∧
      ((args 0x10000 0 0 0x1000 0 0x4000 200).latched 4).dictLen.toNat = 0 ∧
      ((args 0x10000 0 0 0x1000 0 0x4000 200).latched 4).inLen = 0) ∧
    (∃ s : State, (s.latched 4).stateAddr ≠ 0 ∧ (s.latched 4).inAddr ≠ 0 ∧ (s.latched 4).outAddr ≠ 0 ∧
      (s.latched 4).dictAddr ≠ 0 ∧ (s.latched 4).inLen ≠ 0 ∧ (s.latched 4).outCap ≠ 0 ∧
      2 ^ 64 < (s.latched 4).stateAddr.toNat + 8192) := by
  refine ⟨by decide, by decide, by decide, by decide, { encArgs with regs := { encArgs.regs with
    stateAddrHi := 0xFFFFFFFF, stateAddrLo := 0xFFFFE001 } }, by decide, by decide, by decide, by decide, by decide,
    by decide, by decide⟩

theorem witness_DecodeArgumentChecks :
    ((args 0 0 0 0 7 0x4000 64).latched 2).inAddr = 0 ∧
    (((args 0 0 0 0x1000 4 0x4000 64).latched 2).inAddr ≠ 0 ∧ ((args 0 0 0 0x1000 4 0x4000 64).latched 2).outAddr ≠ 0 ∧
      ((args 0 0 0 0x1000 4 0x4000 64).latched 2).inLen.toNat ≤ 4) ∧
    (∃ s : State, (s.latched 2).inAddr ≠ 0 ∧ (s.latched 2).outAddr ≠ 0 ∧ 4 < (s.latched 2).inLen.toNat ∧
      (s.latched 2).outCap ≠ 0 ∧ 2 ^ 64 < (s.latched 2).outAddr.toNat + (s.latched 2).outCap.toNat) ∧
    (0 < ((args 0 0 1 0x1000 7 0x4000 64).latched 5).dictLen.toNat ∧
      ((args 0 0 1 0x1000 7 0x4000 64).latched 5).dictAddr = 0) ∧
    (((args 0 0 0 0x1000 5 0x4000 0).latched 5).inAddr ≠ 0 ∧ ((args 0 0 0 0x1000 5 0x4000 0).latched 5).outAddr ≠ 0 ∧
      ((args 0 0 0 0x1000 5 0x4000 0).latched 5).dictLen.toNat = 0 ∧
      ((args 0 0 0 0x1000 5 0x4000 0).latched 5).outCap = 0) ∧
    (((args 0 0x3FFC 3 0x1000 5 0x4000 64).latched 5).inAddr ≠ 0 ∧
      ((args 0 0x3FFC 3 0x1000 5 0x4000 64).latched 5).outAddr ≠ 0 ∧
      ((args 0 0x3FFC 3 0x1000 5 0x4000 64).latched 5).dictAddr ≠ 0 ∧
      4 < ((args 0 0x3FFC 3 0x1000 5 0x4000 64).latched 5).inLen.toNat ∧
      ((args 0 0x3FFC 3 0x1000 5 0x4000 64).latched 5).outCap ≠ 0 ∧
      0 < ((args 0 0x3FFC 3 0x1000 5 0x4000 64).latched 5).dictLen.toNat ∧
      ((args 0 0x3FFC 3 0x1000 5 0x4000 64).latched 5).outAddr.toNat ≠ 0x3FFC + 3) := by
  refine ⟨by decide, by decide, ⟨{ decArgs with regs := { decArgs.regs with
    outAddrHi := 0xFFFFFFFF, outAddrLo := 0xFFFFFFFF, outCap := 2 } }, by decide, by decide, by decide, by decide,
    by decide⟩, by decide, by decide, by decide⟩

theorem witness_EncodeFloorAndRange :
    (1 ≤ 64 ∧ 1 ≤ 65) ∧
    (encodeArgs ((args 0x10000 0 0 0x1000 64 0x4000 200).latched 1) = none ∧
      ((args 0x10000 0 0 0x1000 64 0x4000 200).latched 1).inLen.toNat ≤ 64) ∧
    (encodeArgs ((args 0x10000 0 0 0x1000 65537 0x4000 200).latched 1) = none ∧
      65536 < ((args 0x10000 0 0 0x1000 65537 0x4000 200).latched 1).inLen.toNat) ∧
    (encodeDeltaArgs ((args 0x10000 0x0FF0 16 0x1000 64 0x4000 200).latched 4) = none ∧
      ((args 0x10000 0x0FF0 16 0x1000 64 0x4000 200).latched 4).inLen.toNat ≤ 64) ∧
    (encodeDeltaArgs ((args 0x10000 0x0FF0 15 0x1000 65 0x4000 200).latched 4) = none ∧
      64 < ((args 0x10000 0x0FF0 15 0x1000 65 0x4000 200).latched 4).inLen.toNat ∧
      0 < ((args 0x10000 0x0FF0 15 0x1000 65 0x4000 200).latched 4).dictLen.toNat ∧
      ((args 0x10000 0x0FF0 15 0x1000 65 0x4000 200).latched 4).inAddr.toNat ≠ 0x0FF0 + 15) ∧
    (encodeDeltaArgs ((args 0x10000 0x0FF0 65472 0x1000 65 0x4000 200).latched 4) = none ∧
      65536 < ((args 0x10000 0x0FF0 65472 0x1000 65 0x4000 200).latched 4).dictLen.toNat + 65) := by decide

theorem encArgs_launchOk :
    LaunchOk encArgs.params (encArgs.latched 1) ∧ LaunchOk encArgs.params (encArgs.latched 3) ∧
    LaunchOk encArgs.params (encArgs.latched 4) := by unfold LaunchOk; decide +kernel

theorem decArgs_launchOk :
    LaunchOk decArgs.params (decArgs.latched 2) ∧ LaunchOk decArgs.params (decArgs.latched 5) := by
  unfold LaunchOk; decide +kernel

theorem witness_EncodeStartsItsScan :
    (encArgs.latched 1).stateAddr ≠ 0 ∧ (encArgs.latched 1).inAddr ≠ 0 ∧ (encArgs.latched 1).outAddr ≠ 0 ∧
    (encArgs.latched 1).outCap ≠ 0 ∧
    (encArgs.latched 1).inAddr.toNat + (encArgs.latched 1).inLen.toNat ≤ 2 ^ 64 ∧
    (encArgs.latched 1).outAddr.toNat + (encArgs.latched 1).outCap.toNat ≤ 2 ^ 64 ∧
    (encArgs.latched 1).stateAddr.toNat + 8192 ≤ 2 ^ 64 ∧ 64 < (encArgs.latched 1).inLen.toNat ∧
    (encArgs.latched 1).inLen.toNat ≤ 65536 ∧ LaunchOk encArgs.params (encArgs.latched 1) :=
  ⟨by decide, by decide, by decide, by decide, by decide, by decide, by decide, by decide, by decide,
    encArgs_launchOk.1⟩

theorem witness_EncodeDeltaStartsItsScan :
    encArgs.params.deltaPresent = true ∧ (encArgs.latched 4).stateAddr ≠ 0 ∧ (encArgs.latched 4).inAddr ≠ 0 ∧
    (encArgs.latched 4).outAddr ≠ 0 ∧ (encArgs.latched 4).dictAddr ≠ 0 ∧ (encArgs.latched 4).outCap ≠ 0 ∧
    (encArgs.latched 4).inAddr.toNat + (encArgs.latched 4).inLen.toNat ≤ 2 ^ 64 ∧
    (encArgs.latched 4).outAddr.toNat + (encArgs.latched 4).outCap.toNat ≤ 2 ^ 64 ∧
    (encArgs.latched 4).stateAddr.toNat + 8192 ≤ 2 ^ 64 ∧
    (encArgs.latched 4).dictAddr.toNat + (encArgs.latched 4).dictLen.toNat ≤ 2 ^ 64 ∧
    64 < (encArgs.latched 4).inLen.toNat ∧
    (encArgs.latched 4).dictLen.toNat + (encArgs.latched 4).inLen.toNat ≤ 65536 ∧
    (encArgs.latched 4).inAddr.toNat = (encArgs.latched 4).dictAddr.toNat + (encArgs.latched 4).dictLen.toNat ∧
    LaunchOk encArgs.params (encArgs.latched 4) :=
  ⟨by decide, by decide, by decide, by decide, by decide, by decide, by decide, by decide, by decide, by decide,
    by decide, by decide, by decide, encArgs_launchOk.2.2⟩

theorem witness_UpdateStartsItsScan :
    encArgs.params.deltaPresent = true ∧ (encArgs.latched 3).stateAddr ≠ 0 ∧ (encArgs.latched 3).dictAddr ≠ 0 ∧
    (encArgs.latched 3).dictLen.toNat ≤ 65536 ∧
    (encArgs.latched 3).dictAddr.toNat + (encArgs.latched 3).dictLen.toNat ≤ 2 ^ 64 ∧
    (encArgs.latched 3).stateAddr.toNat + 8192 ≤ 2 ^ 64 ∧ LaunchOk encArgs.params (encArgs.latched 3) :=
  ⟨by decide, by decide, by decide, by decide, by decide, by decide, encArgs_launchOk.2.1⟩

theorem witness_DecodeStartsAtClassByte :
    ((decArgs.latched 2).inAddr ≠ 0 ∧ (decArgs.latched 2).outAddr ≠ 0 ∧ 4 < (decArgs.latched 2).inLen.toNat ∧
      (decArgs.latched 2).outCap ≠ 0 ∧
      (decArgs.latched 2).inAddr.toNat + (decArgs.latched 2).inLen.toNat ≤ 2 ^ 64 ∧
      (decArgs.latched 2).outAddr.toNat + (decArgs.latched 2).outCap.toNat ≤ 2 ^ 64 ∧
      LaunchOk decArgs.params (decArgs.latched 2)) ∧
    ((decArgs.latched 5).dictAddr ≠ 0 ∧
      (decArgs.latched 5).dictAddr.toNat + (decArgs.latched 5).dictLen.toNat ≤ 2 ^ 64 ∧
      (decArgs.latched 5).outAddr.toNat = (decArgs.latched 5).dictAddr.toNat + (decArgs.latched 5).dictLen.toNat ∧
      LaunchOk decArgs.params (decArgs.latched 5)) :=
  ⟨⟨by decide, by decide, by decide, by decide, by decide, by decide, decArgs_launchOk.1⟩, by decide, by decide,
    by decide, decArgs_launchOk.2⟩

/-- A state buffer one byte too short: the launch premise of R330 is broken. -/
def shortBuffer : State := { encArgs with params := { encArgs.params with stateBufLen := 8191 } }

theorem witness_BrokenLaunchIsRefused :
    (decodeArgs ((args 0 0 0 0x1000 7 0x1006 64).latched 2) = none ∧
      ¬LaunchOk Config.defaults ((args 0 0 0 0x1000 7 0x1006 64).latched 2)) ∧
    (decodeDeltaArgs ((args 0 0 0 0x1000 7 0x1006 64).latched 5) = none ∧
      ¬LaunchOk Config.defaults ((args 0 0 0 0x1000 7 0x1006 64).latched 5)) ∧
    (shortBuffer.params.deltaPresent = true ∧ updateArgs (shortBuffer.latched 3) = none ∧
      ¬LaunchOk shortBuffer.params (shortBuffer.latched 3)) ∧
    (encodeArgs (shortBuffer.latched 1) = none ∧ 64 < (shortBuffer.latched 1).inLen.toNat ∧
      (shortBuffer.latched 1).inLen.toNat ≤ 65536 ∧ ¬LaunchOk shortBuffer.params (shortBuffer.latched 1)) ∧
    (encodeDeltaArgs (shortBuffer.latched 4) = none ∧ encodeDeltaRange (shortBuffer.latched 4) = none ∧
      64 < (shortBuffer.latched 4).inLen.toNat ∧ ¬LaunchOk shortBuffer.params (shortBuffer.latched 4)) := by
  unfold LaunchOk; decide +kernel

theorem witness_CommandAcceptedOrCompleted :
    (∃ t, exec (decodeCmd 0x7) encArgs = .next t) ∧ goesOn (exec (decodeCmd 0x1) encArgs) = true := by
  exact ⟨⟨_, rfl⟩, by decide +kernel⟩

theorem witness_ClassByteSelectsOrFails :
    (Instr.hdrC4.format = .classByte ∧ encode .hdrC4 = [BitVec.ofNat 8 BlockClass.c4.toNat]) ∧
    (Instr.badHdr05.format = .classByte ∧ encode .badHdr05 = [5] ∧ 5 ≤ (5 : Byte).toNat) ∧
    (encode (.badHdr80FF 127) = [255]) := by decide

theorem witness_FullLiteralFieldOpensChain :
    tagOf atTag (.repC0 63 1 1) 63 1 1 ∧ 63 = mask (classParams atTag.eng.cls).nrLog2 :=
  ⟨⟨rfl, by unfold Engine.widthsOk; decide⟩, by decide⟩

theorem witness_KnownLiteralsAreAwaited :
    LiteralsKnown atTag (.endC0 4) (atTag.eng.pastTag 4 0 0) ∧ 0 < (atTag.eng.pastTag 4 0 0).recN ∧
    (atTag.eng.pastTag 4 0 0).recN ≤ (atTag.eng.pastTag 4 0 0).inLen.toNat - (atTag.eng.pastTag 4 0 0).inPos ∧
    (atTag.eng.pastTag 4 0 0).recN ≤ (atTag.eng.pastTag 4 0 0).capEff - (atTag.eng.pastTag 4 0 0).outPos :=
  ⟨.inl ⟨4, 0, 0, ⟨rfl, by unfold Engine.widthsOk; decide⟩, by decide, rfl⟩, by decide, by decide, by decide⟩

theorem witness_LiteralBoundsFail :
    (LiteralsKnown atTag (.endC0 5) (atTag.eng.pastTag 5 0 0) ∧
      (atTag.eng.pastTag 5 0 0).inLen.toNat - (atTag.eng.pastTag 5 0 0).inPos < 5) ∧
    (let s := inStream (.tag .c0) [0, 0, 8] 8 fun e => { e with outCap := 1 };
      LiteralsKnown s (.endC0 2) (s.eng.pastTag 2 0 0) ∧ 2 ≤ (s.eng.pastTag 2 0 0).inLen.toNat - 4 ∧
      (s.eng.pastTag 2 0 0).capEff - (s.eng.pastTag 2 0 0).outPos < 2) :=
  ⟨⟨.inl ⟨5, 0, 0, ⟨rfl, by unfold Engine.widthsOk; decide⟩, by decide, rfl⟩, by decide⟩,
    .inl ⟨2, 0, 0, ⟨rfl, by unfold Engine.widthsOk; decide⟩, by decide, rfl⟩, by decide, by decide⟩

theorem witness_LiteralByteIsCopied : 1 < (inStream .lit [0x61] 8 fun e => { e with recN := 2 }).eng.recN := by decide

theorem witness_EscapeContinueAdds255 :
    (inStream .esc [0xFF] 8 id).eng.stage = .nrChain ∧ atRepeatChain.eng.stage = .rChain := by decide

theorem witness_FullRepeatFieldOpensChain :
    LiteralsDone atTag (.repC0 0 63 1) (atTag.eng.pastTag 0 63 1) atTag.mem ∧ (atTag.eng.pastTag 0 63 1).recOff ≠ 0 ∧
    (atTag.eng.pastTag 0 63 1).recR = mask (classParams atTag.eng.cls).rLog2 :=
  ⟨.inl ⟨63, 1, ⟨rfl, by unfold Engine.widthsOk; decide⟩, rfl, rfl⟩, by decide, by decide⟩

theorem witness_RepeatCopyReplicates :
    RepeatKnown atRepeatChain (.escEnd 2)
      { atRepeatChain.eng with inPos := atRepeatChain.eng.inPos + 1, recM := atRepeatChain.eng.recM + 2 }
      atRepeatChain.mem ∧
    atRepeatChain.eng.recOff ≤ atRepeatChain.eng.avail + atRepeatChain.eng.outPos ∧
    atRepeatChain.eng.recM + 2 ≤ atRepeatChain.eng.capEff - atRepeatChain.eng.outPos ∧
    atRepeatChain.eng.outAddr.toNat + atRepeatChain.eng.outCap.toNat ≤ 2 ^ 64 ∧
    atRepeatChain.eng.avail ≤ atRepeatChain.eng.outAddr.toNat :=
  ⟨.inr ⟨2, rfl, by decide, by decide, rfl, rfl⟩, by decide, by decide, by decide, by decide⟩

theorem witness_RepeatChecksFail :
    (RepeatKnown atTag (.repC0 0 0 1) (atTag.eng.pastTag 0 0 1) atTag.mem ∧ LiteralHasRoom atTag (.repC0 0 0 1) ∧
      (atTag.eng.pastTag 0 0 1).avail + (atTag.eng.pastTag 0 0 1).outPos < (atTag.eng.pastTag 0 0 1).recOff) ∧
    (let s := inStream (.tag .c0) [1, 0, 0] 8 fun e => { e with outPos := 61 };
      RepeatKnown s (.repC0 0 0 1) (s.eng.pastTag 0 0 1) s.mem ∧ LiteralHasRoom s (.repC0 0 0 1) ∧
      (s.eng.pastTag 0 0 1).recOff ≤ (s.eng.pastTag 0 0 1).avail + (s.eng.pastTag 0 0 1).outPos ∧
      (s.eng.pastTag 0 0 1).capEff - (s.eng.pastTag 0 0 1).outPos < (s.eng.pastTag 0 0 1).recM) :=
  ⟨⟨.inl ⟨.inl ⟨0, 1, ⟨rfl, by unfold Engine.widthsOk; decide⟩, rfl, rfl⟩, by decide, by decide⟩,
      (fun _ h => by cases h), by decide⟩,
    .inl ⟨.inl ⟨0, 1, ⟨rfl, by unfold Engine.widthsOk; decide⟩, rfl, rfl⟩, by decide, by decide⟩,
      (fun _ h => by cases h), by decide, by decide⟩

theorem witness_TerminalRecordEnds :
    (LiteralsDone atTag (.badEndC0 0 1) (atTag.eng.pastTag 0 1 0) atTag.mem ∧
      (atTag.eng.pastTag 0 1 0).recOff = 0 ∧ (atTag.eng.pastTag 0 1 0).recR ≠ 0 ∧
      LiteralHasRoom atTag (.badEndC0 0 1)) ∧
    (LiteralsDone atTag (.endC0 0) (atTag.eng.pastTag 0 0 0) atTag.mem ∧
      (atTag.eng.pastTag 0 0 0).recR = 0 ∧ (atTag.eng.pastTag 0 0 0).inPos ≠ atTag.eng.inLen.toNat) ∧
    (let s := inStream .lit [0x61] 2 id;
      LiteralsDone s (.lit 0x61) { s.eng with inPos := 2, outPos := 1, recN := 0 } (s.mem.write 0x2000 0x61) ∧
      s.eng.recOff = 0 ∧ s.eng.recR = 0 ∧ 2 = s.eng.inLen.toNat ∧ LiteralHasRoom s (.lit 0x61)) :=
  ⟨⟨.inl ⟨1, 0, ⟨rfl, by unfold Engine.widthsOk; decide⟩, rfl, rfl⟩, by decide, by decide, (fun _ h => by cases h)⟩,
    ⟨.inl ⟨0, 0, atTag_tagOf, rfl, rfl⟩, by decide, by decide⟩,
    .inr ⟨0x61, rfl, by unfold Engine.widthsOk; decide, by decide, rfl, rfl⟩, by decide, by decide, by decide,
      fun _ _ => by decide⟩

theorem witness_EndAtRecordBoundaryFinishes :
    let s := inStream (.tag .c0) [] 5 fun e => { e with inPos := 5 }
    Running s ∧ s.eng.stage = .tag ∧ s.eng.inPos = s.eng.inLen.toNat := by unfold Running; decide

theorem witness_ExhaustedInputFails :
    (let s := inStream (.tag .c0) [] 5 fun e => { e with inPos := 4 };
      Running s ∧ s.eng.stage = .tag ∧ s.eng.inPos < s.eng.inLen.toNat ∧ s.eng.inLen.toNat < s.eng.inPos + 3) ∧
    (let s := inStream .esc [] 5 fun e => { e with inPos := 5 };
      Running s ∧ s.eng.stage = .nrChain ∧ s.eng.inPos = s.eng.inLen.toNat) := by unfold Running; decide

theorem witness_StepRunsStreamInstruction :
    Running atTag ∧ atTag.eng.expects = some (.tag .c0) ∧ atTag.eng.inPos + 3 ≤ atTag.eng.inLen.toNat ∧
    decode (.tag .c0) (atTag.mem.readBytes (atTag.eng.inAddr + BitVec.ofNat 64 atTag.eng.inPos) 3) =
      .ok (.endC0 0, []) := by unfold Running; decide +kernel

theorem witness_StepRunsCommandWord :
    (encArgs.withCommand 7).host = [⟨0, false, .regWrite ((encArgs.withCommand 7).params.regBase + 12) 4 7⟩] ∧
    (encArgs.withCommand 7).busy = false ∧
    ({ atTag with host := [⟨0, false, .regWrite 12 4 7⟩] } : State).busy = true := by decide

theorem witness_ReferenceProbe :
    Running atProbe ∧ EngineInv atProbe ∧ atProbe.eng.stage = .scan ∧ atProbe.params.matchFinder = .reference ∧
    atProbe.eng.p + 6 ≤ atProbe.eng.scanEnd ∧
    (atProbe.tableEntry (hash6 atProbe.params.hashMul atProbe.scanByte atProbe.eng.p) < atProbe.eng.p ∧
      ∀ j, j < 4 → atProbe.scanByte (atProbe.tableEntry (hash6 atProbe.params.hashMul atProbe.scanByte atProbe.eng.p) + j)
        = atProbe.scanByte (atProbe.eng.p + j)) :=
  ⟨by unfold Running; decide +kernel, atProbe_engineInv, by decide +kernel, by decide +kernel, by decide +kernel,
    by decide +kernel⟩

theorem witness_ReferenceScanEnds :
    (let s := reference (encoding 3 .scan fun e => { e with p := 11 });
      Running s ∧ s.eng.stage = .scan ∧ s.params.matchFinder = .reference ∧ s.eng.scanEnd < s.eng.p + 6 ∧ s.eng.op = 3) ∧
    (let s := reference (encoding 1 .scan fun e => { e with p := 95 });
      Running s ∧ s.eng.scanEnd < s.eng.p + 6 ∧ s.eng.op ≠ 3) := by unfold Running; decide +kernel

theorem witness_AnyParseIsValid :
    let s := encoding 4 .scan id
    Running s ∧ s.eng.stage = .scan ∧ s.params.matchFinder = .any ∧ s.eng.scanStart ≤ s.eng.scanEnd ∧ s.eng.op ≠ 3 := by
  unfold Running; decide +kernel

theorem witness_EmitFollowsTheEnvelope :
    (Running atEmit ∧ EngineInv atEmit ∧ atEmit.eng.stage = .emit ∧ (atEmit.block.length : Int) ≤ atEmit.eng.softEff) ∧
    (let s := encoding 1 .emit fun e => { e with softEff := 8, parse := [⟨1, 1, 99⟩, ⟨0, 0, 0⟩] };
      s.eng.softEff < s.block.length ∧ s.block.length ≤ s.eng.outCap.toNat) ∧
    (let s := encoding 1 .emit fun e => { e with softEff := -56, outCap := 8, parse := [⟨1, 1, 99⟩, ⟨0, 0, 0⟩] };
      s.eng.softEff < s.block.length ∧ s.eng.outCap.toNat < s.block.length) :=
  ⟨⟨by unfold Running; decide +kernel, atEmit_engineInv, by decide +kernel, by decide +kernel⟩, by decide +kernel,
    by decide +kernel⟩

theorem atEmit_parseInv : ParseInv atEmit := by
  unfold ParseInv
  intro _ _
  exact ⟨fun h => absurd h (by decide +kernel), fun _ => by decide +kernel⟩

theorem witness_HeadroomExcludesWriteError :
    Running atEmit ∧ EngineInv atEmit ∧ ParseInv atEmit ∧ atEmit.eng.stage = .emit ∧ atEmit.eng.op = 1 ∧
    wcb atEmit.eng.inLen.toNat atEmit.eng.cls ≤ atEmit.eng.outCap.toNat ∧ goesOn (step atEmit) = true :=
  ⟨by unfold Running; decide +kernel, atEmit_engineInv, atEmit_parseInv, by decide +kernel, by decide +kernel,
    by decide +kernel, by decide +kernel⟩

theorem witness_RegisterReadsAsListed :
    let s : State := { encArgs with host := [⟨0, false, .regRead 0xFC 4⟩] }
    0xFC < 256 ∧ 0xFC % 4 = 0 ∧
    s.host = [⟨0, false, .regRead (s.params.regBase + BitVec.ofNat 64 0xFC) 4⟩] := by decide

theorem witness_RegisterWriteStaysInItsRegister :
    let s : State := { encArgs with host := [⟨0, false, .regWrite 0x5C 4 7⟩] }
    0x5C < 256 ∧ 0x5C % 4 = 0 ∧ 0x5C ≠ 0x0C ∧
    s.host = [⟨0, false, .regWrite (s.params.regBase + BitVec.ofNat 64 0x5C) 4 7⟩] := by decide

/-- A block at REG_BASE 0x10000 with one due register access. -/
def atPort (act : HostAct) : State :=
  { due State.reset act with params := { Config.defaults with regBase := 0x10000 } }

/-- Reads at REG_BASE + 0xFE and REG_BASE - 2 (4 bytes each) and a write of 8 bytes at REG_BASE - 4 reach the block; 4
bytes at REG_BASE - 4 and at REG_BASE + 256 do not. -/
theorem witness_OddRegisterAccessIsRefused :
    (((0x100FE : Addr) - (atPort (.regRead 0x100FE 4)).params.regBase).toNat < 256 ∧
      ((0x100FE : Addr) - (atPort (.regRead 0x100FE 4)).params.regBase).toNat % 4 ≠ 0) ∧
    ((∃ i, i < 4 ∧ ((0xFFFE : Addr) + BitVec.ofNat 64 i - (atPort (.regRead 0xFFFE 4)).params.regBase).toNat < 256) ∧
      ¬(4 = 4 ∧ ((0xFFFE : Addr) - (atPort (.regRead 0xFFFE 4)).params.regBase).toNat < 256)) ∧
    (∃ i, i < 8 ∧ ((0xFFFC : Addr) + BitVec.ofNat 64 i - (atPort (.regWrite 0xFFFC 8 7)).params.regBase).toNat < 256) ∧
    (256 ≤ ((0xFFFC : Addr) - (atPort (.regWrite 0xFFFC 4 7)).params.regBase).toNat ∧
      ∀ i, i < 4 → 256 ≤ ((0xFFFC : Addr) + BitVec.ofNat 64 i - (atPort (.regWrite 0xFFFC 4 7)).params.regBase).toNat) ∧
    (256 ≤ ((0x10100 : Addr) - (atPort (.regRead 0x10100 4)).params.regBase).toNat ∧
      ∀ i, i < 4 → 256 ≤ ((0x10100 : Addr) + BitVec.ofNat 64 i - (atPort (.regRead 0x10100 4)).params.regBase).toNat) :=
  ⟨by decide, ⟨⟨2, by decide⟩, by decide⟩, ⟨4, by decide⟩, by decide, by decide⟩

/-- R21, I15: an access that starts below REG_BASE and reaches the block is refused. -/
theorem test_straddling_access_refused :
    step (atPort (.regRead 0xFFFE 4)) = .refused .registerAccess ∧
    step (atPort (.regWrite 0xFFFC 8 7)) = .refused .registerAccess ∧
    step (atPort (.regWrite 0x10028 2 7)) = .refused .registerAccess ∧
    goesOn (step (atPort (.regWrite 0xFFFC 4 7))) = true ∧
    (after (step (atPort (.regWrite 0x10028 4 7)))).regs.inLen = 7 := ⟨rfl, rfl, rfl, by decide, by decide⟩

theorem witness_InterruptOutputFollowsPend : (0 : Reg).getLsbD 0 = false ∧ (1 : Reg).getLsbD 0 = true := by decide

theorem witness_CompletionWinsOverClear :
    let s : State := { atTag with
      eng := { atTag.eng with inLen := 4 }
      host := [⟨0, true, .regWrite (atTag.params.regBase + 0x24) 4 1⟩] }
    s.eng.phase = .run ∧ goesOn (step s) = true ∧ (after (step s)).eng.phase = .idle := by decide +kernel

theorem witness_HostMemoryAccess :
    ((due atTag (.memWrite 0x1007 1)).busy = true ∧
      ∃ r ∈ (due atTag (.memWrite 0x1007 1)).eng.regions, spanHolds r (0x1007 : Addr).toNat = true) ∧
    (∀ r ∈ (due atTag (.memWrite 0x1008 1)).eng.regions, spanHolds r (0x1008 : Addr).toNat = false) ∧
    (due encArgs (.memWrite 0x1007 1)).busy = false ∧
    ((due atTag (.memRead 0x1007)).host = [⟨0, false, .memRead 0x1007⟩] ∧
      ∀ r ∈ (due atTag (.memRead 0x1007)).eng.written, spanHolds r (0x1007 : Addr).toNat = false) := by decide

theorem witness_ResetGivesListedValues :
    ((due atTag .reset).host = [⟨0, false, .reset⟩] ∧ (due atTag .reset).busy = true) ∧
    (due encArgs .reset).busy = false := by decide

theorem witness_IdleBlockHoldsItsResults :
    (State.reset.eng.phase = .idle ∧ State.reset.host = []) ∧
    (let s : State := { decArgs with
        regs := { decArgs.regs with result := 7 }
        host := [⟨0, false, .regWrite 0x0C 4 2⟩] };
      s.eng.phase = .idle ∧ goesOn (step s) = true ∧ (after (step s)).regs.result ≠ s.regs.result) := by decide +kernel

theorem atTag_memoryInv : MemoryInv atTag := by
  show Memory.wf _
  decide +kernel

theorem atTag_registerInv : RegisterInv atTag := by unfold RegisterInv; decide +kernel

theorem witness_StepKeepsMemoryCanonical : MemoryInv atTag ∧ goesOn (step atTag) = true :=
  ⟨atTag_memoryInv, by decide +kernel⟩

theorem witness_StepKeepsRegistersLegal : RegisterInv atTag ∧ goesOn (step atTag) = true :=
  ⟨atTag_registerInv, by decide +kernel⟩

theorem witness_StepKeepsEngineSound :
    (EngineInv atTag ∧ goesOn (step atTag) = true) ∧ (EngineInv atProbe ∧ goesOn (step atProbe) = true) :=
  ⟨⟨atTag_engineInv, by decide +kernel⟩, atProbe_engineInv, by decide +kernel⟩

theorem witness_StepKeepsParseValid :
    RegisterInv atEmit ∧ EngineInv atEmit ∧ ParseInv atEmit ∧ goesOn (step atEmit) = true :=
  ⟨by unfold RegisterInv; decide +kernel, atEmit_engineInv, atEmit_parseInv, by decide +kernel⟩

theorem witness_SoundStateNeverFaults : EngineInv atTag := atTag_engineInv

theorem witness_EngineWritesOnlyItsRegions : EngineInv atTag ∧ atTag.host = [] ∧ goesOn (step atTag) = true :=
  ⟨atTag_engineInv, rfl, by decide +kernel⟩

theorem witness_DecoderReadsOnlyItsRegions :
    EngineInv atTag ∧ Running atTag ∧ atTag.eng.isDecode ∧ Running { atTag with mem := atTag.mem.write 0x9000 1 } ∧
    AgreeOn atTag.eng.decoderReads atTag { atTag with mem := atTag.mem.write 0x9000 1 } ∧
    goesOn (step atTag) = true := by
  refine ⟨atTag_engineInv, by unfold Running; decide, .inl (by decide), by unfold Running; decide, ?_, by decide +kernel⟩
  intro r hr a ha
  refine Memory.read_write_other _ _ _ _ ?_
  rintro rfl
  revert ha
  have hs : ∀ r ∈ atTag.eng.decoderReads, ¬spanHolds r 0x9000 = true := by decide
  exact hs r hr

theorem witness_EveryCommandCompletes : EngineInv atProbe ∧ atProbe.host = [] := ⟨atProbe_engineInv, rfl⟩

/-- V-D18 behind its class byte: the block `00 | 00 00 04 | 41` of the one-byte region "A". -/
def smallest : State := inStream .classByte [0x00, 0x00, 0x00, 0x04, 0x41] 5 id

theorem witness_DecodeInvertsEmit :
    EngineInv smallest ∧ Running smallest ∧ smallest.eng.stage = .classByte ∧ smallest.eng.avail = 0 ∧
    validParse (fun _ => 0x41) .c0 1 0 [⟨1, 0, 0⟩] = true ∧
    emitBlock .c0 (fun _ => 0x41) 0 [⟨1, 0, 0⟩] = [0x00, 0x00, 0x00, 0x04, 0x41] ∧
    smallest.eng.inLen.toNat = 5 ∧
    ((List.range 5).map fun i => smallest.mem.read (byteAddr smallest.eng.inAddr i)) = [0x00, 0x00, 0x00, 0x04, 0x41] ∧
    1 - 0 ≤ smallest.eng.capEff := by
  refine ⟨fun _ => ?_, by unfold Running; decide, by decide, by decide, by decide, by decide, by decide,
    by decide +kernel, by decide⟩
  show Engine.decoding _ ∧ _
  unfold Engine.decoding
  decide +kernel

end Sys2Proof.Tests
end

section
/-! SUPPORT. Frames: what no instruction changes, the latched arguments, the bytes outside a command's regions. -/

namespace Sys2Proof.Machine

theorem SameSurroundings.refl (s : State) : SameSurroundings s s := ⟨rfl, rfl, rfl, rfl⟩

theorem SameArgs.refl (e : Engine) : SameArgs e e := ⟨rfl, rfl, rfl, rfl, rfl, rfl, rfl, rfl, rfl⟩

theorem SameMemory.refl (s : State) : SameMemory s s := fun _ => rfl

theorem SameMemory.sameOutside {s t : State} (h : SameMemory s t) (spans : List Span) : SameOutside spans s t :=
  fun a _ => h a

theorem spanHolds_iff (r : Span) (a : Nat) : spanHolds r a = true ↔ r.base ≤ a ∧ a < r.base + r.len := by
  simp [spanHolds]

/-- A region that does not wrap ends at or below the top of the address space (20_memory.md R66). -/
theorem wraps_eq_false_iff (base : Addr) (len : Nat) : wraps base len = false ↔ base.toNat + len ≤ 2 ^ 64 := by
  simp [wraps]

/-- Byte 0 of a region is at its base. -/
@[simp] theorem byteAddr_zero (base : Addr) : byteAddr base 0 = base.toNat := by simp [byteAddr]

end Sys2Proof.Machine
end

section
/-! SUPPORT. The stream instructions by format (30_encoding.md R98): what the decoder meets at the cursor, and the one
operation each format's rows call. -/

namespace Sys2Proof.Machine

/-! ## What is fetched -/

theorem ite_format {p : Prop} [Decidable p] {i j : Instr} {f : Format} (hi : i.format = f) (hj : j.format = f) :
    (if p then i else j).format = f := by
  split
  · exact hi
  · exact hj

theorem decodeClass_format (b : Byte) : (decodeClass b).format = .classByte := by
  unfold decodeClass
  repeat' apply ite_format
  all_goals rfl

theorem decodeTag_format (c : BlockClass) (t : BitVec 24) : (decodeTag c t).format = .tag c := by
  cases c <;> simp only [decodeTag] <;> repeat' apply ite_format
  all_goals rfl

theorem decodeEsc_format (b : Byte) : (decodeEsc b).format = .esc := by
  unfold decodeEsc
  split <;> rfl

theorem decodeCmd_format (w : Reg) : (decodeCmd w).format = .cmd := by
  unfold decodeCmd
  dsimp only
  repeat' apply ite_format
  all_goals rfl

/-- A decoded word has the format asked for, and its bytes were there. -/
theorem decode_format {f : Format} {bs rest : List Byte} {i : Instr} (h : decode f bs = .ok (i, rest)) :
    i.format = f ∧ f.size ≤ bs.length := by
  revert h
  unfold decode
  split <;> intro h <;> cases h
  · exact ⟨decodeCmd_format _, by simp [Format.size]⟩
  · exact ⟨decodeClass_format _, by simp [Format.size]⟩
  · exact ⟨decodeTag_format _ _, by simp [Format.size]⟩
  · exact ⟨decodeEsc_format _, by simp [Format.size]⟩
  · exact ⟨rfl, by simp [Format.size]⟩

theorem readBytes_length (m : Memory) (a : Addr) (n : Nat) : (m.readBytes a n).length = n := by
  induction n generalizing a with
  | zero => rfl
  | succ n ih => simp [Memory.readBytes, ih]

/-- The bytes at the cursor are as many as asked for, or as many as IN has left. -/
theorem inBytes_length (s : State) (n : Nat) : (s.inBytes n).length = min n s.eng.inLeft := readBytes_length _ _ _

/-- A fetched instruction has the format its stage expects, and its bytes are in IN. -/
theorem fetch_instr {s : State} {i : Instr} (h : fetch s = .instr i) :
    ∃ f, s.eng.expects = some f ∧ i.format = f ∧ f.size ≤ s.eng.inLeft := by
  unfold fetch at h
  split at h
  · cases h
  · split at h
    · cases h
    next f hf =>
      cases hd : decode f (s.inBytes f.size) with
      | error r => rw [hd] at h; cases r <;> cases h
      | ok p =>
        obtain ⟨j, rest⟩ := p
        rw [hd] at h
        cases h
        obtain ⟨hfmt, hlen⟩ := decode_format hd
        rw [inBytes_length] at hlen
        exact ⟨f, hf, hfmt, by omega⟩

/-- Only a command word, a class byte and a literal byte are lost where their bytes are missing. -/
theorem fetchedOf_decode_lost {f : Format} {bs : List Byte} (h : fetchedOf (decode f bs) = .lost) :
    f = .cmd ∨ ((f = .classByte ∨ f = .lit) ∧ bs = []) := by
  unfold decode at h
  split at h <;> simp_all [fetchedOf]

/-- In a stage that reads the stream, something stands at the cursor: a class byte and a literal byte where IN is not at
its end, a tag and an escape byte always. -/
theorem fetch_ne_lost {s : State} {f : Format} (hf : s.eng.expects = some f) (hcmd : f ≠ .cmd)
    (hbyte : f = .classByte ∨ f = .lit → 0 < s.eng.inLeft) : fetch s ≠ .lost := by
  unfold fetch
  split
  · simp
  · rw [hf]
    intro h
    obtain rfl | ⟨hf', hnil⟩ := fetchedOf_decode_lost h
    · exact hcmd rfl
    · have hlen := inBytes_length s f.size
      have hleft := hbyte hf'
      rw [hnil] at hlen
      obtain rfl | rfl := hf' <;> simp [Format.size] at hlen <;> omega

/-! ## What each format's rows do -/

/-- A class byte selects a class or fails the decode (42_decoder.md R232). -/
theorem exec_classByte {i : Instr} (h : i.format = .classByte) (s : State) :
    (∃ c, exec i s = .next (s.selectClass c)) ∨ exec i s = .next s.badClass := by
  cases i <;> cases h
  case hdrC0 | hdrC1 | hdrC2 | hdrC3 | hdrC4 => exact .inl ⟨_, rfl⟩
  all_goals exact .inr rfl

/-- A tag starts its record (R236). -/
theorem exec_tag {i : Instr} {c : BlockClass} (h : i.format = .tag c) (s : State) :
    ∃ nf rf off, exec i s = .next (s.tagRecord nf rf off) := by
  cases i <;> cases h <;> exact ⟨_, _, _, rfl⟩

/-- An escape byte continues its chain or ends it (R97, 40_primitives.md R136). -/
theorem exec_esc {i : Instr} (h : i.format = .esc) (s : State) :
    exec i s = .next s.escapeCont ∨ ∃ v, exec i s = .next (s.escapeEnd v) := by
  cases i <;> cases h
  case escCont => exact .inl rfl
  case escEnd v => exact .inr ⟨v, rfl⟩

/-- A literal byte is copied (R236). -/
theorem exec_lit {i : Instr} (h : i.format = .lit) (s : State) : ∃ v, exec i s = .next (s.literalByte v) := by
  cases i <;> cases h
  exact ⟨_, rfl⟩

/-! ## How a record goes on -/

/-- How a record goes on once its literals are known: the decode fails or is done, the record waits for its literals or
for its repeat-length chain, or its repeat is copied and the record loop goes on. -/
inductive RecordOutcome (s : State) : State → Prop where
  | failed (st : Status) (c : Cause) (pos : Nat) : RecordOutcome s (s.decodeFail st c pos)
  | done : RecordOutcome s s.decodeDone
  | literals (hin : s.eng.recN ≤ s.eng.inLeft) (hout : s.eng.recN ≤ s.eng.capEff - s.eng.outPos)
      (hn : s.eng.recN ≠ 0) : RecordOutcome s (s.toStage .literal)
  | repeatChain (hoff : s.eng.recOff ≠ 0) : RecordOutcome s (s.toStage .rChain)
  | repeated (m : Memory) (hm : s.eng.recM ≤ s.eng.capEff - s.eng.outPos) : RecordOutcome s
      { s with mem := m, eng := { s.eng with outPos := s.eng.outPos + s.eng.recM, stage := .tag } }

theorem repeatBody_outcome (s : State) : RecordOutcome s s.repeatBody := by
  obtain ⟨-, h⟩ | ⟨-, -, h⟩ | ⟨-, hm, h⟩ := repeatBody_cases s <;> rw [h]
  · exact .failed _ _ _
  · exact .failed _ _ _
  · exact .repeated _ hm

theorem terminal_outcome (s : State) : RecordOutcome s s.terminal := by
  obtain ⟨-, h⟩ | ⟨-, -, h⟩ | ⟨-, -, h⟩ := terminal_cases s <;> rw [h]
  · exact .failed _ _ _
  · exact .failed _ _ _
  · exact .done

theorem afterLiterals_outcome (s : State) : RecordOutcome s s.afterLiterals := by
  obtain ⟨-, h⟩ | ⟨hoff, -, h⟩ | ⟨-, -, h⟩ := afterLiterals_cases s <;> rw [h]
  · exact terminal_outcome s
  · exact .repeatChain hoff
  · exact repeatBody_outcome s

theorem literalBounds_outcome (s : State) : RecordOutcome s s.literalBounds := by
  obtain ⟨-, h⟩ | ⟨-, -, h⟩ | ⟨-, h⟩ | ⟨hin, hout, hn, h⟩ := literalBounds_cases s <;> rw [h]
  · exact .failed _ _ _
  · exact .failed _ _ _
  · exact afterLiterals_outcome s
  · exact .literals hin hout hn

/-- A tag opens the literal-length chain, or its literals are known (R236). -/
theorem tagRecord_cases (s : State) (nf rf off : Nat) :
    s.tagRecord nf rf off = ({ s with eng := s.eng.pastTag nf rf off } : State).toStage .nrChain ∨
    s.tagRecord nf rf off = ({ s with eng := s.eng.pastTag nf rf off } : State).literalBounds := by
  unfold State.tagRecord
  dsimp only
  split
  · exact .inl rfl
  · exact .inr rfl

/-- An escape byte moves the cursor and adds to one of the two lengths, and nothing else. -/
theorem addEscape_eq (s : State) (v : Nat) :
    ∃ n m, s.addEscape v = { s with eng := { s.eng with inPos := s.eng.inPos + 1, recN := n, recM := m } } := by
  unfold State.addEscape
  dsimp only
  split
  · exact ⟨_, s.eng.recM, rfl⟩
  · exact ⟨s.eng.recN, _, rfl⟩

/-- The last byte of a chain: the record goes on, with the cursor behind the byte. -/
theorem escapeEnd_outcome (s : State) (v : Byte) :
    ∃ n m, RecordOutcome { s with eng := { s.eng with inPos := s.eng.inPos + 1, recN := n, recM := m } }
      (s.escapeEnd v) := by
  obtain ⟨n, m, h⟩ := addEscape_eq s v.toNat
  refine ⟨n, m, ?_⟩
  unfold State.escapeEnd
  rw [h]
  split
  · exact literalBounds_outcome _
  · exact repeatBody_outcome _

/-- The state behind a literal byte. -/
def State.pastLiteral (s : State) (v : Byte) : State :=
  { s with
    mem := s.mem.write (byteAddr s.eng.outAddr s.eng.outPos) v
    eng := { s.eng with inPos := s.eng.inPos + 1, outPos := s.eng.outPos + 1, recN := s.eng.recN - 1 } }

/-- A literal byte is followed by another, or it was its run's last and the record goes on. -/
theorem literalByte_cases (s : State) (v : Byte) :
    (1 < s.eng.recN ∧ s.literalByte v = s.pastLiteral v) ∨ RecordOutcome (s.pastLiteral v) (s.literalByte v) := by
  unfold State.literalByte
  dsimp only
  split
  · exact .inr (afterLiterals_outcome _)
  next h => exact .inl ⟨Nat.lt_of_not_le h, rfl⟩

end Sys2Proof.Machine
end

section
/-! SUPPORT. What a command word can do, said once: it completes at once with a failure, is launched and runs, or is
refused (10_state.md R42, R43; 30_encoding.md R90, R91). -/

namespace Sys2Proof.Machine

/-! ## What the argument checks establish -/

theorem encodeArgs_none {e : Engine} (h : encodeArgs e = none) :
    0 < e.outCap.toNat ∧ e.inAddr.toNat + e.inLen.toNat ≤ 2 ^ 64 ∧ e.outAddr.toNat + e.outCap.toNat ≤ 2 ^ 64 ∧
    e.stateAddr.toNat + Config.stateMinSize ≤ 2 ^ 64 := by
  unfold encodeArgs at h
  split_ifs at h with _ hlen hwrap
  simp only [not_or, Bool.not_eq_true, wraps_eq_false_iff] at hlen hwrap
  obtain ⟨hin, hout, hstate⟩ := hwrap
  exact ⟨by bv_omega, hin, hout, hstate⟩

theorem updateArgs_none {e : Engine} (h : updateArgs e = none) :
    e.dictLen.toNat ≤ Config.maxBlock ∧ e.dictAddr.toNat + e.dictLen.toNat ≤ 2 ^ 64 ∧
    e.stateAddr.toNat + Config.stateMinSize ≤ 2 ^ 64 := by
  unfold updateArgs at h
  split_ifs at h with _ hlen hwrap
  simp only [not_or, Bool.not_eq_true, wraps_eq_false_iff] at hwrap
  exact ⟨Nat.le_of_not_lt hlen, hwrap⟩

theorem encodeDeltaArgs_none {e : Engine} (h : encodeDeltaArgs e = none) :
    0 < e.outCap.toNat ∧ e.inAddr.toNat + e.inLen.toNat ≤ 2 ^ 64 ∧ e.outAddr.toNat + e.outCap.toNat ≤ 2 ^ 64 ∧
    e.stateAddr.toNat + Config.stateMinSize ≤ 2 ^ 64 ∧ e.dictAddr.toNat + e.dictLen.toNat ≤ 2 ^ 64 := by
  unfold encodeDeltaArgs at h
  split_ifs at h with _ hlen hwrap
  simp only [not_or, Bool.not_eq_true, wraps_eq_false_iff] at hlen hwrap
  exact ⟨by bv_omega, hwrap⟩

theorem decodeArgs_none {e : Engine} (h : decodeArgs e = none) :
    4 < e.inLen.toNat ∧ e.inAddr.toNat + e.inLen.toNat ≤ 2 ^ 64 ∧ e.outAddr.toNat + e.outCap.toNat ≤ 2 ^ 64 := by
  unfold decodeArgs at h
  split_ifs at h with _ hlen hwrap
  simp only [not_or, Bool.not_eq_true, wraps_eq_false_iff, not_le] at hlen hwrap
  exact ⟨hlen.1, hwrap⟩

theorem decodeDeltaArgs_none {e : Engine} (h : decodeDeltaArgs e = none) :
    4 < e.inLen.toNat ∧ e.inAddr.toNat + e.inLen.toNat ≤ 2 ^ 64 ∧ e.outAddr.toNat + e.outCap.toNat ≤ 2 ^ 64 ∧
    (0 < e.dictLen.toNat → e.outAddr.toNat = e.dictAddr.toNat + e.dictLen.toNat) := by
  unfold decodeDeltaArgs at h
  split_ifs at h with _ hlen hwrap hadj
  simp only [not_or, Bool.not_eq_true, wraps_eq_false_iff, not_le] at hlen hwrap
  exact ⟨hlen.1, hwrap.1, hwrap.2.1, fun hd => by_contra fun hne => hadj ⟨hd, hne⟩⟩

theorem launchRefusal_none {s : State} (h : launchRefusal s = none) : anyMeet s.eng.regions = false := by
  unfold launchRefusal at h
  split_ifs at h with hmeet
  simpa using hmeet

/-- A length with a class is at most 64 KB (40_primitives.md R132). -/
theorem classOf_some_le {len : Nat} {c : BlockClass} (h : classOf len = some c) : len ≤ Config.maxBlock := by
  unfold classOf at h
  split_ifs at h with hlen
  exact hlen.2

/-- The effective soft limit is at most the capacity (41_encoder.md R175). -/
theorem effectiveSoftLimit_le (soft inLen outCap gain : Nat) : effectiveSoftLimit soft inLen outCap gain ≤ outCap := by
  unfold effectiveSoftLimit
  dsimp only
  split_ifs with h <;> omega

/-! ## Launched commands -/

/-- The accepted command of `s` is launched and runs in `t`: the registers are those of the acceptance, the latched
arguments are kept, the engine is sound at its first stage, and only bytes the command may write have changed. -/
structure Launched (s t : State) : Prop where
  regs : t.regs = s.regs
  phase : t.eng.phase = .run
  args : SameArgs s.eng t.eng
  sound : t.eng.sound
  frame : SameOutside t.eng.written s t
  surroundings : SameSurroundings s t

/-- The decode `s` accepted is launched where its arguments passed their checks (42_decoder.md R230, R231, R260). -/
theorem launched_decode {s : State} (hrun : s.eng.phase = .run) (hpos : s.eng.inPos = 0 ∧ s.eng.outPos = 0)
    (hdec : s.eng.decoding) : Launched s (s.toStage .classByte) where
  regs := rfl
  phase := hrun
  args := SameArgs.refl _
  sound := ⟨hdec, hpos⟩
  frame := (SameMemory.refl s).sameOutside _
  surroundings := SameSurroundings.refl s

/-- An engine at the start of its scan is sound (41_encoder.md R171 to R175, R206, R207). -/
theorem startScan_sound {e : Engine} {c : BlockClass} (hop : e.op = opEncode ∨ e.op = opEncodeDelta)
    (hcls : classOf e.scanEnd = some c) (hcap : 0 < e.outCap.toNat)
    (hin : e.inAddr.toNat + e.inLen.toNat ≤ 2 ^ 64) (hout : e.outAddr.toNat + e.outCap.toNat ≤ 2 ^ 64)
    (hstate : e.stateAddr.toNat + Config.stateMinSize ≤ 2 ^ 64)
    (hdict : e.op = opEncodeDelta → e.dictAddr.toNat + e.dictLen.toNat ≤ 2 ^ 64)
    (hmeet : anyMeet e.regions = false) : (e.startScan c).sound := by
  have henc : (e.startScan c).encoding :=
    ⟨by tauto, hstate, classOf_some_le hcls, fun hne => hdict (hop.resolve_left hne),
      fun _ => ⟨hcls, ⟨rfl, rfl, rfl⟩, effectiveSoftLimit_le _ _ _ _, hcap, hin, hout⟩, hmeet⟩
  exact ⟨henc, Nat.le_refl 2⟩

theorem outSpan_mem_written {e : Engine} (h : usesOut e.op = true) : e.outSpan ∈ e.written := by
  simp [Engine.written, h]

theorem stateSpan_mem_written {e : Engine} (h : usesState e.op = true) : e.stateSpan ∈ e.written := by
  simp [Engine.written, h]

/-- The start of an encode writes OUT[0] and, where it clears the table, STATE (R176, R177). -/
theorem startEncode_frame {s : State} (c : BlockClass) (clear : Bool) (hout : usesOut s.eng.op = true)
    (hstate : usesState s.eng.op = true) (hcap : 0 < s.eng.outCap.toNat) :
    SameOutside s.eng.written s (s.startEncode c clear) := by
  intro a ha
  have hoff : ¬spanHolds s.eng.outSpan a = true := by simp [ha _ (outSpan_mem_written hout)]
  have hoffState : ¬spanHolds s.eng.stateSpan a = true := by simp [ha _ (stateSpan_mem_written hstate)]
  rw [spanHolds_iff] at hoff hoffState
  have hne : a ≠ byteAddr s.eng.outAddr 0 := by
    rintro rfl
    simp [Engine.outSpan, hcap] at hoff
  have hbyte := Memory.read_write_other s.mem _ a (BitVec.ofNat 8 c.toNat) hne
  cases clear with
  | false => exact hbyte
  | true => exact (Memory.read_zero _ _ _ _).trans ((if_neg hoffState).trans hbyte)

/-- An encode is launched where its arguments and its length passed their checks (R171 to R177, R205 to R207). -/
theorem launched_encode {s : State} {c : BlockClass} (clear : Bool) (hrun : s.eng.phase = .run)
    (hop : s.eng.op = opEncode ∨ s.eng.op = opEncodeDelta) (hcap : 0 < s.eng.outCap.toNat)
    (hsound : (s.eng.startScan c).sound) : Launched s (s.startEncode c clear) where
  regs := rfl
  phase := hrun
  args := SameArgs.refl _
  sound := hsound
  frame := startEncode_frame c clear (by rcases hop with h | h <;> rw [h] <;> decide)
    (by rcases hop with h | h <;> rw [h] <;> decide) hcap
  surroundings := SameSurroundings.refl s

/-- UPDATE_DELTA_STATE is launched where its arguments passed their checks; it clears STATE (R200, R201). -/
theorem launched_update {s : State} (hrun : s.eng.phase = .run) (hop : s.eng.op = opUpdate)
    (hargs : updateArgs s.eng = none) (hmeet : anyMeet s.eng.regions = false) :
    Launched s { s with mem := s.withTableClear, eng := s.eng.startPrime } where
  regs := rfl
  phase := hrun
  args := SameArgs.refl _
  sound := by
    obtain ⟨hlen, hdict, hstate⟩ := updateArgs_none hargs
    have hend : s.eng.startPrime.scanEnd = s.eng.dictLen.toNat := if_pos hop
    have henc : s.eng.startPrime.encoding :=
      ⟨.inr (.inl hop), hstate, hend ▸ hlen, fun _ => hdict, fun hne => absurd hop hne, hmeet⟩
    exact ⟨henc, Nat.le_refl 2⟩
  frame := by
    intro a ha
    have hoff := ha _ (stateSpan_mem_written (by change usesState s.eng.op = true; rw [hop]; decide))
    have hoff' : ¬spanHolds s.eng.stateSpan a = true := by rw [Bool.not_eq_true]; exact hoff
    rw [spanHolds_iff] at hoff'
    exact (Memory.read_zero _ _ _ _).trans (if_neg hoff')
  surroundings := SameSurroundings.refl s

/-! ## The outcome of a command word -/

/-- The outcome of a command `op` in the state `s`: it is accepted and fails at once, is accepted and launched, or is
refused. -/
inductive CommandOutcome (s : State) (op : BitVec 4) : Result → Prop where
  | failed (st : Status) (c : Cause) : CommandOutcome s op (.next ((s.accept op).fail st c 0))
  | launched (t : State) (h : Launched (s.accept op) t) : CommandOutcome s op (.next t)
  | refused (r : Refusal) : CommandOutcome s op (.refused r)

/-- A decode's outcome, from what its passed checks establish. -/
theorem runDecode_outcome {s : State} {op : BitVec 4} {args : Option Cause}
    (hdec : args = none → anyMeet (s.accept op).eng.regions = false → (s.accept op).eng.decoding) :
    CommandOutcome s op (runDecode (s.accept op) args) := by
  obtain ⟨c, -, h⟩ | ⟨hargs, href, h⟩ | ⟨r, -, -, h⟩ := runDecode_cases (s.accept op) args <;> rw [h]
  · exact .failed _ _
  · exact .launched _ (launched_decode rfl ⟨rfl, rfl⟩ (hdec hargs (launchRefusal_none href)))
  · exact .refused r

theorem execDecode_outcome (s : State) : CommandOutcome s opDecode (execDecode s) := by
  refine runDecode_outcome fun hargs hmeet => ?_
  obtain ⟨hlen, hin, hout⟩ := decodeArgs_none hargs
  exact ⟨.inl rfl, hlen, Nat.zero_le _, Nat.zero_le _, hin, hout, 
    fun hop => absurd hop (by decide : opDecode ≠ opDecodeDelta), hmeet⟩

theorem execDecodeDelta_outcome (s : State) : CommandOutcome s opDecodeDelta (execDecodeDelta s) := by
  unfold execDecodeDelta
  dsimp only
  split
  · refine runDecode_outcome fun hargs hmeet => ?_
    obtain ⟨hlen, hin, hout, hadj⟩ := decodeDeltaArgs_none hargs
    exact ⟨.inr rfl, hlen, Nat.zero_le _, Nat.zero_le _, hin, hout, fun _ => hadj, hmeet⟩
  · exact .failed _ _

theorem execEncode_outcome (s : State) : CommandOutcome s opEncode (execEncode s) := by
  unfold execEncode
  obtain ⟨c, -, h⟩ | ⟨-, -, h⟩ | ⟨-, -, -, h⟩ | ⟨c, hargs, -, hcls, href, h⟩ | ⟨r, -, h⟩ :=
    runEncode_cases (s.accept opEncode) <;> rw [h]
  · exact .failed _ _
  · exact .failed _ _
  · exact .failed _ _
  · obtain ⟨hcap, hin, hout, hstate⟩ := encodeArgs_none hargs
    have hend : (s.accept opEncode).eng.scanEnd = (s.accept opEncode).eng.inLen.toNat := Nat.zero_add _
    exact .launched _ (launched_encode true rfl (.inl rfl) hcap
      (startScan_sound (.inl rfl) (hend ▸ hcls) hcap hin hout hstate
        (fun hop => absurd hop (by decide : opEncode ≠ opEncodeDelta)) (launchRefusal_none href)))
  · exact .refused r

theorem execEncodeDelta_outcome (s : State) : CommandOutcome s opEncodeDelta (execEncodeDelta s) := by
  unfold execEncodeDelta
  dsimp only
  split
  · obtain ⟨c, -, h⟩ | ⟨-, -, h⟩ | ⟨c, -, -, -, h⟩ | ⟨-, -, -, -, h⟩ | ⟨c, hargs, -, -, hcls, href, h⟩ | ⟨r, -, h⟩ :=
      runEncodeDelta_cases (s.accept opEncodeDelta) <;> rw [h]
    · exact .failed _ _
    · exact .failed _ _
    · exact .failed _ _
    · exact .failed _ _
    · obtain ⟨hcap, hin, hout, hstate, hdict⟩ := encodeDeltaArgs_none hargs
      exact .launched _ (launched_encode false rfl (.inr rfl) hcap
        (startScan_sound (.inr rfl) hcls hcap hin hout hstate (fun _ => hdict) (launchRefusal_none href)))
    · exact .refused r
  · exact .failed _ _

theorem execUpdateDeltaState_outcome (s : State) : CommandOutcome s opUpdate (execUpdateDeltaState s) := by
  unfold execUpdateDeltaState
  dsimp only
  split
  · obtain ⟨c, -, h⟩ | ⟨hargs, href, h⟩ | ⟨r, -, h⟩ := runUpdate_cases (s.accept opUpdate) <;> rw [h]
    · exact .failed _ _
    · exact .launched _ (launched_update rfl rfl hargs (launchRefusal_none href))
    · exact .refused r
  · exact .failed _ _

/-- An opcode of 6 or 7 is its row's fixed bits and its free bit (R91). -/
theorem opcode_of_illegalOp67 (w : Reg) (h : (w.extractLsb' 0 4).extractLsb' 1 3 = 3#3) :
    3#3 ++ w.extractLsb' 0 1 = w.extractLsb' 0 4 := by
  have key : ∀ op : BitVec 4, op.extractLsb' 1 3 = 3#3 → 3#3 ++ op.extractLsb' 0 1 = op := by decide
  simpa [BitVec.extractLsb'_extractLsb'_of_le] using key _ h

/-- An opcode above 7 is its row's fixed bit and its free bits (R91). -/
theorem opcode_of_illegalOp8F (w : Reg) (h0 : w.extractLsb' 0 4 ≠ 0) (h1 : w.extractLsb' 0 4 ≠ 1)
    (h2 : w.extractLsb' 0 4 ≠ 2) (h3 : w.extractLsb' 0 4 ≠ 3) (h4 : w.extractLsb' 0 4 ≠ 4)
    (h5 : w.extractLsb' 0 4 ≠ 5) (h67 : (w.extractLsb' 0 4).extractLsb' 1 3 ≠ 3#3) :
    1#1 ++ w.extractLsb' 0 3 = w.extractLsb' 0 4 := by
  have key : ∀ op : BitVec 4, op = 0 ∨ op = 1 ∨ op = 2 ∨ op = 3 ∨ op = 4 ∨ op = 5 ∨ op.extractLsb' 1 3 = 3#3 ∨
      1#1 ++ op.extractLsb' 0 3 = op := by decide
  have hlow : (w.extractLsb' 0 4).extractLsb' 0 3 = w.extractLsb' 0 3 := by
    simp [BitVec.extractLsb'_extractLsb'_of_le]
  have hop := key (w.extractLsb' 0 4)
  rw [hlow] at hop
  tauto

/-- A command word is the command of its opcode, CMD[3:0] (R90, R91). -/
theorem exec_decodeCmd_outcome (s : State) (w : Reg) :
    CommandOutcome s (w.extractLsb' 0 4) (exec (decodeCmd w) s) := by
  unfold decodeCmd
  dsimp only
  split_ifs with h1 h2 h3 h4 h5 h0 h67
  · rw [h1]; exact execEncode_outcome s
  · rw [h2]; exact execDecode_outcome s
  · rw [h3]; exact execUpdateDeltaState_outcome s
  · rw [h4]; exact execEncodeDelta_outcome s
  · rw [h5]; exact execDecodeDelta_outcome s
  · rw [h0]; exact .failed _ _
  · rw [← opcode_of_illegalOp67 w h67]; exact .failed _ _
  · rw [← opcode_of_illegalOp8F w h0 h1 h2 h3 h4 h5 h67]; exact .failed _ _

end Sys2Proof.Machine
end

section
/-! SUPPORT. What one engine step can do to the registers: it leaves them as they are and the engine runs on, or it
completes the command (10_state.md R43). -/

namespace Sys2Proof.Machine

/-- Registers, phase and surroundings as before, or those of a completion. -/
def GoesOnOrEnds (s t : State) : Prop :=
  (t.regs = s.regs ∧ t.eng.phase = s.eng.phase ∧ SameSurroundings s t) ∨
  ∃ (result : Reg) (c : Cause) (pos : Reg), EndedWith s t result c.toReg pos

theorem GoesOnOrEnds.surroundings {s t : State} (h : GoesOnOrEnds s t) : SameSurroundings s t := by
  obtain ⟨-, -, h⟩ | ⟨_, _, _, -, -, h⟩ := h <;> exact h

/-- Only registers, phase and surroundings of the first state count. -/
theorem GoesOnOrEnds.of_same {s u t : State} (h : GoesOnOrEnds u t) (hregs : u.regs = s.regs)
    (hphase : u.eng.phase = s.eng.phase) (hsur : SameSurroundings s u) : GoesOnOrEnds s t := by
  obtain ⟨hp, hh, hb, hm⟩ := hsur
  simpa only [GoesOnOrEnds, EndedWith, SameSurroundings, hregs, hphase, hp, hh, hb, hm] using h

theorem goesOn {s t : State} (hregs : t.regs = s.regs) (hphase : t.eng.phase = s.eng.phase)
    (hsur : SameSurroundings s t) : GoesOnOrEnds s t := .inl ⟨hregs, hphase, hsur⟩

theorem decodeFail_ends (s : State) (st : Status) (c : Cause) (pos : Nat) : GoesOnOrEnds s (s.decodeFail st c pos) :=
  .inr ⟨st.toReg, c, BitVec.ofNat 32 pos, rfl, rfl, rfl, rfl, rfl, rfl⟩

theorem decodeDone_ends (s : State) : GoesOnOrEnds s s.decodeDone :=
  .inr ⟨BitVec.ofNat 32 s.eng.outPos, .none, 0, rfl, rfl, rfl, rfl, rfl, rfl⟩

theorem emitFailure_ends (s : State) (st : Status) (c : Cause) : GoesOnOrEnds s (s.emitFailure st c) :=
  .inr ⟨st.toReg, c, Config.freePos s.draws, rfl, rfl, rfl, rfl, rfl, rfl⟩

theorem RecordOutcome.goesOnOrEnds {s t : State} (h : RecordOutcome s t) : GoesOnOrEnds s t := by
  cases h with
  | failed st c pos => exact decodeFail_ends s st c pos
  | done => exact decodeDone_ends s
  | literals | repeatChain | repeated => exact goesOn rfl rfl (SameSurroundings.refl s)

theorem tagRecord_goesOnOrEnds (s : State) (nf rf off : Nat) : GoesOnOrEnds s (s.tagRecord nf rf off) := by
  obtain h | h := tagRecord_cases s nf rf off <;> rw [h]
  · exact goesOn rfl rfl (SameSurroundings.refl s)
  · exact (literalBounds_outcome _).goesOnOrEnds.of_same rfl rfl (SameSurroundings.refl s)

theorem escapeCont_goesOn (s : State) : GoesOnOrEnds s s.escapeCont := by
  obtain ⟨n, m, h⟩ := addEscape_eq s Config.escByteMax
  rw [State.escapeCont, h]
  exact goesOn rfl rfl (SameSurroundings.refl s)

theorem escapeEnd_goesOnOrEnds (s : State) (v : Byte) : GoesOnOrEnds s (s.escapeEnd v) := by
  obtain ⟨n, m, h⟩ := escapeEnd_outcome s v
  exact h.goesOnOrEnds.of_same rfl rfl (SameSurroundings.refl s)

theorem literalByte_goesOnOrEnds (s : State) (v : Byte) : GoesOnOrEnds s (s.literalByte v) := by
  obtain ⟨-, h⟩ | h := literalByte_cases s v
  · rw [h]; exact goesOn rfl rfl (SameSurroundings.refl s)
  · exact h.goesOnOrEnds.of_same rfl rfl (SameSurroundings.refl s)

/-- A stream instruction goes on or ends the command. -/
theorem exec_stream_goesOnOrEnds {s t : State} {i : Instr} (hfmt : i.format ≠ .cmd) (h : exec i s = .next t) :
    GoesOnOrEnds s t := by
  cases hf : i.format with
  | cmd => exact absurd hf hfmt
  | classByte =>
    obtain ⟨c, he⟩ | he := exec_classByte hf s <;> rw [he] at h <;> cases h
    · exact goesOn rfl rfl (SameSurroundings.refl s)
    · exact decodeFail_ends s _ _ _
  | tag c =>
    obtain ⟨nf, rf, off, he⟩ := exec_tag hf s
    rw [he] at h; cases h
    exact tagRecord_goesOnOrEnds s nf rf off
  | esc =>
    obtain he | ⟨v, he⟩ := exec_esc hf s <;> rw [he] at h <;> cases h
    · exact escapeCont_goesOn s
    · exact escapeEnd_goesOnOrEnds s v
  | lit =>
    obtain ⟨v, he⟩ := exec_lit hf s
    rw [he] at h; cases h
    exact literalByte_goesOnOrEnds s v

/-- No stage expects a command word in the stream. -/
theorem expects_ne_cmd {e : Engine} {f : Format} (h : e.expects = some f) : f ≠ .cmd := by
  rintro rfl
  unfold Engine.expects at h
  split at h <;> cases h

theorem decoderStep_goesOnOrEnds {s t : State} (h : decoderStep s = .next t) : GoesOnOrEnds s t := by
  obtain ⟨i, hi, he⟩ | ⟨c, -, he⟩ | ⟨-, he⟩ | ⟨-, he⟩ := decoderStep_cases s <;> rw [he] at h
  · obtain ⟨f, hf, rfl, -⟩ := fetch_instr hi
    exact exec_stream_goesOnOrEnds (expects_ne_cmd hf) h
  · cases h; exact decodeFail_ends s _ _ _
  · cases h; exact decodeDone_ends s
  · cases h

/-- The end of a scan: UPDATE_DELTA_STATE finishes, the encodes go on to the emitter (41_encoder.md R198, R200). -/
theorem scanDone_cases (s : State) (parse : List ParseRecord) :
    (s.eng.op = opUpdate ∧ s.scanDone parse = s.finish 0) ∨
    (s.eng.op ≠ opUpdate ∧ s.scanDone parse = { s with eng := { s.eng with parse := parse, stage := .emit } }) := by
  unfold State.scanDone
  by_cases h : s.eng.op = opUpdate
  · exact .inl ⟨h, if_pos h⟩
  · exact .inr ⟨h, if_neg h⟩

theorem scanDone_goesOnOrEnds (s : State) (parse : List ParseRecord) : GoesOnOrEnds s (s.scanDone parse) := by
  obtain ⟨-, h⟩ | ⟨-, h⟩ := scanDone_cases s parse <;> rw [h]
  · exact .inr ⟨0, .none, 0, rfl, rfl, rfl, rfl, rfl, rfl⟩
  · exact goesOn rfl rfl (SameSurroundings.refl s)

theorem scanStep_goesOnOrEnds (s : State) : GoesOnOrEnds s s.scanStep := by
  unfold State.scanStep
  split
  · exact (scanDone_goesOnOrEnds _ _).of_same rfl rfl (SameSurroundings.refl s)
  · obtain ⟨-, e, h, hprobe⟩ | ⟨-, h⟩ := scanReference_cases s <;> rw [h]
    · obtain ⟨-, -, rfl⟩ | rfl := hprobe <;> exact goesOn rfl rfl (SameSurroundings.refl s)
    · exact scanDone_goesOnOrEnds _ _

theorem emitStep_goesOnOrEnds (s : State) : GoesOnOrEnds s s.emitStep := by
  obtain ⟨-, h⟩ | ⟨-, -, h⟩ | ⟨-, -, h | h⟩ := emitStep_cases s <;> rw [h]
  · exact .inr ⟨BitVec.ofNat 32 s.block.length, .none, 0, rfl, rfl, rfl, rfl, rfl, rfl⟩
  · exact emitFailure_ends s _ _
  · exact (emitFailure_ends _ _ _).of_same rfl rfl (SameSurroundings.refl s)
  · exact (emitFailure_ends _ _ _).of_same rfl rfl (SameSurroundings.refl s)

/-- An engine step leaves registers and surroundings alone, or completes the command. -/
theorem engineStep_goesOnOrEnds {s t : State} (h : engineStep s = .next t) : GoesOnOrEnds s t := by
  obtain ⟨-, he⟩ | ⟨-, -, he⟩ | ⟨-, -, he⟩ | ⟨-, -, he⟩ | ⟨-, -, he⟩ := engineStep_cases s <;> rw [he] at h
  · cases h; exact goesOn rfl rfl (SameSurroundings.refl s)
  · cases h
  · cases h; exact scanStep_goesOnOrEnds s
  · cases h; exact emitStep_goesOnOrEnds s
  · exact decoderStep_goesOnOrEnds h

end Sys2Proof.Machine
end

section
/-! SUPPORT. The lengths a probe of the reference finder takes (40_primitives.md R142, R143): a verified candidate moves
the scan past the 4 bytes that were compared. -/

namespace Sys2Proof.Machine

theorem self_le_matchExtend (R : Nat → Byte) (c p fuel m : Nat) : m ≤ matchExtend R c p fuel m := by
  induction fuel generalizing m with
  | zero => exact Nat.le_refl m
  | succ fuel ih =>
    unfold matchExtend
    split
    · exact Nat.le_of_succ_le (ih (m + 1))
    · exact Nat.le_refl m

/-- `match_len` counts on over every position that agrees. -/
theorem le_matchExtend {R : Nat → Byte} {c p fuel m n : Nat} (hmn : m ≤ n) (hfuel : n ≤ m + fuel)
    (hagree : ∀ j, m ≤ j → j < n → R (p + j) = R (c + j)) : n ≤ matchExtend R c p fuel m := by
  induction fuel generalizing m with
  | zero => simpa [matchExtend] using hfuel
  | succ fuel ih =>
    obtain rfl | hlt := Nat.eq_or_lt_of_le hmn
    · exact self_le_matchExtend R c p (fuel + 1) m
    · unfold matchExtend
      rw [if_pos (hagree m (Nat.le_refl m) hlt)]
      exact ih hlt (by omega) fun j hj => hagree j (by omega)

/-- `back_extend` moves candidate and position back by the same number of positions, which agree. -/
theorem backExtend_agree (R : Nat → Byte) (lit c p : Nat) :
    ∃ k, c = (backExtend R lit c p).1 + k ∧ p = (backExtend R lit c p).2 + k ∧
      ∀ j, j < k → R ((backExtend R lit c p).2 + j) = R ((backExtend R lit c p).1 + j) := by
  induction c generalizing p with
  | zero => exact ⟨0, rfl, rfl, fun j hj => absurd hj (Nat.not_lt_zero j)⟩
  | succ c ih =>
    unfold backExtend
    split
    next hback =>
      obtain ⟨hlit, heq⟩ := hback
      obtain ⟨k, hc, hp, hagree⟩ := ih (p - 1)
      refine ⟨k + 1, by omega, by omega, fun j hj => ?_⟩
      obtain hlt | rfl := Nat.lt_succ_iff_lt_or_eq.mp hj
      · exact hagree j hlt
      · rwa [← hp, ← hc]
    next => exact ⟨0, rfl, rfl, fun j hj => absurd hj (Nat.not_lt_zero j)⟩

theorem same4_agree {R : Nat → Byte} {c p : Nat} (h : same4 R c p = true) (j : Nat) (hj : j < 4) :
    R (p + j) = R (c + j) := by
  simp only [same4, Bool.and_eq_true, beq_iff_eq] at h
  obtain ⟨⟨⟨h0, h1⟩, h2⟩, h3⟩ := h
  interval_cases j
  · exact h0.symm
  · exact h1.symm
  · exact h2.symm
  · exact h3.symm

/-- The match of a verified candidate reaches past the 4 bytes compared at the probe position: what the backward
extension takes off the position, the forward extension counts again. -/
theorem probe_add_four_le_match_end {R : Nat → Byte} {c p fin : Nat} (lit : Nat) (hsame : same4 R c p = true)
    (hfin : p + 4 ≤ fin) :
    p + 4 ≤ (backExtend R lit c p).2 +
      matchLen R (backExtend R lit c p).1 (backExtend R lit c p).2 fin := by
  obtain ⟨k, hc, hp, hagree⟩ := backExtend_agree R lit c p
  generalize backExtend R lit c p = cp at *
  have hlen : k + 4 ≤ matchLen R cp.1 cp.2 fin := by
    refine le_matchExtend (by simp [Config.repeatMin]) (by simp only [Config.repeatMin]; omega) fun j _ hj => ?_
    obtain hlt | hge := Nat.lt_or_ge j k
    · exact hagree j hlt
    · have hfour := same4_agree hsame (j - k) (by omega)
      rwa [hp, hc, Nat.add_assoc, Nat.add_assoc, Nat.add_sub_cancel' hge] at hfour
  omega

end Sys2Proof.Machine
end

section
/-! SUPPORT. An engine step from a sound stage: it does not fault, it leaves the engine idle or sound, and what is left
to do gets less (10_state.md R41, R43; 42_decoder.md R233; 41_encoder.md R188). -/

namespace Sys2Proof.Machine

/-- A bound on the engine steps to completion: a decoder step takes a byte of IN (R233), a probe moves the scan on
(R193, R195), a scan is followed by one emission. -/
def Engine.remaining (e : Engine) : Nat :=
  match e.stage with
  | .none => 0
  | .classByte => e.inLeft + 1
  | .tag => e.inLeft + 1
  | .nrChain => e.inLeft + 1
  | .literal => e.inLeft + 1
  | .rChain => e.inLeft + 1
  | .scan => e.scanEnd - e.p + 2
  | .emit => 1

/-- The engine is idle, or sound with less than `n` left to do. -/
def Engine.AdvancedBelow (e : Engine) (n : Nat) : Prop := e.phase = .idle ∨ (e.sound ∧ e.remaining < n)

theorem Engine.AdvancedBelow.engineInv {t : State} {n : Nat} (h : t.eng.AdvancedBelow n) : EngineInv t := by
  obtain hidle | ⟨hsound, -⟩ := h
  · intro hrun; rw [hidle] at hrun; cases hrun
  · exact fun _ => hsound

theorem Engine.AdvancedBelow.mono {e : Engine} {n m : Nat} (h : e.AdvancedBelow n) (hnm : n ≤ m) :
    e.AdvancedBelow m := h.imp_right fun ⟨hsound, hlt⟩ => ⟨hsound, Nat.lt_of_lt_of_le hlt hnm⟩

/-! ## The decoder -/

theorem SameArgs.regions_eq {e f : Engine} (h : SameArgs e f) : f.regions = e.regions := by
  obtain ⟨hop, hin, hout, hstate, hdict, hinLen, houtCap, -, hdictLen⟩ := h
  simp only [Engine.regions, Engine.dictSpan, Engine.inSpan, Engine.outSpan, Engine.stateSpan, hop, hin, hout, hstate,
    hdict, hinLen, houtCap, hdictLen]

/-- A running decoder whose cursors move within their bounds is a running decoder. -/
theorem decoding_move {e f : Engine} (h : e.decoding) (hargs : SameArgs e f) (hin : f.inPos ≤ e.inLen.toNat)
    (hout : f.outPos ≤ e.capEff) : f.decoding := by
  have hregions := hargs.regions_eq
  obtain ⟨hop, hinA, houtA, -, hdictA, hinL, houtC, -, hdictL⟩ := hargs
  obtain ⟨hdec, hlen, -, -, hinEnd, houtEnd, hadj, hmeet⟩ := h
  unfold Engine.decoding Engine.capEff
  rw [hregions, hop, hinA, houtA, hdictA, hinL, houtC, hdictL]
  exact ⟨hdec, hlen, hin, hout, hinEnd, houtEnd, hadj, hmeet⟩

theorem RecordOutcome.advanced {s t : State} {n : Nat} (h : RecordOutcome s t) (hdec : s.eng.decoding)
    (hwidths : s.eng.widthsOk) (hn : s.eng.inLeft + 1 < n) : t.eng.AdvancedBelow n := by
  cases h with
  | failed | done => exact .inl rfl
  | literals hin hout hpos =>
    exact .inr ⟨⟨hdec, hwidths, Nat.pos_of_ne_zero hpos, hin, hout⟩, hn⟩
  | repeatChain hoff => exact .inr ⟨⟨hdec, hwidths, hoff⟩, hn⟩
  | repeated m hm =>
    have ⟨_, _, hinPos, houtPos, _⟩ := hdec
    exact .inr ⟨⟨decoding_move hdec (SameArgs.refl _) hinPos (by dsimp only; omega), hwidths⟩, hn⟩

theorem selectClass_advanced {s : State} (c : BlockClass) (hdec : s.eng.decoding) (hpos : s.eng.inPos = 0) :
    (s.selectClass c).eng.AdvancedBelow (s.eng.inLeft + 1) := by
  have ⟨_, hlen, _⟩ := hdec
  refine .inr ⟨⟨decoding_move hdec (SameArgs.refl _) ?_ (Nat.zero_le _), rfl, rfl, rfl⟩, ?_⟩
  · change 1 ≤ _; omega
  · change s.eng.inLen.toNat - 1 + 1 < s.eng.inLen.toNat - s.eng.inPos + 1
    omega

theorem tagRecord_advanced {s : State} (nf rf off : Nat) (hdec : s.eng.decoding) (hwidths : s.eng.widthsOk)
    (hleft : 3 ≤ s.eng.inLeft) : (s.tagRecord nf rf off).eng.AdvancedBelow (s.eng.inLeft + 1) := by
  have ⟨_, _, hinPos, houtPos, _⟩ := hdec
  have hpast : (s.eng.pastTag nf rf off).inLeft + 3 = s.eng.inLeft := by
    simp only [Engine.inLeft, Engine.pastTag] at hleft ⊢; omega
  have hdec' : (s.eng.pastTag nf rf off).decoding :=
    decoding_move hdec (SameArgs.refl _) (by simp only [Engine.inLeft, Engine.pastTag] at hleft ⊢; omega) houtPos
  obtain h | h := tagRecord_cases s nf rf off <;> rw [h]
  · exact .inr ⟨⟨hdec', hwidths⟩, by change (s.eng.pastTag nf rf off).inLeft + 1 < _; omega⟩
  · exact (literalBounds_outcome _).advanced hdec' hwidths (by dsimp only; omega)

/-- The engine one byte further in IN, with other pending lengths. -/
def Engine.pastByte (e : Engine) (n m : Nat) : Engine := { e with inPos := e.inPos + 1, recN := n, recM := m }

theorem inLeft_pastByte (e : Engine) (n m : Nat) : (e.pastByte n m).inLeft = e.inLeft - 1 := Nat.sub_add_eq _ _ _

theorem decoding_pastByte {e : Engine} (n m : Nat) (h : e.decoding) (hleft : 1 ≤ e.inLeft) :
    (e.pastByte n m).decoding := by
  have ⟨_, _, hinPos, houtPos, _⟩ := h
  exact decoding_move h (SameArgs.refl _) (by simp only [Engine.inLeft, Engine.pastByte] at hleft ⊢; omega) houtPos

theorem escapeEnd_advanced {s : State} (v : Byte) (hdec : s.eng.decoding) (hwidths : s.eng.widthsOk)
    (hleft : 1 ≤ s.eng.inLeft) : (s.escapeEnd v).eng.AdvancedBelow (s.eng.inLeft + 1) := by
  obtain ⟨n, m, h⟩ := escapeEnd_outcome s v
  have hpast := inLeft_pastByte s.eng n m
  exact h.advanced (decoding_pastByte n m hdec hleft) hwidths
    (by change (s.eng.pastByte n m).inLeft + 1 < _; omega)

/-- A literal byte keeps the pending literals within IN and OUT (R237). -/
theorem literalByte_advanced {s : State} (v : Byte) (hstage : s.eng.stage = .literal) (hdec : s.eng.decoding)
    (hwidths : s.eng.widthsOk) (hpos : 0 < s.eng.recN) (hin : s.eng.recN ≤ s.eng.inLeft)
    (hout : s.eng.recN ≤ s.eng.capEff - s.eng.outPos) :
    (s.literalByte v).eng.AdvancedBelow (s.eng.inLeft + 1) := by
  have ⟨_, _, hinPos, houtPos, _⟩ := hdec
  have hleft : (s.pastLiteral v).eng.inLeft = s.eng.inLeft - 1 := Nat.sub_add_eq _ _ _
  have hdec' : (s.pastLiteral v).eng.decoding :=
    decoding_move hdec (SameArgs.refl _) (by simp only [Engine.inLeft, State.pastLiteral] at hin ⊢; omega)
      (by simp only [State.pastLiteral]; omega)
  obtain ⟨hmore, h⟩ | h := literalByte_cases s v
  · rw [h]
    have hremaining : (s.pastLiteral v).eng.remaining = (s.pastLiteral v).eng.inLeft + 1 := by
      simp only [Engine.remaining, State.pastLiteral, hstage]
    have hsound : (s.pastLiteral v).eng.sound := by
      have hcap : (s.pastLiteral v).eng.capEff - (s.pastLiteral v).eng.outPos = s.eng.capEff - s.eng.outPos - 1 :=
        Nat.sub_add_eq _ _ _
      have hrec : (s.pastLiteral v).eng.recN = s.eng.recN - 1 := rfl
      have hstage' : (s.pastLiteral v).eng.stage = .literal := hstage
      simp only [Engine.sound, hstage']
      exact ⟨hdec', hwidths, by omega, by omega, by omega⟩
    exact .inr ⟨hsound, by omega⟩
  · exact h.advanced hdec' hwidths (by omega)

/-- A decoder step advances where something stands at the cursor and every instruction it can be advances: an exhausted
input and the end of the stream complete the command. -/
theorem decoderStep_advanced_of {s : State} {n : Nat} (hlost : fetch s ≠ .lost)
    (hinstr : ∀ i, s.eng.expects = some i.format → i.format.size ≤ s.eng.inLeft →
      ∃ t, exec i s = .next t ∧ t.eng.AdvancedBelow n) :
    ∃ t, decoderStep s = .next t ∧ t.eng.AdvancedBelow n := by
  obtain ⟨i, hi, h⟩ | ⟨c, -, h⟩ | ⟨-, h⟩ | ⟨hi, -⟩ := decoderStep_cases s
  · obtain ⟨f, hf, rfl, hsize⟩ := fetch_instr hi
    rw [h]
    exact hinstr i hf hsize
  · exact ⟨_, h, .inl rfl⟩
  · exact ⟨_, h, .inl rfl⟩
  · exact absurd hi hlost

theorem decoderStep_classByte_advanced {s : State} (hstage : s.eng.stage = .classByte) (hdec : s.eng.decoding)
    (hpos : s.eng.inPos = 0) : ∃ t, decoderStep s = .next t ∧ t.eng.AdvancedBelow (s.eng.inLeft + 1) := by
  have hf : s.eng.expects = some .classByte := by simp only [Engine.expects, hstage]
  have ⟨_, hlen, _⟩ := hdec
  refine decoderStep_advanced_of (fetch_ne_lost hf (by simp) fun _ => ?_) fun i hi _ => ?_
  · simp only [Engine.inLeft]; omega
  · rw [hf, Option.some_inj] at hi
    obtain ⟨c, h⟩ | h := exec_classByte hi.symm s
    · exact ⟨_, h, selectClass_advanced c hdec hpos⟩
    · exact ⟨_, h, .inl rfl⟩

theorem decoderStep_tag_advanced {s : State} (hstage : s.eng.stage = .tag) (hdec : s.eng.decoding)
    (hwidths : s.eng.widthsOk) : ∃ t, decoderStep s = .next t ∧ t.eng.AdvancedBelow (s.eng.inLeft + 1) := by
  have hf : s.eng.expects = some (.tag s.eng.cls) := by simp only [Engine.expects, hstage]
  refine decoderStep_advanced_of (fetch_ne_lost hf (by simp) (by simp)) fun i hi hsize => ?_
  rw [hf, Option.some_inj] at hi
  obtain ⟨nf, rf, off, h⟩ := exec_tag hi.symm s
  rw [← hi] at hsize
  exact ⟨_, h, tagRecord_advanced nf rf off hdec hwidths hsize⟩

/-- In either chain: the literal-length chain, or the repeat-length chain of a REP. -/
theorem decoderStep_chain_advanced {s : State}
    (hstage : s.eng.stage = .nrChain ∨ s.eng.stage = .rChain ∧ s.eng.recOff ≠ 0) (hdec : s.eng.decoding)
    (hwidths : s.eng.widthsOk) : ∃ t, decoderStep s = .next t ∧ t.eng.AdvancedBelow (s.eng.inLeft + 1) := by
  have hf : s.eng.expects = some .esc := by
    obtain h | ⟨h, -⟩ := hstage <;> simp only [Engine.expects, h]
  refine decoderStep_advanced_of (fetch_ne_lost hf (by simp) (by simp)) fun i hi hsize => ?_
  rw [hf, Option.some_inj] at hi
  rw [← hi] at hsize
  obtain h | ⟨v, h⟩ := exec_esc hi.symm s
  · refine ⟨_, h, .inr ?_⟩
    obtain ⟨n, m, he⟩ := addEscape_eq s Config.escByteMax
    have hdec' := decoding_pastByte n m hdec hsize
    have hleft : (s.eng.pastByte n m).inLeft + 1 < s.eng.inLeft + 1 := by
      have := inLeft_pastByte s.eng n m
      have : 1 ≤ s.eng.inLeft := hsize
      omega
    rw [State.escapeCont, he]
    change (s.eng.pastByte n m).sound ∧ (s.eng.pastByte n m).remaining < _
    obtain hst | ⟨hst, hoff⟩ := hstage
    · have hst' : (s.eng.pastByte n m).stage = .nrChain := hst
      simp only [Engine.sound, Engine.remaining, hst']
      exact ⟨⟨hdec', hwidths⟩, hleft⟩
    · have hst' : (s.eng.pastByte n m).stage = .rChain := hst
      simp only [Engine.sound, Engine.remaining, hst']
      exact ⟨⟨hdec', hwidths, hoff⟩, hleft⟩
  · exact ⟨_, h, escapeEnd_advanced v hdec hwidths hsize⟩

theorem decoderStep_literal_advanced {s : State} (hstage : s.eng.stage = .literal) (hdec : s.eng.decoding)
    (hwidths : s.eng.widthsOk) (hpos : 0 < s.eng.recN) (hin : s.eng.recN ≤ s.eng.inLeft)
    (hout : s.eng.recN ≤ s.eng.capEff - s.eng.outPos) :
    ∃ t, decoderStep s = .next t ∧ t.eng.AdvancedBelow (s.eng.inLeft + 1) := by
  have hf : s.eng.expects = some .lit := by simp only [Engine.expects, hstage]
  refine decoderStep_advanced_of (fetch_ne_lost hf (by simp) fun _ => by omega) fun i hi _ => ?_
  rw [hf, Option.some_inj] at hi
  obtain ⟨v, h⟩ := exec_lit hi.symm s
  exact ⟨_, h, literalByte_advanced v hstage hdec hwidths hpos hin hout⟩

/-! ## The encoder -/

theorem scanDone_advanced {s : State} (parse : List ParseRecord) {n : Nat} (henc : s.eng.encoding) (hn : 1 < n) :
    (s.scanDone parse).eng.AdvancedBelow n := by
  obtain ⟨-, h⟩ | ⟨hop, h⟩ := scanDone_cases s parse <;> rw [h]
  · exact .inl rfl
  · exact .inr ⟨⟨henc, hop⟩, hn⟩

/-- A scan that goes on further along its region is sound with less left to do. -/
theorem scan_advanced {e f : Engine} {n : Nat} (hstage : f.stage = .scan) (henc : f.encoding) (hctr : 2 ≤ f.ctr)
    (hend : f.scanEnd = e.scanEnd) (hp : e.p < f.p) (hle : e.p < e.scanEnd) (hn : n = e.scanEnd - e.p + 2) :
    f.AdvancedBelow n := by
  simp only [Engine.AdvancedBelow, Engine.sound, Engine.remaining, hstage]
  exact .inr ⟨⟨henc, hctr⟩, by omega⟩

/-- A probe moves the scan on: a match by at least the 4 bytes compared, a miss by half the counter, which is at least 2
(41_encoder.md R193, R195). -/
theorem scanStep_advanced {s : State} (hstage : s.eng.stage = .scan) (henc : s.eng.encoding) (hctr : 2 ≤ s.eng.ctr) :
    s.scanStep.eng.AdvancedBelow s.eng.remaining := by
  have hremaining : s.eng.remaining = s.eng.scanEnd - s.eng.p + 2 := by simp only [Engine.remaining, hstage]
  unfold State.scanStep
  split
  · exact scanDone_advanced _ henc (by omega)
  · obtain ⟨hprobe, e, h, ⟨-, hsame, rfl⟩ | rfl⟩ | ⟨-, h⟩ := scanReference_cases s <;> rw [h]
    · have hfin : s.eng.p + 6 ≤ s.eng.scanEnd := hprobe
      have hmatch := probe_add_four_le_match_end s.eng.lit hsame (by omega : s.eng.p + 4 ≤ s.eng.scanEnd)
      exact scan_advanced (e := s.eng) hstage henc (Nat.le_refl 2) rfl (by simp only [Engine.takeMatch]; omega)
        (by omega) hremaining
    · have hfin : s.eng.p + 6 ≤ s.eng.scanEnd := hprobe
      have hhalf : 1 ≤ s.eng.ctr >>> 1 := by rw [Nat.shiftRight_one]; omega
      exact scan_advanced (e := s.eng) hstage henc (Nat.le_succ_of_le hctr) rfl (by simp only [Engine.missProbe]; omega)
        (by omega) hremaining
    · exact scanDone_advanced _ henc (by omega)

/-- An emission completes the command (41_encoder.md R180). -/
theorem emitStep_idle (s : State) : s.emitStep.eng.phase = .idle := by
  obtain ⟨-, h⟩ | ⟨-, -, h⟩ | ⟨-, -, h | h⟩ := emitStep_cases s <;> rw [h] <;> rfl

/-! ## The engine -/

/-- From a sound stage an engine step reaches a next state, which is idle or sound with less left to do. -/
theorem engineStep_advanced {s : State} (hrun : s.eng.phase = .run) (hsound : s.eng.sound) :
    ∃ t, engineStep s = .next t ∧ t.eng.AdvancedBelow s.eng.remaining := by
  simp only [engineStep, hrun]
  cases hstage : s.eng.stage <;> simp only [Engine.sound, hstage] at hsound <;>
    simp only [Engine.remaining, hstage]
  case classByte =>
    obtain ⟨hdec, hpos, -⟩ := hsound
    exact decoderStep_classByte_advanced hstage hdec hpos
  case tag => exact decoderStep_tag_advanced hstage hsound.1 hsound.2
  case nrChain => exact decoderStep_chain_advanced (.inl hstage) hsound.1 hsound.2
  case rChain =>
    obtain ⟨hdec, hwidths, hoff⟩ := hsound
    exact decoderStep_chain_advanced (.inr ⟨hstage, hoff⟩) hdec hwidths
  case literal =>
    obtain ⟨hdec, hwidths, hpos, hin, hout⟩ := hsound
    exact decoderStep_literal_advanced hstage hdec hwidths hpos hin hout
  case scan =>
    have hadv := scanStep_advanced hstage hsound.1 hsound.2
    simp only [Engine.remaining, hstage] at hadv
    exact ⟨_, rfl, hadv⟩
  case emit => exact ⟨_, rfl, .inl (emitStep_idle s)⟩

/-- An engine step of a sound state reaches a next sound state. -/
theorem engineStep_sound {s : State} (h : EngineInv s) : ∃ t, engineStep s = .next t ∧ EngineInv t := by
  cases hphase : s.eng.phase with
  | idle => exact ⟨s, by simp only [engineStep, hphase], h⟩
  | run =>
    obtain ⟨t, ht, hadv⟩ := engineStep_advanced hphase (h hphase)
    exact ⟨t, ht, hadv.engineInv⟩

end Sys2Proof.Machine
end

section
/-! SUPPORT. What a landing host event can do, said once (10_state.md R21, R42; 20_memory.md R67;
70_reset_and_hazards.md R320), and how a property passes along a step of the whole machine. -/

namespace Sys2Proof.Machine

/-- A landing host event is refused, runs a command word in a block that is not busy, resets the block, writes a
register other than CMD, or leaves registers and engine alone. -/
inductive HostOutcome (s : State) : Result → Prop where
  | refused (r : Refusal) : HostOutcome s (.refused r)
  | command (w : Reg) (r : Result) (hidle : s.busy = false) (h : exec (decodeCmd w) s = r) : HostOutcome s r
  | reset : HostOutcome s (.next s.hardReset)
  | register (off : Nat) (v : Reg) : HostOutcome s (.next (s.writeRegister off v))
  | other (t : State) (hregs : t.regs = s.regs) (heng : t.eng = s.eng) : HostOutcome s (.next t)

theorem landRegWrite_outcome (s : State) (a : Addr) (w : Nat) (v : Reg) : HostOutcome s (landRegWrite s a w v) := by
  obtain ⟨-, h⟩ | ⟨-, h⟩ | ⟨off, -, -, h⟩ | ⟨-, -, h⟩ | ⟨-, hidle, h⟩ := landRegWrite_cases s a w v <;> rw [h]
  · exact .other s rfl rfl
  · exact .refused _
  · exact .register off v
  · exact .other s rfl rfl
  · exact .command v _ hidle rfl

theorem landRegRead_outcome (s : State) (a : Addr) (w : Nat) : HostOutcome s (landRegRead s a w) := by
  obtain ⟨-, h⟩ | ⟨-, h⟩ | ⟨off, -, h⟩ := landRegRead_cases s a w <;> rw [h]
  · exact .other s rfl rfl
  · exact .refused _
  · exact .other _ rfl rfl

theorem hostMemWrite_outcome (s : State) (a : Addr) (v : Byte) : HostOutcome s (hostMemWrite s a v) := by
  unfold hostMemWrite
  split
  · exact .refused _
  · exact .other _ rfl rfl

theorem hostMemRead_outcome (s : State) (a : Addr) : HostOutcome s (.next (s.hostMemRead a)) := by
  unfold State.hostMemRead
  split <;> exact .other _ rfl rfl

theorem landHost_outcome (act : HostAct) (s : State) : HostOutcome s (landHost act s) := by
  cases act with
  | regWrite a w v => exact landRegWrite_outcome s a w v
  | regRead a w => exact landRegRead_outcome s a w
  | memWrite a v => exact hostMemWrite_outcome s a v
  | memRead a => exact hostMemRead_outcome s a
  | reset => exact .reset

/-- A due event lands alone, or lands and is followed by an engine step (60_exceptions.md R292). -/
theorem landEvent_cases (e : HostEvent) (s : State) :
    landEvent e s = landHost e.act s ∨
    ∃ u, landHost e.act s = .next u ∧ landEvent e s = engineStep u := by
  unfold landEvent thenStep
  split
  · cases h : landHost e.act s <;> simp
  · exact .inl rfl

/-- What engine steps and landing events keep, and the list of pending events does not matter to, every step keeps. -/
theorem step_keeps {P : State → Prop} (hhost : ∀ s l, P s → P { s with host := l })
    (hengine : ∀ s t, P s → engineStep s = .next t → P t)
    (hland : ∀ act s t, P s → landHost act s = .next t → P t) {s t : State} (hs : P s) (h : step s = .next t) :
    P t := by
  obtain ⟨-, hstep⟩ | ⟨e, rest, -, -, hstep⟩ | ⟨e, rest, -, -, hstep⟩ := step_cases s <;> rw [hstep] at h
  · exact hengine s t hs h
  · have hs' := hhost s rest hs
    obtain hland' | ⟨u, hu, hengine'⟩ := landEvent_cases e { s with host := rest }
    · exact hland _ _ t hs' (hland' ▸ h)
    · exact hengine u t (hland _ _ u hs' hu) (hengine' ▸ h)
  · exact hengine _ t (hhost s _ hs) h

end Sys2Proof.Machine
end

section
/-! The registers: every step keeps the reserved fields 0, BUSY equal to RUN and the results 0 while BUSY. -/

namespace Sys2Proof.Machine

/-- Only registers and phase count. -/
theorem RegisterInv.of_same {s t : State} (h : RegisterInv s) (hregs : t.regs = s.regs)
    (hphase : t.eng.phase = s.eng.phase) : RegisterInv t := by
  simpa only [RegisterInv, State.busy, hregs, hphase] using h

theorem cause_toReg_lt (c : Cause) : c.toReg.toNat < 256 := by
  cases c <;> decide

/-- Setting DONE_PEND keeps the reserved bits 0. -/
theorem setDonePend_le {pend : Reg} (h : pend.toNat ≤ 1) : (pend ||| 1).toNat ≤ 1 := by
  have hlt : pend.toNat < 2 ^ 1 := Nat.lt_succ_of_le h
  rw [BitVec.toNat_or]
  exact Nat.le_of_lt_succ (Nat.or_lt_two_pow hlt (by decide))

/-- Clearing DONE_PEND keeps the reserved bits 0. -/
theorem clearDonePend_le {pend : Reg} (v : Reg) (h : pend.toNat ≤ 1) : (clearDonePend pend v).toNat ≤ 1 := by
  unfold clearDonePend
  rw [BitVec.toNat_and]
  exact Nat.le_trans Nat.and_le_left h

/-- A completion leaves the registers legal: BUSY is 0 and the engine is idle (10_state.md R43). -/
theorem registerInv_of_ended {s t : State} {result pos : Reg} {c : Cause} (h : RegisterInv s)
    (hend : EndedWith s t result c.toReg pos) : RegisterInv t := by
  obtain ⟨hcmd, -, -, hen, hpend, -, -⟩ := h
  obtain ⟨hregs, hphase, -⟩ := hend
  have hstatus : t.regs.status = 2 := by rw [hregs]; rfl
  have hidle : t.busy = false := by simp [State.busy, hstatus]
  refine ⟨?_, ?_, ?_, ?_, ?_, ?_, ?_⟩
  · rw [hregs]; exact hcmd
  · rw [hstatus]; decide
  · rw [hregs]; exact cause_toReg_lt c
  · rw [hregs]; exact hen
  · rw [hregs]; exact setDonePend_le hpend
  · rw [hidle, hphase]; decide
  · simp [hidle]

theorem registerInv_goesOnOrEnds {s t : State} (h : RegisterInv s) (hstep : GoesOnOrEnds s t) : RegisterInv t := by
  obtain ⟨hregs, hphase, -⟩ | ⟨_, _, _, hend⟩ := hstep
  · exact h.of_same hregs hphase
  · exact registerInv_of_ended h hend

/-- Acceptance leaves the registers legal: BUSY is 1, the engine is in RUN and the results are cleared (R42). -/
theorem registerInv_accept {s : State} (op : BitVec 4) (h : RegisterInv s) : RegisterInv (s.accept op) := by
  obtain ⟨-, -, -, hen, hpend, -, -⟩ := h
  have hcmd : (op.setWidth 32 : Reg).toNat < 16 := by
    rw [BitVec.toNat_setWidth_of_le (by decide)]; exact op.isLt
  have hstatus : statusBusy.toNat ≤ 2 := by decide
  have hbusy : (s.accept op).busy = true := by simp [State.busy, statusBusy]
  exact ⟨hcmd, hstatus, Nat.zero_lt_succ 255, hen, hpend, ⟨fun _ => rfl, fun _ => hbusy⟩, fun _ => ⟨rfl, rfl, rfl⟩⟩

theorem registerInv_command {s t : State} {op : BitVec 4} (h : RegisterInv s) (hcmd : CommandOutcome s op (.next t)) :
    RegisterInv t := by
  have hacc := registerInv_accept op h
  cases hcmd with
  | failed st c => exact registerInv_of_ended hacc (c := c) ⟨rfl, rfl, SameSurroundings.refl _⟩
  | launched _ hl => exact hacc.of_same hl.regs hl.phase

/-- A register write leaves the read-only registers alone (R22). -/
theorem regWrite_readOnly (r : Regs) (off : Nat) (v : Reg) :
    (regWrite r off v).cmd = r.cmd ∧ (regWrite r off v).status = r.status ∧ (regWrite r off v).result = r.result ∧
    (regWrite r off v).cause = r.cause ∧ (regWrite r off v).faultPos = r.faultPos := by
  unfold regWrite
  split <;> exact ⟨rfl, rfl, rfl, rfl, rfl⟩

theorem regWrite_irqEn (r : Regs) (off : Nat) (v : Reg) :
    (regWrite r off v).irqEn = if off = 0x20 then v &&& 1 else r.irqEn := by
  unfold regWrite
  split <;> simp_all

theorem regWrite_irqPend (r : Regs) (off : Nat) (v : Reg) :
    (regWrite r off v).irqPend = if off = 0x24 then clearDonePend r.irqPend v else r.irqPend := by
  unfold regWrite
  split <;> simp_all

theorem registerInv_writeRegister {s : State} (off : Nat) (v : Reg) (h : RegisterInv s) :
    RegisterInv (s.writeRegister off v) := by
  obtain ⟨hcmd, hstatus, hresult, hcause, hpos⟩ := regWrite_readOnly s.regs off v
  have ⟨hcmd16, hstatus2, hcause256, hen1, hpend1, hbusy, hresults⟩ := h
  simp only [RegisterInv, State.busy, State.writeRegister_regs, State.writeRegister_eng, hcmd, hstatus, hresult, hcause,
    hpos, regWrite_irqEn, regWrite_irqPend]
  refine ⟨hcmd16, hstatus2, hcause256, ?_, ?_, hbusy, hresults⟩
  · split_ifs
    · rw [BitVec.toNat_and]; exact Nat.and_le_right
    · exact hen1
  · split_ifs
    · exact clearDonePend_le v hpend1
    · exact hpend1

/-- The registers and the engine after reset are legal (R47). -/
theorem registerInv_of_reset {s : State} (hregs : s.regs = Regs.reset) (hphase : s.eng.phase = .idle) :
    RegisterInv s := by
  simp only [RegisterInv, State.busy, hregs, hphase]
  decide

theorem landHost_keeps_registerInv (act : HostAct) {s t : State} (h : RegisterInv s)
    (hland : landHost act s = .next t) : RegisterInv t := by
  have hout := landHost_outcome act s
  rw [hland] at hout
  cases hout with
  | command w _ _ hexec => exact registerInv_command h (hexec ▸ exec_decodeCmd_outcome s w)
  | reset => exact registerInv_of_reset rfl rfl
  | register off v => exact registerInv_writeRegister off v h
  | other _ hregs heng => exact h.of_same hregs (heng ▸ rfl)

/-- Settles O52: an engine step goes on or completes the command, a landing event accepts a command, writes a register,
resets, or leaves the registers alone; each leaves the registers legal. -/
theorem stepKeepsRegistersLegal : Obligations.StepKeepsRegistersLegal := by
  intro s t hs h
  exact step_keeps (P := RegisterInv) (fun _ _ hs => hs)
    (fun _ _ hs ht => registerInv_goesOnOrEnds hs (engineStep_goesOnOrEnds ht))
    (fun act _ _ => landHost_keeps_registerInv act) hs h

end Sys2Proof.Machine
end

section
/-! The running engine: every step keeps it sound, no step faults, and a command left alone completes. -/

namespace Sys2Proof.Machine

theorem engineInv_of_idle {s : State} (h : s.eng.phase = .idle) : EngineInv s := by
  intro hrun
  rw [h] at hrun
  cases hrun

/-- A command word leaves an engine that is idle, or launched and sound. -/
theorem engineInv_command {s t : State} {op : BitVec 4} (hcmd : CommandOutcome s op (.next t)) : EngineInv t := by
  cases hcmd with
  | failed st c => exact engineInv_of_idle rfl
  | launched _ hl => exact fun _ => hl.sound

theorem landHost_keeps_engineInv (act : HostAct) {s t : State} (h : EngineInv s)
    (hland : landHost act s = .next t) : EngineInv t := by
  have hout := landHost_outcome act s
  rw [hland] at hout
  cases hout with
  | command w _ _ hexec => exact engineInv_command (hexec ▸ exec_decodeCmd_outcome s w)
  | reset => exact engineInv_of_idle rfl
  | register off v => exact h
  | other _ _ heng => rw [EngineInv, heng]; exact h

theorem engineStep_keeps_engineInv {s t : State} (h : EngineInv s) (hstep : engineStep s = .next t) : EngineInv t := by
  obtain ⟨u, hu, hinv⟩ := engineStep_sound h
  rw [hu] at hstep
  cases hstep
  exact hinv

/-- Settles O53: an engine step from a sound stage ends idle or sound (`engineStep_sound`), and a landing event that
touches the engine accepts a command, whose checks make it sound, or makes it idle. -/
theorem stepKeepsEngineSound : Obligations.StepKeepsEngineSound := by
  intro s t hs h
  exact step_keeps (P := EngineInv) (fun _ _ hs => hs) (fun _ _ => engineStep_keeps_engineInv)
    (fun act _ _ => landHost_keeps_engineInv act) hs h

theorem engineStep_ne_fault {s : State} (h : EngineInv s) (r : Fault) : engineStep s ≠ .fault r := by
  obtain ⟨t, ht, -⟩ := engineStep_sound h
  rw [ht]
  simp

theorem landHost_ne_fault (act : HostAct) (s : State) (r : Fault) : landHost act s ≠ .fault r := by
  intro hland
  have hout := landHost_outcome act s
  rw [hland] at hout
  cases hout with
  | command w _ _ hexec =>
    have hcmd := exec_decodeCmd_outcome s w
    rw [hexec] at hcmd
    cases hcmd

/-- Settles O56: commands and landing events never fault, and an engine step faults only where the stage is not
sound. -/
theorem soundStateNeverFaults : Obligations.SoundStateNeverFaults := by
  intro s hs r h
  obtain ⟨-, hstep⟩ | ⟨e, rest, -, -, hstep⟩ | ⟨e, rest, -, -, hstep⟩ := step_cases s <;> rw [hstep] at h
  · exact engineStep_ne_fault hs r h
  · have hs' : EngineInv { s with host := rest } := hs
    obtain hland | ⟨u, hu, hland⟩ := landEvent_cases e { s with host := rest } <;> rw [hland] at h
    · exact landHost_ne_fault _ _ r h
    · exact engineStep_ne_fault (landHost_keeps_engineInv _ hs' hu) r h
  · have hs' : EngineInv { s with host := { e with wait := e.wait - 1 } :: rest } := hs
    exact engineStep_ne_fault hs' r h

/-- With no event pending a step is the engine's. -/
theorem step_of_no_host {s : State} (h : s.host = []) : step s = engineStep s := by
  simp only [step, h]

/-- A run begins with one step. -/
theorem run_succ_of_step {s t : State} (h : step s = .next t) (n : Nat) :
    Host.Core.run Sys2Proof.core (n + 1) s = Host.Core.run Sys2Proof.core n t := by
  have hstep : Sys2Proof.core.step s = .next t := h
  simp only [Host.Core.run, hstep]

/-- A sound running engine with no event pending is idle after at most as many steps as it has left to do. -/
theorem completes_of_remaining (n : Nat) {s : State} (hhost : s.host = []) (hadv : s.eng.AdvancedBelow n) :
    ∃ k t, Host.Core.run Sys2Proof.core k s = .next t ∧ t.eng.phase = .idle := by
  induction n generalizing s with
  | zero =>
    obtain hidle | ⟨-, hlt⟩ := hadv
    · exact ⟨0, s, rfl, hidle⟩
    · exact absurd hlt (Nat.not_lt_zero _)
  | succ n ih =>
    cases hphase : s.eng.phase with
    | idle => exact ⟨0, s, rfl, hphase⟩
    | run =>
      obtain hidle | ⟨hsound, hlt⟩ := hadv
      · rw [hidle] at hphase; cases hphase
      · obtain ⟨t, ht, hadv'⟩ := engineStep_advanced hphase hsound
        obtain ⟨-, hhost', -⟩ := (engineStep_goesOnOrEnds ht).surroundings
        obtain ⟨k, u, hrun, hidle⟩ := ih (hhost'.trans hhost) (hadv'.mono (Nat.le_of_lt_succ hlt))
        exact ⟨k + 1, u, (run_succ_of_step ((step_of_no_host hhost).trans ht) k).trans hrun, hidle⟩

/-- Settles O59, by induction on what the engine has left to do: bytes of IN for a decoder, positions of the scan region
and the emission for an encoder. -/
theorem everyCommandCompletes : Obligations.EveryCommandCompletes := by
  intro s hs hhost
  refine completes_of_remaining (s.eng.remaining + 1) hhost ?_
  cases hphase : s.eng.phase with
  | idle => exact .inl hphase
  | run => exact .inr ⟨hs hphase, Nat.lt_succ_self _⟩

end Sys2Proof.Machine
end

section
/-! Command words: what a next state of an accepted command holds, and the invariants after reset. -/

namespace Sys2Proof.Machine

/-- Settles O23: a command that fails at once has written no byte, and a launched one only bytes of its regions. -/
theorem commandAcceptedOrCompleted : Obligations.CommandAcceptedOrCompleted := by
  intro s t w h
  have hcmd := exec_decodeCmd_outcome s w
  rw [h] at hcmd
  cases hcmd with
  | failed st c =>
    have hmem : SameMemory s ((s.accept (w.extractLsb' 0 4)).fail st c 0) := SameMemory.refl s
    have hsur : SameSurroundings s ((s.accept (w.extractLsb' 0 4)).fail st c 0) := SameSurroundings.refl s
    exact ⟨SameArgs.refl _, .inr ⟨st.toReg, c.toReg, rfl, rfl, hmem, hsur⟩, hmem.sameOutside _, hsur⟩
  | launched _ hl => exact ⟨hl.args, .inl ⟨hl.phase, hl.regs⟩, hl.frame, hl.surroundings⟩

/-- Settles O55: nothing is listed in memory, the registers are 0 and the engine is idle. -/
theorem resetSatisfiesInvariants : Obligations.ResetSatisfiesInvariants := by
  refine ⟨Memory.empty_wf, registerInv_of_reset rfl rfl, engineInv_of_idle rfl, fun hrun => ?_⟩
  rw [State.reset_eng, Engine.reset_phase] at hrun
  cases hrun

end Sys2Proof.Machine
end

section
/-! The host port: a due event that is one register access (10_state.md R21, R22, R42). -/

namespace Sys2Proof.Machine

/-- A due event that does not share its cycle lands alone. -/
theorem step_of_due {s : State} {act : HostAct} {rest : List HostEvent} (h : s.host = ⟨0, false, act⟩ :: rest) :
    step s = landHost act { s with host := rest } := by
  simp [step, h, landEvent]

/-- Settles O37: CMD is the register at offset 12, and a write that lands there is ignored while BUSY. -/
theorem stepRunsCommandWord : Obligations.StepRunsCommandWord := by
  intro s w rest h
  have hacc : regAccess s.params (s.params.regBase + 12) 4 = .register cmdOffset :=
    regAccess_offset s.params 12 (by decide) (by decide)
  have hstep : step s = writeCommand { s with host := rest } w := by
    rw [step_of_due h]
    simp only [landHost, landRegWrite, hacc, if_true]
  constructor <;> intro hbusy
  · rw [hstep]; exact if_neg (by simpa [State.busy] using hbusy)
  · rw [hstep]; exact if_pos hbusy

/-- Every offset that R22 does not list reads 0. -/
theorem regRead_unlisted (p : Params) (r : Regs) {off : Nat} (h : off = 0x38 ∨ off = 0x3C ∨ 0x60 ≤ off) :
    regRead p r off = 0 := by
  unfold regRead
  split <;> try rfl
  all_goals omega

/-- Settles O43: the read lands at its own register and answers `regRead`. -/
theorem registerReadsAsListed : Obligations.RegisterReadsAsListed := by
  intro s off rest hoff halign h
  have hstep : step s = .next { s with host := rest, busData := regRead s.params s.regs off } := by
    rw [step_of_due h]
    simp only [landHost, landRegRead, regAccess_offset s.params off hoff halign]
    rfl
  refine ⟨_, hstep, ?_, ?_, ?_, ?_, ?_, ?_, ?_, ?_, ?_, ?_, ?_, ?_, ?_, ?_, ?_, ?_, ?_, ?_, ?_, ?_, ?_, ?_,
    regRead_unlisted _ _⟩
  all_goals rintro rfl; rfl

/-- A write changes what its own offset reads and no other. -/
theorem regRead_regWrite_other (p : Params) (r : Regs) {off other : Nat} (v : Reg) (h : other ≠ off) :
    regRead p (regWrite r off v) other = regRead p r other := by
  unfold regWrite
  split <;> unfold regRead <;> split <;> try rfl
  all_goals exact absurd rfl h

/-- The argument registers, at 0x28 to 0x34 and 0x40 to 0x5C, read what was written. -/
theorem regRead_regWrite_argument (p : Params) (r : Regs) {k : Nat} (v : Reg)
    (h : 10 ≤ k ∧ k ≤ 13 ∨ 16 ≤ k ∧ k ≤ 23) : regRead p (regWrite r (4 * k) v) (4 * k) = v := by
  obtain ⟨hlo, hhi⟩ | ⟨hlo, hhi⟩ := h <;> interval_cases k <;> rfl

/-- The read-only and the unlisted offsets ignore a write. -/
theorem regWrite_ignored (r : Regs) {off : Nat} (v : Reg)
    (h : off < 0x20 ∨ off = 0x38 ∨ off = 0x3C ∨ 0x60 ≤ off) : regWrite r off v = r := by
  unfold regWrite
  split <;> simp_all

/-- IRQ_PEND is write-1-to-clear in bit 0 (R22). -/
theorem clearDonePend_eq (pend v : Reg) :
    clearDonePend pend v = if v.getLsbD 0 then pend &&& 0xFFFFFFFE else pend := by
  have hbit : v &&& 1 = (BitVec.ofBool (v.getLsbD 0)).setWidth 32 := BitVec.and_one_eq_setWidth_ofBool_getLsbD
  unfold clearDonePend
  rw [hbit]
  cases v.getLsbD 0 with
  | true => rfl
  | false => exact BitVec.and_allOnes

/-- Settles O44: the write lands as `regWrite` of its offset, which is not CMD's. -/
theorem registerWriteStaysInItsRegister : Obligations.RegisterWriteStaysInItsRegister := by
  intro s off v rest hoff halign hcmd h
  have hstep : step s = .next { s with host := rest, regs := regWrite s.regs off v } := by
    have hne : off ≠ cmdOffset := hcmd
    rw [step_of_due h]
    simp only [landHost, landRegWrite, regAccess_offset s.params off hoff halign, if_neg hne]
    rfl
  refine ⟨_, hstep, fun other => regRead_regWrite_other _ _ v, ?_, ?_, fun harg => ?_, regWrite_ignored _ v⟩
  · rintro rfl; rfl
  · rintro rfl; exact clearDonePend_eq _ v
  · obtain ⟨k, rfl⟩ := Nat.dvd_of_mod_eq_zero halign
    exact regRead_regWrite_argument _ _ v (by omega)

/-! ## Accesses that are not one register's -/

/-- Byte `i` of an access lies `i` further behind REG_BASE, modulo 2^64. -/
theorem regDistance_byte (p : Params) (a : Addr) (i : Nat) :
    (a + BitVec.ofNat 64 i - p.regBase).toNat = (regDistance p a + i) % 2 ^ 64 := by
  have hcomm : a + BitVec.ofNat 64 i - p.regBase = a - p.regBase + BitVec.ofNat 64 i :=
    add_sub_right_comm _ _ _
  rw [hcomm, BitVec.toNat_add, BitVec.toNat_ofNat, Nat.add_mod_mod, regDistance]

/-- An access reaches the block exactly where it is a register access or an odd one (log entry 15). -/
theorem regAccess_eq_odd {p : Params} {a : Addr} {w : Nat}
    (hreach : (a - p.regBase).toNat < 256 ∨ ∃ i, i < w ∧ (a + BitVec.ofNat 64 i - p.regBase).toNat < 256)
    (hodd : ¬(w = 4 ∧ (a - p.regBase).toNat < 256 ∧ (a - p.regBase).toNat % 4 = 0)) : regAccess p a w = .odd := by
  change regDistance p a < 256 ∨ _ at hreach
  change ¬(w = 4 ∧ regDistance p a < 256 ∧ regDistance p a % 4 = 0) at hodd
  obtain ⟨-, hfar, hend⟩ | ⟨h, -⟩ | ⟨-, hnear, h4, halign⟩ := regAccess_cases p a w
  · obtain hnear | ⟨i, hi, hbyte⟩ := hreach
    · omega
    · rw [regDistance_byte, Nat.mod_eq_of_lt (by omega)] at hbyte
      omega
  · exact h
  · exact absurd ⟨h4, hnear, halign⟩ hodd

theorem regAccess_eq_outside {p : Params} {a : Addr} {w : Nat} (hfar : 256 ≤ (a - p.regBase).toNat)
    (hbytes : ∀ i, i < w → 256 ≤ (a + BitVec.ofNat 64 i - p.regBase).toNat) : regAccess p a w = .outside := by
  change 256 ≤ regDistance p a at hfar
  obtain ⟨h, -⟩ | ⟨-, ⟨hnear, -⟩ | ⟨-, hend⟩⟩ | ⟨-, hnear, -⟩ := regAccess_cases p a w
  · exact h
  · omega
  · have hlt : regDistance p a < 2 ^ 64 := (a - p.regBase).isLt
    have hwrap := hbytes (2 ^ 64 - regDistance p a) (by omega)
    rw [regDistance_byte, Nat.add_sub_cancel' hlt.le, Nat.mod_self] at hwrap
    omega
  · omega

/-- Settles O45: `regAccess` calls an access odd exactly where one of its bytes lies in the block and it is no
register's, and a read and a write that are odd are refused alike. -/
theorem oddRegisterAccessIsRefused : Obligations.OddRegisterAccessIsRefused := by
  intro s a width v rest h
  have hodd : regAccess s.params a width = .odd → step s = .refused .registerAccess := by
    intro hacc
    obtain h | h := h <;> rw [step_of_due h] <;> simp only [landHost, landRegWrite, landRegRead, hacc]
  have houtside : regAccess s.params a width = .outside → step s = .next { s with host := rest } := by
    intro hacc
    obtain h | h := h <;> rw [step_of_due h] <;> simp only [landHost, landRegWrite, landRegRead, hacc]
  exact ⟨fun hreach hno => hodd (regAccess_eq_odd hreach hno),
    fun hfar hbytes => houtside (regAccess_eq_outside hfar hbytes)⟩

end Sys2Proof.Machine
end

section
/-! SUPPORT. How one step edits memory, said once: by byte writes, zero fills and openings, and at which addresses
(20_memory.md R60 to R62). -/

namespace Sys2Proof.Machine

/-! ## Edits -/

/-- Memory made from another by the writing operations, each at addresses of `P`. -/
inductive Edited (P : Nat → Prop) (m : Memory) : Memory → Prop where
  | refl : Edited P m m
  | write {n : Memory} (h : Edited P m n) (a : Nat) (v : Byte) (htop : a < 2 ^ 64) (ha : P a) :
      Edited P m (n.write a v)
  | zero {n : Memory} (h : Edited P m n) (base len : Nat) (ha : ∀ a, base ≤ a → a < base + len → P a) :
      Edited P m (n.zero base len)
  | havoc {n : Memory} (h : Edited P m n) (base len draw : Nat) (ha : ∀ a, base ≤ a → a < base + len → P a) :
      Edited P m (n.havoc base len draw)

variable {P : Nat → Prop} {m n : Memory}

theorem Edited.trans {k : Memory} (h : Edited P m n) (hk : Edited P n k) : Edited P m k := by
  induction hk with
  | refl => exact h
  | write _ a v htop ha ih => exact ih.write a v htop ha
  | zero _ base len ha ih => exact ih.zero base len ha
  | havoc _ base len draw ha ih => exact ih.havoc base len draw ha

/-- Every edit keeps the canonical form. -/
theorem Edited.wf (h : Edited P m n) (hm : m.wf) : n.wf := by
  induction h with
  | refl => exact hm
  | write _ a v htop _ ih => exact Memory.write_wf _ a v ih htop
  | zero _ base len _ ih => exact Memory.zero_wf _ base len ih
  | havoc _ base len draw _ ih => exact Memory.havoc_wf _ base len draw ih

/-- An edit leaves every byte alone that is not at an address of `P`. -/
theorem Edited.read_eq (h : Edited P m n) {a : Nat} (ha : ¬P a) : n.read a = m.read a := by
  induction h with
  | refl => rfl
  | write _ b v _ hb ih =>
    have hne : a ≠ b := by rintro rfl; exact ha hb
    rw [Memory.read_write_other _ _ _ _ hne, ih]
  | zero _ base len hspan ih => rw [Memory.read_zero, if_neg fun hin => ha (hspan a hin.1 hin.2), ih]
  | havoc _ base len draw hspan ih => rw [Memory.read_havoc, if_neg fun hin => ha (hspan a hin.1 hin.2), ih]

/-- Byte `k + 1` of a region is byte `k` of the region one further on. -/
theorem byteAddr_succ (base : Addr) (k : Nat) : byteAddr (base + 1) k = byteAddr base (k + 1) := by
  simp only [byteAddr]
  bv_omega

/-- Byte `k` of the rest of a region from `off` on. -/
theorem byteAddr_offset (base : Addr) (off k : Nat) :
    byteAddr (base + BitVec.ofNat 64 off) k = byteAddr base (off + k) := by
  simp only [byteAddr]
  bv_omega

theorem byteAddr_lt (base : Addr) (k : Nat) : byteAddr base k < 2 ^ 64 := BitVec.isLt _

/-- A byte-serial copy edits its destination (40_primitives.md R140, R141). -/
theorem edited_copy (m : Memory) (src dst : Addr) (n : Nat) (h : ∀ k, k < n → P (byteAddr dst k)) :
    Edited P m (m.copy src dst n) := by
  induction n generalizing m src dst with
  | zero => exact .refl
  | succ n ih =>
    have hfirst : Edited P m (m.write dst.toNat (m.read src.toNat)) :=
      Edited.refl.write _ _ dst.isLt (byteAddr_zero dst ▸ h 0 n.succ_pos)
    exact hfirst.trans (ih _ _ _ fun k hk => byteAddr_succ dst k ▸ h (k + 1) (Nat.succ_lt_succ hk))

/-- A byte string edits the bytes it is written to. -/
theorem edited_writeBytes (m : Memory) (a : Addr) (bs : List Byte) (h : ∀ k, k < bs.length → P (byteAddr a k)) :
    Edited P m (m.writeBytes a bs) := by
  induction bs generalizing m a with
  | nil => exact .refl
  | cons b rest ih =>
    have hfirst : Edited P m (m.write a.toNat b) :=
      Edited.refl.write _ _ a.isLt (byteAddr_zero a ▸ h 0 (Nat.succ_pos _))
    exact hfirst.trans (ih _ _ fun k hk => byteAddr_succ a k ▸ h (k + 1) (Nat.succ_lt_succ hk))

/-! ## The decoder -/

/-- Every byte of a region is at an address of `P`, whether found by its place or by its number (00_scope.md R12). -/
structure Covers (P : Nat → Prop) (base : Addr) (len : Nat) : Prop where
  place : ∀ a, base.toNat ≤ a → a < base.toNat + len → P a
  byte : ∀ k, k < len → P (byteAddr base k)

/-- What of a region lies behind its first `off` bytes. -/
theorem Covers.rest {base : Addr} {len : Nat} (h : Covers P base len) (off a : Nat) (hlo : base.toNat + off ≤ a)
    (hhi : a < base.toNat + off + (len - off)) : P a := h.place a (by omega) (by omega)

/-- The decoder opens OUT where it fails (42_decoder.md R250). -/
theorem decodeFail_edited {s : State} (st : Status) (c : Cause) (pos : Nat)
    (hout : Covers P s.eng.outAddr s.eng.outCap.toNat) : Edited P s.mem (s.decodeFail st c pos).mem :=
  Edited.refl.havoc _ _ _ hout.place

/-- The decoder opens what follows the output where it succeeds (R250). -/
theorem decodeDone_edited {s : State} (hout : Covers P s.eng.outAddr s.eng.outCap.toNat) :
    Edited P s.mem s.decodeDone.mem :=
  Edited.refl.havoc _ _ _ (hout.rest s.eng.outPos)

/-- A repeat that passed the capacity check stays in OUT (R240, R242). -/
theorem repeatBody_edited {s : State} (hout : Covers P s.eng.outAddr s.eng.outCap.toNat) :
    Edited P s.mem s.repeatBody.mem := by
  obtain ⟨-, h⟩ | ⟨-, -, h⟩ | ⟨-, hroom, h⟩ := repeatBody_cases s <;> rw [h]
  · exact decodeFail_edited _ _ _ hout
  · exact decodeFail_edited _ _ _ hout
  · refine edited_copy _ _ _ _ fun k hk => ?_
    have hcap : s.eng.capEff ≤ s.eng.outCap.toNat := Nat.min_le_left _ _
    rw [byteAddr_offset]
    exact hout.byte _ (by omega)

theorem terminal_edited {s : State} (hout : Covers P s.eng.outAddr s.eng.outCap.toNat) :
    Edited P s.mem s.terminal.mem := by
  obtain ⟨-, h⟩ | ⟨-, -, h⟩ | ⟨-, -, h⟩ := terminal_cases s <;> rw [h]
  · exact decodeFail_edited _ _ _ hout
  · exact decodeFail_edited _ _ _ hout
  · exact decodeDone_edited hout

theorem afterLiterals_edited {s : State} (hout : Covers P s.eng.outAddr s.eng.outCap.toNat) :
    Edited P s.mem s.afterLiterals.mem := by
  obtain ⟨-, h⟩ | ⟨-, -, h⟩ | ⟨-, -, h⟩ := afterLiterals_cases s <;> rw [h]
  · exact terminal_edited hout
  · exact .refl
  · exact repeatBody_edited hout

theorem literalBounds_edited {s : State} (hout : Covers P s.eng.outAddr s.eng.outCap.toNat) :
    Edited P s.mem s.literalBounds.mem := by
  obtain ⟨-, h⟩ | ⟨-, -, h⟩ | ⟨-, h⟩ | ⟨-, -, -, h⟩ := literalBounds_cases s <;> rw [h]
  · exact decodeFail_edited _ _ _ hout
  · exact decodeFail_edited _ _ _ hout
  · exact afterLiterals_edited hout
  · exact .refl

theorem tagRecord_edited {s : State} (nf rf off : Nat) (hout : Covers P s.eng.outAddr s.eng.outCap.toNat) :
    Edited P s.mem (s.tagRecord nf rf off).mem := by
  obtain h | h := tagRecord_cases s nf rf off <;> rw [h]
  · exact .refl
  · exact literalBounds_edited (s := { s with eng := s.eng.pastTag nf rf off }) hout

theorem escapeEnd_edited {s : State} (v : Byte) (hout : Covers P s.eng.outAddr s.eng.outCap.toNat) :
    Edited P s.mem (s.escapeEnd v).mem := by
  obtain ⟨n, m, h⟩ := addEscape_eq s v.toNat
  unfold State.escapeEnd
  rw [h]
  split
  · exact literalBounds_edited (s := { s with eng := s.eng.pastByte n m }) hout
  · exact repeatBody_edited (s := { s with eng := s.eng.pastByte n m }) hout

/-- A literal byte is written at the output cursor; its run's last is followed by the record's end (R236). -/
theorem literalByte_edited {s : State} (v : Byte) (hout : Covers P s.eng.outAddr s.eng.outCap.toNat)
    (hcursor : P (byteAddr s.eng.outAddr s.eng.outPos)) : Edited P s.mem (s.literalByte v).mem := by
  have hlit : Edited P s.mem (s.pastLiteral v).mem := Edited.refl.write _ _ (byteAddr_lt _ _) hcursor
  unfold State.literalByte
  dsimp only
  split
  · exact hlit.trans (afterLiterals_edited (s := s.pastLiteral v) hout)
  · exact hlit

/-- Only the literal stage expects a literal byte. -/
theorem expects_lit {e : Engine} (h : e.expects = some .lit) : e.stage = .literal := by
  unfold Engine.expects at h
  split at h <;> simp_all

/-- A decoder step edits OUT: the cursor's byte where it is at a literal, and bytes within the capacity. -/
theorem decoderStep_edited {s t : State} (hout : Covers P s.eng.outAddr s.eng.outCap.toNat)
    (hcursor : s.eng.stage = .literal → P (byteAddr s.eng.outAddr s.eng.outPos)) (h : decoderStep s = .next t) :
    Edited P s.mem t.mem := by
  obtain ⟨i, hi, he⟩ | ⟨c, -, he⟩ | ⟨-, he⟩ | ⟨-, he⟩ := decoderStep_cases s <;> rw [he] at h
  · obtain ⟨f, hf, hfmt, -⟩ := fetch_instr hi
    cases f with
    | cmd => exact absurd rfl (expects_ne_cmd hf)
    | classByte =>
      obtain ⟨c, hx⟩ | hx := exec_classByte hfmt s <;> rw [hx] at h <;> cases h
      · exact .refl
      · exact decodeFail_edited _ _ _ hout
    | tag c =>
      obtain ⟨nf, rf, off, hx⟩ := exec_tag hfmt s
      rw [hx] at h; cases h
      exact tagRecord_edited nf rf off hout
    | esc =>
      obtain hx | ⟨v, hx⟩ := exec_esc hfmt s <;> rw [hx] at h <;> cases h
      · obtain ⟨n, m, hesc⟩ := addEscape_eq s Config.escByteMax
        rw [State.escapeCont, hesc]
        exact .refl
      · exact escapeEnd_edited v hout
    | lit =>
      obtain ⟨v, hx⟩ := exec_lit hfmt s
      rw [hx] at h; cases h
      exact literalByte_edited v hout (hcursor (expects_lit hf))
  · cases h; exact decodeFail_edited _ _ _ hout
  · cases h; exact decodeDone_edited hout
  · cases h

/-! ## The encoder -/

/-- The hash is below the number of table entries (40_primitives.md R137). -/
theorem hash6_lt (mul : BitVec 64) (R : Nat → Byte) (p : Nat) : hash6 mul R p < Config.htEntries := by
  unfold hash6
  generalize (BitVec.ofNat 64 (leValue R p Config.hashBytes) <<< 16) * mul = x
  simp only [Config.htLog2, Config.htEntries, BitVec.toNat_ushiftRight, Nat.shiftRight_eq_div_pow]
  omega

theorem scanDone_mem (s : State) (parse : List ParseRecord) : (s.scanDone parse).mem = s.mem := by
  obtain ⟨-, h⟩ | ⟨-, h⟩ := scanDone_cases s parse <;> rw [h]
  rfl

/-- A table entry's two bytes are in STATE (10_state.md R44). -/
theorem withTableEntry_edited {s : State} {h : Nat} (v : Nat) (hlt : h < Config.htEntries)
    (hstate : Covers P s.eng.stateAddr Config.stateMinSize) : Edited P s.mem (s.withTableEntry h v) := by
  simp only [Config.htEntries] at hlt
  have hlo : P (byteAddr s.eng.stateAddr (2 * h)) := hstate.byte _ (by simp only [Config.stateMinSize]; omega)
  have hhi : P (byteAddr s.eng.stateAddr (2 * h + 1)) := hstate.byte _ (by simp only [Config.stateMinSize]; omega)
  exact (Edited.refl.write _ _ (byteAddr_lt _ _) hlo).write _ _ (byteAddr_lt _ _) hhi

/-- A scan edits STATE: all of it under ANY, one table entry under the reference finder (41_encoder.md R179, R191). -/
theorem scanStep_edited {s : State} (hstate : Covers P s.eng.stateAddr Config.stateMinSize) :
    Edited P s.mem s.scanStep.mem := by
  unfold State.scanStep
  split
  · rw [State.scanAny, scanDone_mem]
    exact Edited.refl.havoc _ _ _ hstate.place
  · obtain ⟨-, e, h, -⟩ | ⟨-, h⟩ := scanReference_cases s <;> rw [h]
    · exact withTableEntry_edited _ (hash6_lt _ _ _) hstate
    · rw [scanDone_mem]; exact .refl

/-- The emission edits OUT: the bytes of the block, which the soft limit bounds, and what the result opens (R180, R189). -/
theorem emitStep_edited {s : State} (hout : Covers P s.eng.outAddr s.eng.outCap.toNat)
    (hblock : ∀ k : Nat, (k : Int) < s.eng.softEff → P (byteAddr s.eng.outAddr k)) : Edited P s.mem s.emitStep.mem := by
  obtain ⟨hfits, h⟩ | ⟨-, -, h⟩ | ⟨-, -, h | h⟩ := emitStep_cases s <;> rw [h]
  · have hwrite := edited_writeBytes s.mem s.eng.outAddr s.block fun k hk => hblock k (by omega)
    exact hwrite.havoc _ _ _ (hout.rest s.block.length)
  · exact Edited.refl.havoc _ _ _ hout.place
  · exact Edited.refl.havoc _ _ _ hout.place
  · exact Edited.refl.havoc _ _ _ hout.place

/-! ## The engine -/

/-- The bytes an engine step may edit at its stage are at addresses of `P`. -/
structure Engine.EditsIn (P : Nat → Prop) (e : Engine) : Prop where
  out : e.stage ≠ .scan → Covers P e.outAddr e.outCap.toNat
  table : e.stage = .scan → Covers P e.stateAddr Config.stateMinSize
  literal : e.stage = .literal → P (byteAddr e.outAddr e.outPos)
  block : e.stage = .emit → ∀ k : Nat, (k : Int) < e.softEff → P (byteAddr e.outAddr k)

theorem engineStep_edited {s t : State} (hin : s.eng.phase = .run → s.eng.EditsIn P) (h : engineStep s = .next t) :
    Edited P s.mem t.mem := by
  obtain ⟨-, he⟩ | ⟨-, -, he⟩ | ⟨hrun, hstage, he⟩ | ⟨hrun, hstage, he⟩ | ⟨hrun, hstage, he⟩ := engineStep_cases s <;>
    rw [he] at h
  · cases h; exact .refl
  · cases h
  · cases h; exact scanStep_edited ((hin hrun).table hstage)
  · cases h; exact emitStep_edited ((hin hrun).out (by simp [hstage])) ((hin hrun).block hstage)
  · have hne : s.eng.stage ≠ .scan := by rintro hscan; simp [hscan] at hstage
    exact decoderStep_edited ((hin hrun).out hne) (hin hrun).literal h

end Sys2Proof.Machine
end

section
/-! Memory in canonical form: every step keeps it, whatever the engine's state (log entry 2). -/

namespace Sys2Proof.Machine

theorem covers_univ (base : Addr) (len : Nat) : Covers (fun _ => True) base len :=
  ⟨fun _ _ _ => trivial, fun _ _ => trivial⟩

theorem editsIn_univ (e : Engine) : e.EditsIn (fun _ => True) :=
  ⟨fun _ => covers_univ _ _, fun _ => covers_univ _ _, fun _ => trivial, fun _ _ _ => trivial⟩

theorem engineStep_keeps_memoryInv {s t : State} (h : MemoryInv s) (hstep : engineStep s = .next t) : MemoryInv t :=
  (engineStep_edited (fun _ => editsIn_univ _) hstep).wf h

/-! ## Commands -/

theorem memoryInv_startEncode {s : State} (c : BlockClass) (clear : Bool) (h : MemoryInv s) :
    MemoryInv (s.startEncode c clear) := by
  have hbyte := Memory.write_wf _ _ (BitVec.ofNat 8 c.toNat) h (byteAddr_lt s.eng.outAddr 0)
  cases clear with
  | false => exact hbyte
  | true => exact Memory.zero_wf _ s.eng.stateAddr.toNat Config.stateMinSize hbyte

theorem runDecode_keeps_memoryInv {s t : State} {args : Option Cause} (h : MemoryInv s)
    (hrun : runDecode s args = .next t) : MemoryInv t := by
  obtain ⟨c, -, he⟩ | ⟨-, -, he⟩ | ⟨r, -, -, he⟩ := runDecode_cases s args <;> rw [he] at hrun <;> cases hrun
  · exact h
  · exact h

theorem runEncode_keeps_memoryInv {s t : State} (h : MemoryInv s) (hrun : runEncode s = .next t) : MemoryInv t := by
  obtain ⟨c, -, he⟩ | ⟨-, -, he⟩ | ⟨-, -, -, he⟩ | ⟨c, -, -, -, -, he⟩ | ⟨r, -, he⟩ := runEncode_cases s <;>
    rw [he] at hrun <;> cases hrun
  · exact h
  · exact h
  · exact h
  · exact memoryInv_startEncode c true h

theorem runEncodeDelta_keeps_memoryInv {s t : State} (h : MemoryInv s) (hrun : runEncodeDelta s = .next t) :
    MemoryInv t := by
  obtain ⟨c, -, he⟩ | ⟨-, -, he⟩ | ⟨c, -, -, -, he⟩ | ⟨-, -, -, -, he⟩ | ⟨c, -, -, -, -, -, he⟩ | ⟨r, -, he⟩ :=
    runEncodeDelta_cases s <;> rw [he] at hrun <;> cases hrun
  · exact h
  · exact h
  · exact h
  · exact h
  · exact memoryInv_startEncode c false h

theorem runUpdate_keeps_memoryInv {s t : State} (h : MemoryInv s) (hrun : runUpdate s = .next t) : MemoryInv t := by
  obtain ⟨c, -, he⟩ | ⟨-, -, he⟩ | ⟨r, -, he⟩ := runUpdate_cases s <;> rw [he] at hrun <;> cases hrun
  · exact h
  · exact Memory.zero_wf _ _ _ h

/-- A delta command that is present runs, one that is absent fails at once (30_encoding.md R91). -/
theorem memoryInv_of_delta {p : Bool} {r : Result} {s t : State} (h : MemoryInv s)
    (hcmd : (if p then r else .next (runIllegal s)) = .next t) (hr : r = .next t → MemoryInv t) : MemoryInv t := by
  cases p with
  | true => exact hr hcmd
  | false => cases hcmd; exact h

/-- An accepted command keeps the form: it fails before it has written a byte, or its start writes it. -/
theorem exec_decodeCmd_keeps_memoryInv {s t : State} (w : Reg) (h : MemoryInv s)
    (hexec : exec (decodeCmd w) s = .next t) : MemoryInv t := by
  have hacc : ∀ op, MemoryInv (s.accept op) := fun _ => h
  unfold decodeCmd at hexec
  dsimp only at hexec
  split_ifs at hexec
  · exact runEncode_keeps_memoryInv (hacc _) hexec
  · exact runDecode_keeps_memoryInv (hacc _) hexec
  · exact memoryInv_of_delta (hacc _) hexec (runUpdate_keeps_memoryInv (hacc _))
  · exact memoryInv_of_delta (hacc _) hexec (runEncodeDelta_keeps_memoryInv (hacc _))
  · exact memoryInv_of_delta (hacc _) hexec (runDecode_keeps_memoryInv (hacc _))
  · cases hexec; exact h
  · cases hexec; exact h
  · cases hexec; exact h

/-! ## Host events -/

theorem memoryInv_hardReset {s : State} (h : MemoryInv s) : MemoryInv s.hardReset := by
  unfold State.hardReset MemoryInv
  dsimp only
  split_ifs
  · exact Memory.havoc_wf _ _ _ _ (Memory.havoc_wf _ _ _ _ h)
  · exact Memory.havoc_wf _ _ _ _ h
  · exact Memory.havoc_wf _ _ _ _ h
  · exact h

theorem hostMemRead_mem (s : State) (a : Addr) : (s.hostMemRead a).mem = s.mem := by
  unfold State.hostMemRead
  split <;> rfl

theorem landHost_keeps_memoryInv (act : HostAct) {s t : State} (h : MemoryInv s) (hland : landHost act s = .next t) :
    MemoryInv t := by
  cases act with
  | regWrite a w v =>
    obtain ⟨-, he⟩ | ⟨-, he⟩ | ⟨off, -, -, he⟩ | ⟨-, -, he⟩ | ⟨-, -, he⟩ := landRegWrite_cases s a w v <;>
      rw [landHost, he] at hland
    · cases hland; exact h
    · cases hland
    · cases hland; exact h
    · cases hland; exact h
    · exact exec_decodeCmd_keeps_memoryInv v h hland
  | regRead a w =>
    obtain ⟨-, he⟩ | ⟨-, he⟩ | ⟨off, -, he⟩ := landRegRead_cases s a w <;> rw [landHost, he] at hland <;> cases hland
    · exact h
    · exact h
  | memWrite a v =>
    rw [landHost, hostMemWrite] at hland
    split at hland <;> cases hland
    exact Memory.write_wf _ _ _ h a.isLt
  | memRead a =>
    cases hland
    rw [MemoryInv, hostMemRead_mem]
    exact h
  | reset => cases hland; exact memoryInv_hardReset h

/-- Settles O51: an engine step edits memory by writes, zero fills and openings alone (`engineStep_edited`), and so does
a landing event; each keeps the canonical form. -/
theorem stepKeepsMemoryCanonical : Obligations.StepKeepsMemoryCanonical := by
  intro s t hs h
  exact step_keeps (P := MemoryInv) (fun _ _ hs => hs) (fun _ _ => engineStep_keeps_memoryInv)
    (fun act _ _ => landHost_keeps_memoryInv act) hs h

end Sys2Proof.Machine
end

section
/-! Launch premises: a command that passed its own checks is refused where one is broken (20_memory.md R65, R67;
70_reset_and_hazards.md R330, R331). -/

namespace Sys2Proof.Machine

/-- A launch is refused exactly where a premise of R65, R67 or R330 is broken. -/
theorem launchRefusal_eq_none_iff (s : State) : launchRefusal s = none ↔ LaunchOk s.params s.eng := by
  have hnames : LaunchOk s.params s.eng ↔ ¬anyMeet s.eng.regions = true ∧
      ¬(usesState s.eng.op = true ∧ s.params.stateBufLen < Config.stateMinSize) ∧
      ¬s.eng.regions.any (fun r => s.params.notMemory.any (spanMeets r)) = true := by
    simp [LaunchOk]
  rw [hnames, launchRefusal]
  split_ifs <;> simp_all

theorem launch_refused {s : State} (hbroken : ¬LaunchOk s.params s.eng) (go : State) :
    ∃ r, launch s go = .refused r := by
  obtain ⟨hnone, -⟩ | ⟨r, -, h⟩ := launch_cases s go
  · exact absurd ((launchRefusal_eq_none_iff s).mp hnone) hbroken
  · exact ⟨r, h⟩

/-- An input longer than 64 bytes is longer than its gain threshold (41_encoder.md R173). -/
theorem gainThreshold_lt {len : Nat} (h : 64 < len) : gainThreshold len < len := by
  rw [gainThreshold, Nat.shiftRight_eq_div_pow]
  simp only [Config.gainMin, Config.gainShift]
  omega

/-- A length of 1 to 65536 has a class (40_primitives.md R132). -/
theorem exists_classOf {len : Nat} (hpos : 1 ≤ len) (hmax : len ≤ 65536) : ∃ c, classOf len = some c := by
  have hlog : ceilLog2 len ≤ 16 := by
    have hpow : 2 ^ msb len ≤ len := Nat.log2_self_le (Nat.ne_of_gt hpos)
    have hmsb : msb len ≤ 16 := (Nat.pow_le_pow_iff_right (by decide)).mp (hpow.trans hmax)
    unfold ceilLog2
    split_ifs with hexact
    · exact hmsb
    · have : msb len ≠ 16 := by
        intro h16
        rw [h16] at hpow hexact
        exact hexact (Nat.le_antisymm hpow hmax)
      omega
  have hclass : ∀ k, k ≤ 4 → ∃ c, classOfNat k = some c := by
    intro k hk
    interval_cases k <;> exact ⟨_, rfl⟩
  rw [classOf, if_pos ⟨hpos, hmax⟩]
  exact hclass _ (by omega)

theorem encodeDeltaRange_none {e : Engine} (h : encodeDeltaRange e = none) :
    e.dictLen.toNat + e.inLen.toNat ≤ 65536 := by
  unfold encodeDeltaRange at h
  split_ifs at h with hlen
  exact Nat.le_of_not_lt hlen

/-! Each command that passed its own checks comes to its launch (R171 to R174, R201, R205, R206, R231). -/

theorem runDecode_refused {s : State} (hbroken : ¬LaunchOk s.params s.eng) : ∃ r, runDecode s none = .refused r :=
  launch_refused hbroken _

theorem runUpdate_refused {s : State} (hargs : updateArgs s.eng = none) (hbroken : ¬LaunchOk s.params s.eng) :
    ∃ r, runUpdate s = .refused r := by
  simp only [runUpdate, hargs]
  exact launch_refused hbroken _

theorem runEncode_refused {s : State} (hargs : encodeArgs s.eng = none) (hfloor : 64 < s.eng.inLen.toNat)
    (hmax : s.eng.inLen.toNat ≤ 65536) (hbroken : ¬LaunchOk s.params s.eng) : ∃ r, runEncode s = .refused r := by
  obtain ⟨c, hcls⟩ := exists_classOf (Nat.one_le_of_lt hfloor) hmax
  simp only [runEncode, hargs, if_neg (Nat.not_le_of_lt (gainThreshold_lt hfloor)), hcls]
  exact launch_refused hbroken _

theorem runEncodeDelta_refused {s : State} (hargs : encodeDeltaArgs s.eng = none) (hfloor : 64 < s.eng.inLen.toNat)
    (hrange : encodeDeltaRange s.eng = none) (hbroken : ¬LaunchOk s.params s.eng) :
    ∃ r, runEncodeDelta s = .refused r := by
  obtain ⟨c, hcls⟩ := exists_classOf (Nat.le_add_left_of_le (Nat.one_le_of_lt hfloor)) (encodeDeltaRange_none hrange)
  simp only [runEncodeDelta, hargs, if_neg (Nat.not_le_of_lt (gainThreshold_lt hfloor)), hrange, hcls]
  exact launch_refused hbroken _

/-- Settles O22: a command that passed its own checks comes to its launch, which a broken premise refuses. -/
theorem brokenLaunchIsRefused : Obligations.BrokenLaunchIsRefused := by
  intro s e
  refine ⟨?decode, ?decodeDelta, ?update, ?encode, ?encodeDelta⟩
  case decode =>
    rintro rfl hargs hbroken
    change ∃ r, runDecode (s.accept opDecode) (decodeArgs (s.latched 2)) = .refused r
    rw [hargs]
    exact runDecode_refused (s := s.accept opDecode) hbroken
  case decodeDelta =>
    rintro rfl hpresent hargs hbroken
    have hrun : exec .decodeDelta s = runDecode (s.accept opDecodeDelta) (decodeDeltaArgs (s.latched 5)) :=
      if_pos hpresent
    rw [hrun, hargs]
    exact runDecode_refused (s := s.accept opDecodeDelta) hbroken
  case update =>
    rintro rfl hpresent hargs hbroken
    have hrun : exec .updateDeltaState s = runUpdate (s.accept opUpdate) := if_pos hpresent
    rw [hrun]
    exact runUpdate_refused (s := s.accept opUpdate) hargs hbroken
  case encode =>
    rintro rfl hargs hfloor hmax hbroken
    exact runEncode_refused (s := s.accept opEncode) hargs hfloor hmax hbroken
  case encodeDelta =>
    rintro rfl hpresent hargs hfloor hrange hbroken
    have hrun : exec .encodeDelta s = runEncodeDelta (s.accept opEncodeDelta) := if_pos hpresent
    rw [hrun]
    exact runEncodeDelta_refused (s := s.accept opEncodeDelta) hargs hfloor hrange hbroken

end Sys2Proof.Machine
end

section
/-! The host's accesses to memory during a command (20_memory.md R67, 70_reset_and_hazards.md R331). -/

namespace Sys2Proof.Machine

/-- A block that is idle, or an address outside the spans, passes the host port's check of an access (R67). -/
theorem not_busy_and_held {s : State} {spans : List Span} {a : Nat}
    (h : s.busy = false ∨ ∀ r ∈ spans, spanHolds r a = false) :
    ¬(s.busy = true ∧ spans.any (fun r => spanHolds r a) = true) := by
  rintro ⟨hbusy, hheld⟩
  obtain ⟨r, hr, hin⟩ := List.any_eq_true.mp hheld
  obtain hidle | hout := h
  · simp [hidle] at hbusy
  · simp [hout r hr] at hin

/-- Settles O48: a write that lands meets the one check of `hostMemWrite`, a read that of `hostMemRead`. -/
theorem hostMemoryAccess : Obligations.HostMemoryAccess := by
  intro s a v rest
  constructor <;> intro h <;> rw [step_of_due h]
  · constructor
    · intro hbusy hin
      exact if_pos ⟨hbusy, List.any_eq_true.mpr hin⟩
    · intro hfree
      exact ⟨_, if_neg (not_busy_and_held hfree), rfl, rfl, fun b => Memory.read_write _ _ _ _⟩
  · refine ⟨_, rfl, ?_⟩
    unfold State.hostMemRead
    split
    next hopen => exact ⟨rfl, rfl, fun _ => rfl, fun hfree => absurd hopen (not_busy_and_held hfree)⟩
    next => exact ⟨rfl, rfl, fun _ => rfl, fun _ => rfl⟩

end Sys2Proof.Machine
end

section
/-! The regions an engine step writes: those of its command (20_memory.md R61, R62). -/

namespace Sys2Proof.Machine

/-- The command may write the byte at the address (R61). -/
def Engine.MayWrite (e : Engine) (a : Nat) : Prop := ∃ r ∈ e.written, spanHolds r a = true

theorem Edited.sameOutside {s t : State} {e : Engine} (h : Edited e.MayWrite s.mem t.mem) :
    SameOutside e.written s t := by
  intro a ha
  refine h.read_eq ?_
  rintro ⟨r, hr, hin⟩
  exact absurd ((ha r hr).symm.trans hin) (by decide)

/-- In a region that does not wrap, byte `k` is at the place `k` behind its base (R66). -/
theorem covers_of_no_wrap {P : Nat → Prop} {base : Addr} {len : Nat} (htop : base.toNat + len ≤ 2 ^ 64)
    (hplace : ∀ a, base.toNat ≤ a → a < base.toNat + len → P a) : Covers P base len := by
  refine ⟨hplace, fun k hk => ?_⟩
  have haddr : byteAddr base k = base.toNat + k := by
    rw [byteAddr, BitVec.toNat_add, BitVec.toNat_ofNat, Nat.add_mod_mod, Nat.mod_eq_of_lt (by omega)]
  rw [haddr]
  exact hplace _ (by omega) (by omega)

theorem covers_out {e : Engine} (huse : usesOut e.op = true) (htop : e.outAddr.toNat + e.outCap.toNat ≤ 2 ^ 64) :
    Covers e.MayWrite e.outAddr e.outCap.toNat :=
  covers_of_no_wrap htop fun a hlo hhi => ⟨_, outSpan_mem_written huse, (spanHolds_iff _ a).mpr ⟨hlo, hhi⟩⟩

theorem covers_table {e : Engine} (huse : usesState e.op = true)
    (htop : e.stateAddr.toNat + Config.stateMinSize ≤ 2 ^ 64) : Covers e.MayWrite e.stateAddr Config.stateMinSize :=
  covers_of_no_wrap htop fun a hlo hhi => ⟨_, stateSpan_mem_written huse, (spanHolds_iff _ a).mpr ⟨hlo, hhi⟩⟩

theorem covers_out_of_decoding {e : Engine} (h : e.decoding) : Covers e.MayWrite e.outAddr e.outCap.toNat := by
  obtain ⟨hop, -, -, -, -, htop, -⟩ := h
  exact covers_out (by obtain h | h := hop <;> rw [h] <;> decide) htop

theorem covers_table_of_encoding {e : Engine} (h : e.encoding) :
    Covers e.MayWrite e.stateAddr Config.stateMinSize := by
  obtain ⟨hop, htop, -⟩ := h
  exact covers_table (by obtain h | h | h := hop <;> rw [h] <;> decide) htop

/-- An encode that emits writes OUT, and its soft limit is within the capacity (41_encoder.md R175). -/
theorem covers_out_of_encoding {e : Engine} (h : e.encoding) (hne : e.op ≠ opUpdate) :
    Covers e.MayWrite e.outAddr e.outCap.toNat ∧ e.softEff ≤ e.outCap.toNat := by
  obtain ⟨hop, -, -, -, henc, -⟩ := h
  obtain ⟨-, -, hsoft, -, -, htop⟩ := henc hne
  refine ⟨covers_out ?_ htop, hsoft⟩
  obtain h | h | h := hop
  · rw [h]; decide
  · exact absurd h hne
  · rw [h]; decide

/-- A decoder that is not at a literal edits OUT alone. -/
theorem editsIn_of_decoding {e : Engine} (hdec : e.decoding) (hscan : e.stage ≠ .scan) (hemit : e.stage ≠ .emit)
    (hlit : e.stage = .literal → e.outPos < e.outCap.toNat) : e.EditsIn e.MayWrite where
  out _ := covers_out_of_decoding hdec
  table h := absurd h hscan
  literal h := (covers_out_of_decoding hdec).byte _ (hlit h)
  block h := absurd h hemit

/-- A sound engine edits the regions its command may write (R61). -/
theorem editsIn_of_sound {e : Engine} (h : e.sound) : e.EditsIn e.MayWrite := by
  unfold Engine.sound at h
  cases hstage : e.stage <;> simp only [hstage] at h
  case classByte | tag | nrChain | rChain =>
    exact editsIn_of_decoding h.1 (by simp [hstage]) (by simp [hstage]) (by simp [hstage])
  case literal =>
    obtain ⟨hdec, -, hpos, -, hroom⟩ := h
    have hcap : e.capEff ≤ e.outCap.toNat := Nat.min_le_left _ _
    exact editsIn_of_decoding hdec (by simp [hstage]) (by simp [hstage]) fun _ => by omega
  case scan =>
    exact ⟨fun hne => absurd hstage hne, fun _ => covers_table_of_encoding h.1, by simp [hstage], by simp [hstage]⟩
  case emit =>
    obtain ⟨hout, hsoft⟩ := covers_out_of_encoding h.1 h.2
    exact ⟨fun _ => hout, by simp [hstage], by simp [hstage], fun _ k hk => hout.byte k (by omega)⟩

/-- Settles O57: an engine step edits memory at the addresses of its stage (`engineStep_edited`), which in a sound
engine lie in OUT or STATE. -/
theorem engineWritesOnlyItsRegions : Obligations.EngineWritesOnlyItsRegions := by
  intro s t hs hhost h
  rw [step_of_no_host hhost] at h
  exact (engineStep_edited (fun hrun => editsIn_of_sound (hs hrun)) h).sameOutside

end Sys2Proof.Machine
end

section
/-! Words of the spec's encodings, decoded (20_memory.md R63; 30_encoding.md R90 to R97). -/

namespace Sys2Proof.Machine

/-- Settles O4: each word is decoded by its format's table; a tag's three bytes are little-endian (R63). -/
theorem sampleWordsDecode : Obligations.SampleWordsDecode := by
  exact ⟨rfl, rfl, rfl, rfl, rfl, rfl, rfl, rfl⟩

end Sys2Proof.Machine
end

section
/-! The fields of a tag (30_encoding.md R94, R95): the three rows of a class as one function of the fields. -/

namespace Sys2Proof

/-! ## Three adjacent fields of a word -/

/-- A word is its three adjacent fields. -/
theorem append_three_fields {a b c w : Nat} (h : a + b + c = w) (x : BitVec w) :
    (x.extractLsb' (c + b) a ++ x.extractLsb' c b ++ x.extractLsb' 0 c).cast h = x := by
  subst h
  rw [BitVec.extractLsb'_append_extractLsb'_eq_extractLsb' rfl, BitVec.extractLsb'_append_extractLsb', BitVec.cast_eq]

section
variable {a b c w : Nat} (h : a + b + c = w) (x : BitVec a) (y : BitVec b) (z : BitVec c)

theorem low_field_of_append : ((x ++ y ++ z).cast h).extractLsb' 0 c = z := by
  rw [BitVec.extractLsb'_cast, BitVec.extractLsb'_append_eq_right]

theorem middle_field_of_append : ((x ++ y ++ z).cast h).extractLsb' c b = y := by
  rw [BitVec.extractLsb'_cast, BitVec.extractLsb'_append_eq_of_le (Nat.le_refl c), Nat.sub_self,
    BitVec.extractLsb'_append_eq_right]

theorem high_field_of_append : ((x ++ y ++ z).cast h).extractLsb' (c + b) a = x := by
  rw [BitVec.extractLsb'_cast, BitVec.extractLsb'_append_eq_of_le (Nat.le_add_right c b), Nat.add_sub_cancel_left,
    BitVec.extractLsb'_append_eq_left]

end

/-! ## The rows of a class -/

/-- The three tag rows of a class, as functions of the fields they carry. -/
structure TagRows (nrLog2 rLog2 offLog2 : Nat) where
  fin : BitVec nrLog2 → Instr
  badEnd : BitVec nrLog2 → BitVec rLog2 → Instr
  rep : BitVec nrLog2 → BitVec rLog2 → BitVec offLog2 → Instr

/-- The row of the three fields: REP for a non-zero offset, else BAD_END for a non-zero r_field, else END (R95). -/
def TagRows.ofFields {n r o : Nat} (rows : TagRows n r o) (nf : BitVec n) (rf : BitVec r) (off : BitVec o) : Instr :=
  if off ≠ 0 then rows.rep nf rf off else if rf ≠ 0 then rows.badEnd nf rf else rows.fin nf

/-- The rows END, BAD_END and REP of each class, with the widths of the class (R94, 40_primitives.md R133). -/
def tagRows : (c : BlockClass) → TagRows (classParams c).nrLog2 (classParams c).rLog2 (classParams c).offLog2
  | .c0 => ⟨.endC0, .badEndC0, .repC0⟩
  | .c1 => ⟨.endC1, .badEndC1, .repC1⟩
  | .c2 => ⟨.endC2, .badEndC2, .repC2⟩
  | .c3 => ⟨.endC3, .badEndC3, .repC3⟩
  | .c4 => ⟨.endC4, .badEndC4, .repC4⟩

/-- The three fields fill the 24 bits of a tag (R94). -/
theorem tag_widths (c : BlockClass) :
    (classParams c).nrLog2 + (classParams c).rLog2 + (classParams c).offLog2 = 24 := by
  cases c <;> rfl

/-- A decoded tag is the row of its three fields. -/
theorem decodeTag_eq_ofFields (c : BlockClass) (t : BitVec 24) :
    decodeTag c t = (tagRows c).ofFields
      (t.extractLsb' ((classParams c).offLog2 + (classParams c).rLog2) (classParams c).nrLog2)
      (t.extractLsb' (classParams c).offLog2 (classParams c).rLog2) (t.extractLsb' 0 (classParams c).offLog2) := by
  cases c <;> rfl

/-- A well-formed tag row is the row of three fields: those it carries, and 0 for the others. -/
theorem exists_ofFields {i : Instr} {c : BlockClass} (hwf : i.wf = true) (hfmt : i.format = .tag c) :
    ∃ nf rf off, i = (tagRows c).ofFields nf rf off := by
  cases i <;> cases hfmt
  case endC0 nr | endC1 nr | endC2 nr | endC3 nr | endC4 nr => exact ⟨nr, 0, 0, rfl⟩
  case badEndC0 nr r | badEndC1 nr r | badEndC2 nr r | badEndC3 nr r | badEndC4 nr r =>
    exact ⟨nr, r, 0, (if_pos (bne_iff_ne.mp hwf)).symm⟩
  case repC0 nr r off | repC1 nr r off | repC2 nr r off | repC3 nr r off | repC4 nr r off =>
    exact ⟨nr, r, off, (if_pos (bne_iff_ne.mp hwf)).symm⟩

section
variable (c : BlockClass) (nf : BitVec (classParams c).nrLog2) (rf : BitVec (classParams c).rLog2)
  (off : BitVec (classParams c).offLog2)

/-- The row of the fields is of one of the three kinds, under its condition (R95). -/
theorem ofFields_cases :
    (off ≠ 0 ∧ (tagRows c).ofFields nf rf off = (tagRows c).rep nf rf off) ∨
    (off = 0 ∧ rf ≠ 0 ∧ (tagRows c).ofFields nf rf off = (tagRows c).badEnd nf rf) ∨
    (off = 0 ∧ rf = 0 ∧ (tagRows c).ofFields nf rf off = (tagRows c).fin nf) := by
  unfold TagRows.ofFields
  split
  next hoff => exact .inl ⟨hoff, rfl⟩
  next hoff =>
    split
    next hrf => exact .inr (.inl ⟨not_not.mp hoff, hrf, rfl⟩)
    next hrf => exact .inr (.inr ⟨not_not.mp hoff, not_not.mp hrf, rfl⟩)

theorem ofFields_wf : ((tagRows c).ofFields nf rf off).wf = true := by
  obtain ⟨hoff, h⟩ | ⟨-, hrf, h⟩ | ⟨-, -, h⟩ := ofFields_cases c nf rf off <;> rw [h]
  · cases c <;> exact bne_iff_ne.mpr hoff
  · cases c <;> exact bne_iff_ne.mpr hrf
  · cases c <;> rfl

/-- The row's tag is its three fields, nr_field on top (R94). -/
theorem encode_ofFields :
    encode ((tagRows c).ofFields nf rf off) = tagBytes ((nf ++ rf ++ off).cast (tag_widths c)) := by
  obtain ⟨-, h⟩ | ⟨rfl, -, h⟩ | ⟨rfl, rfl, h⟩ := ofFields_cases c nf rf off <;> rw [h] <;> cases c <;> rfl

/-- Three fields put together decode to their row. -/
theorem decodeTag_append : decodeTag c ((nf ++ rf ++ off).cast (tag_widths c)) = (tagRows c).ofFields nf rf off := by
  rw [decodeTag_eq_ofFields, low_field_of_append, middle_field_of_append, high_field_of_append]

open Machine in
theorem tagFields_ofFields :
    tagFields ((tagRows c).ofFields nf rf off) = some (c, nf.toNat, rf.toNat, off.toNat) := by
  obtain ⟨-, h⟩ | ⟨rfl, -, h⟩ | ⟨rfl, rfl, h⟩ := ofFields_cases c nf rf off <;> rw [h] <;> cases c <;> rfl

open Machine in
theorem isRep_rows : isRep ((tagRows c).rep nf rf off) = true ∧ isRep ((tagRows c).badEnd nf rf) = false ∧
    isRep ((tagRows c).fin nf) = false := by
  cases c <;> exact ⟨rfl, rfl, rfl⟩

open Machine in
theorem isEnd_rows : isEnd ((tagRows c).rep nf rf off) = false ∧ isEnd ((tagRows c).badEnd nf rf) = false ∧
    isEnd ((tagRows c).fin nf) = true := by
  cases c <;> exact ⟨rfl, rfl, rfl⟩

open Machine in
theorem isRep_ofFields : isRep ((tagRows c).ofFields nf rf off) = true ↔ off ≠ 0 := by
  obtain ⟨hrep, hbad, hend⟩ := isRep_rows c nf rf off
  obtain ⟨hoff, h⟩ | ⟨hoff, -, h⟩ | ⟨hoff, -, h⟩ := ofFields_cases c nf rf off <;> rw [h]
  · exact iff_of_true hrep hoff
  · exact iff_of_false (ne_true_of_eq_false hbad) (not_not.mpr hoff)
  · exact iff_of_false (ne_true_of_eq_false hend) (not_not.mpr hoff)

open Machine in
theorem isEnd_ofFields : isEnd ((tagRows c).ofFields nf rf off) = true ↔ off = 0 ∧ rf = 0 := by
  obtain ⟨hrep, hbad, hend⟩ := isEnd_rows c nf rf off
  obtain ⟨hoff, h⟩ | ⟨-, hrf, h⟩ | ⟨hoff, hrf, h⟩ := ofFields_cases c nf rf off <;> rw [h]
  · exact iff_of_false (ne_true_of_eq_false hrep) fun hzero => hoff hzero.1
  · exact iff_of_false (ne_true_of_eq_false hbad) fun hzero => hrf hzero.2
  · exact iff_of_true hend ⟨hoff, hrf⟩

end

/-! ## Fields as numbers -/

/-- A field as a number: the bits above it dropped, those below it shifted out. -/
theorem toNat_field {w : Nat} (x : BitVec w) (k n : Nat) : (x.extractLsb' k n).toNat = x.toNat / 2 ^ k % 2 ^ n := by
  rw [BitVec.extractLsb'_toNat, Nat.shiftRight_eq_div_pow]

/-- The low field is the word modulo its range. -/
theorem toNat_low_field {w : Nat} (x : BitVec w) (n : Nat) : (x.extractLsb' 0 n).toNat = x.toNat % 2 ^ n := by
  rw [toNat_field, pow_zero, Nat.div_one]

/-- A field that reaches the top of the word has no bits above it. -/
theorem toNat_high_field {w : Nat} (x : BitVec w) {k n : Nat} (h : n + k = w) :
    (x.extractLsb' k n).toNat = x.toNat / 2 ^ k := by
  rw [toNat_field, Nat.mod_eq_of_lt]
  exact Nat.div_lt_of_lt_mul (by rw [← Nat.pow_add, Nat.add_comm k, h]; exact x.isLt)

theorem high_field_eq_iff {w : Nat} (x : BitVec w) {k n : Nat} (h : n + k = w) (hi : BitVec n) :
    x.extractLsb' k n = hi ↔ x.toNat / 2 ^ k = hi.toNat := by
  rw [← BitVec.toNat_inj, toNat_high_field x h]

theorem toNat_eq_zero_iff {w : Nat} (x : BitVec w) : x.toNat = 0 ↔ x = 0 := BitVec.toNat_inj (y := 0)

/-- Settles O5: a decoded tag is the row of its three fields, and each field is its bits of the word. -/
theorem decodedTagHasItsFields : Obligations.DecodedTagHasItsFields := by
  intro c t
  have hw := tag_widths c
  have htop : (classParams c).nrLog2 + ((classParams c).offLog2 + (classParams c).rLog2) = 24 := by omega
  refine ⟨by omega, _, _, _, by rw [decodeTag_eq_ofFields, tagFields_ofFields], ?_, ?_, ?_, ?_, ?_, ?_⟩
  · exact toNat_low_field t _
  · exact toNat_field ..
  · exact toNat_high_field t htop
  · exact BitVec.isLt _
  · rw [decodeTag_eq_ofFields, isRep_ofFields, ne_eq, ne_eq, toNat_eq_zero_iff]
  · rw [decodeTag_eq_ofFields, isEnd_ofFields, toNat_eq_zero_iff, toNat_eq_zero_iff]

end Sys2Proof
end

section
/-! Encoding and decoding undo each other (30_encoding.md R90 to R97): first of a row, then of the bytes of a stream. -/

namespace Sys2Proof

/-! ## Bytes of a word -/

/-- The three bytes of a tag make the tag (20_memory.md R63). -/
theorem tagOfBytes_tagBytes (t : BitVec 24) :
    tagOfBytes (t.extractLsb' 0 8) (t.extractLsb' 8 8) (t.extractLsb' 16 8) = t :=
  append_three_fields (a := 8) (b := 8) (c := 8) rfl t

/-- The tag of three bytes has those bytes. -/
theorem tagBytes_tagOfBytes (b0 b1 b2 : Byte) : tagBytes (tagOfBytes b0 b1 b2) = [b0, b1, b2] := by
  have h0 : (tagOfBytes b0 b1 b2).extractLsb' 0 8 = b0 := low_field_of_append rfl b2 b1 b0
  have h1 : (tagOfBytes b0 b1 b2).extractLsb' 8 8 = b1 := middle_field_of_append rfl b2 b1 b0
  have h2 : (tagOfBytes b0 b1 b2).extractLsb' 16 8 = b2 := high_field_of_append rfl b2 b1 b0
  rw [tagBytes, h0, h1, h2]

/-- The four bytes of a command word make the word. -/
theorem wordOfBytes_wordBytes (w : Reg) :
    wordOfBytes (w.extractLsb' 0 8) (w.extractLsb' 8 8) (w.extractLsb' 16 8) (w.extractLsb' 24 8) = w := by
  have htop : w.extractLsb' 24 8 ++ w.extractLsb' 16 8 = w.extractLsb' 16 16 :=
    BitVec.extractLsb'_append_extractLsb'_eq_extractLsb' rfl
  rw [wordOfBytes, htop]
  exact append_three_fields (a := 16) (b := 8) (c := 8) rfl w

theorem decode_tagBytes (c : BlockClass) (t : BitVec 24) (rest : List Byte) :
    decode (.tag c) (tagBytes t ++ rest) = .ok (decodeTag c t, rest) := by
  change Except.ok (decodeTag c (tagOfBytes _ _ _), rest) = _
  rw [tagOfBytes_tagBytes]

theorem decode_wordBytes (w : Reg) (rest : List Byte) :
    decode .cmd (wordBytes w ++ rest) = .ok (decodeCmd w, rest) := by
  change Except.ok (decodeCmd (wordOfBytes _ _ _ _), rest) = _
  rw [wordOfBytes_wordBytes]

/-! ## A row's word decodes to the row -/

/-- A command row's word (30_encoding.md R90, R91). -/
theorem decodeCmd_encode {i : Instr} (hfmt : i.format = .cmd) : ∃ w, encode i = wordBytes w ∧ decodeCmd w = i := by
  cases i <;> cases hfmt
  case illegalOp67 lo => exact ⟨_, rfl, by revert lo; decide⟩
  case illegalOp8F lo => exact ⟨_, rfl, by revert lo; decide⟩
  all_goals exact ⟨_, rfl, rfl⟩

/-- A class row's byte (R93). -/
theorem decodeClass_encode {i : Instr} (hfmt : i.format = .classByte) :
    ∃ b, encode i = [b] ∧ decodeClass b = i := by
  cases i <;> cases hfmt
  case badHdr0607 lo | badHdr080F lo | badHdr101F lo | badHdr203F lo | badHdr407F lo | badHdr80FF lo =>
    exact ⟨_, rfl, by revert lo; decide⟩
  all_goals exact ⟨_, rfl, rfl⟩

/-- A tag row's word (R94, R95). -/
theorem decodeTag_encode {i : Instr} {c : BlockClass} (hwf : i.wf = true) (hfmt : i.format = .tag c) :
    ∃ t, encode i = tagBytes t ∧ decodeTag c t = i := by
  obtain ⟨nf, rf, off, rfl⟩ := exists_ofFields hwf hfmt
  exact ⟨_, encode_ofFields c nf rf off, decodeTag_append c nf rf off⟩

/-- An escape row's byte (R97). -/
theorem decodeEsc_encode {i : Instr} (hwf : i.wf = true) (hfmt : i.format = .esc) :
    ∃ b, encode i = [b] ∧ decodeEsc b = i := by
  cases i <;> cases hfmt
  case escCont => exact ⟨_, rfl, rfl⟩
  case escEnd v => exact ⟨_, rfl, if_neg (bne_iff_ne.mp hwf)⟩

/-- Settles O1: by format, the bytes of the row make its word, and the word decodes to the row. -/
theorem decodeOfEncodeIsIdentity : Obligations.DecodeOfEncodeIsIdentity := by
  intro i rest hwf
  cases hfmt : i.format with
  | cmd =>
    obtain ⟨w, henc, hdec⟩ := decodeCmd_encode hfmt
    rw [henc, ← hdec, decode_wordBytes]
  | classByte =>
    obtain ⟨b, henc, hdec⟩ := decodeClass_encode hfmt
    rw [henc, ← hdec]; rfl
  | tag c =>
    obtain ⟨t, henc, hdec⟩ := decodeTag_encode hwf hfmt
    rw [henc, ← hdec, decode_tagBytes]
  | esc =>
    obtain ⟨b, henc, hdec⟩ := decodeEsc_encode hwf hfmt
    rw [henc, ← hdec]; rfl
  | lit =>
    cases i <;> cases hfmt
    rfl

/-! ## What is decoded encodes back -/

/-- The row is well formed and encodes to the bytes. -/
structure ReadsBack (i : Instr) (bs : List Byte) : Prop where
  wf : i.wf = true
  enc : encode i = bs

theorem ReadsBack.ite {p : Prop} [Decidable p] {i j : Instr} {bs : List Byte} (hi : p → ReadsBack i bs)
    (hj : ¬p → ReadsBack j bs) : ReadsBack (if p then i else j) bs := by
  split
  next h => exact hi h
  next h => exact hj h

/-- A word whose high field is `hi` is `hi` above its low field. -/
theorem append_low_of_high_eq {n k w : Nat} (hw : n + k = w) {x : BitVec w} {hi : BitVec n}
    (h : x.extractLsb' k n = hi) : (hi ++ x.extractLsb' 0 k).cast hw = x := by
  subst hw
  rw [← h, BitVec.extractLsb'_append_extractLsb', BitVec.cast_eq]

/-- The bytes that no row before BAD_HDR_80_FF takes are 128 to 255 (R93). -/
theorem class_byte_high_bit {b : Byte} (h0 : b ≠ 0#8) (h1 : b ≠ 1#8) (h2 : b ≠ 2#8) (h3 : b ≠ 3#8) (h4 : b ≠ 4#8)
    (h5 : b ≠ 5#8) (h6 : b.extractLsb' 1 7 ≠ 3#7) (h8 : b.extractLsb' 3 5 ≠ 1#5) (h16 : b.extractLsb' 4 4 ≠ 1#4)
    (h32 : b.extractLsb' 5 3 ≠ 1#3) (h64 : b.extractLsb' 6 2 ≠ 1#2) : b.extractLsb' 7 1 = 1#1 := by
  rw [ne_eq, high_field_eq_iff b rfl] at h6 h8 h16 h32 h64
  rw [high_field_eq_iff b rfl]
  simp only [ne_eq, BitVec.toNat_eq, BitVec.toNat_ofNat] at *
  omega

/-- The row of a class byte fixes the byte's high bits and carries the others (R93). -/
theorem decodeClass_readsBack (b : Byte) : ReadsBack (decodeClass b) [b] := by
  have hlegal {v : Byte} {i : Instr} (hi : ReadsBack i [v]) (h : b = v) : ReadsBack i [b] := h ▸ hi
  have hbad {n k : Nat} (hw : n + k = 8) {hi : BitVec n} (h : b.extractLsb' k n = hi) :
      [(hi ++ b.extractLsb' 0 k).cast hw] = [b] := congrArg ([·]) (append_low_of_high_eq hw h)
  refine .ite (hlegal ⟨rfl, rfl⟩) fun h0 => ?_
  refine .ite (hlegal ⟨rfl, rfl⟩) fun h1 => ?_
  refine .ite (hlegal ⟨rfl, rfl⟩) fun h2 => ?_
  refine .ite (hlegal ⟨rfl, rfl⟩) fun h3 => ?_
  refine .ite (hlegal ⟨rfl, rfl⟩) fun h4 => ?_
  refine .ite (hlegal ⟨rfl, rfl⟩) fun h5 => ?_
  refine .ite (fun h => ⟨rfl, hbad rfl h⟩) fun h6 => ?_
  refine .ite (fun h => ⟨rfl, hbad rfl h⟩) fun h8 => ?_
  refine .ite (fun h => ⟨rfl, hbad rfl h⟩) fun h16 => ?_
  refine .ite (fun h => ⟨rfl, hbad rfl h⟩) fun h32 => ?_
  refine .ite (fun h => ⟨rfl, hbad rfl h⟩) fun h64 => ?_
  exact ⟨rfl, hbad rfl (class_byte_high_bit h0 h1 h2 h3 h4 h5 h6 h8 h16 h32 h64)⟩

/-- The row of a tag is that of its three fields, which make the tag (R94, R95). -/
theorem decodeTag_readsBack (c : BlockClass) (t : BitVec 24) : ReadsBack (decodeTag c t) (tagBytes t) := by
  rw [decodeTag_eq_ofFields]
  exact ⟨ofFields_wf .., by rw [encode_ofFields, append_three_fields]⟩

/-- An escape byte that is not 255 is carried by its row (R97). -/
theorem decodeEsc_readsBack (b : Byte) : ReadsBack (decodeEsc b) [b] :=
  .ite (fun h => ⟨rfl, congrArg ([·]) h.symm⟩) fun h => ⟨bne_iff_ne.mpr h, rfl⟩

/-- A row that reads back stands at the head of the bytes it was read from. -/
theorem ReadsBack.append {i : Instr} {bs : List Byte} (h : ReadsBack i bs) (rest : List Byte) :
    encode i ++ rest = bs ++ rest := congrArg (· ++ rest) h.enc

/-- Settles O2: by format, the bytes that were there make the word, and the row of the word encodes to its bytes. -/
theorem streamWordsReencode : Obligations.StreamWordsReencode := by
  intro f bs rest i hcmd h
  have hfmt := (Machine.decode_format h).1
  unfold decode at h
  split at h <;> cases h
  case h_1 => exact absurd rfl hcmd
  · exact ⟨(decodeClass_readsBack _).wf, hfmt, (decodeClass_readsBack _).append rest⟩
  next c b0 b1 b2 =>
    have htag := decodeTag_readsBack c (tagOfBytes b0 b1 b2)
    rw [tagBytes_tagOfBytes] at htag
    exact ⟨htag.wf, hfmt, htag.append rest⟩
  · exact ⟨(decodeEsc_readsBack _).wf, hfmt, (decodeEsc_readsBack _).append rest⟩
  · exact ⟨rfl, hfmt, rfl⟩

end Sys2Proof
end

section
/-! The command words: the four bits that select, what CMD reads after an accepted write, and the opcodes that fail at
once (30_encoding.md R90, R91). -/

namespace Sys2Proof.Machine

/-! ## The opcode of a command word -/

/-- Only the opcode bits of a command word select its row (R90). -/
theorem decodeCmd_eq_decodeCmd_opcode (w : Reg) : decodeCmd w = decodeCmd (cmdWord (w.extractLsb' 0 4)) := by
  have hlow {n : Nat} (hn : n ≤ 4) : (cmdWord (w.extractLsb' 0 4)).extractLsb' 0 n = w.extractLsb' 0 n := by
    rw [cmdWord, BitVec.extractLsb'_setWidth_of_le (by omega), BitVec.extractLsb'_extractLsb'_of_le (by omega)]
  unfold decodeCmd
  rw [hlow (by decide), hlow (by decide), hlow (by decide)]

/-- The opcode with zeros above it is the word with its reserved bits cleared (R90). -/
theorem cmdWord_opcode (w : Reg) : cmdWord (w.extractLsb' 0 4) = w &&& 15 := by
  apply BitVec.eq_of_toNat_eq
  rw [cmdWord, BitVec.toNat_setWidth_of_le (by decide), toNat_low_field, BitVec.toNat_and]
  exact (Nat.and_two_pow_sub_one_eq_mod w.toNat 4).symm

/-- The row of each opcode (R90's table). -/
theorem decodeCmd_cmdWord_iff (op : BitVec 4) :
    (op.toNat = 1 ↔ decodeCmd (cmdWord op) = .encode) ∧
    (op.toNat = 2 ↔ decodeCmd (cmdWord op) = .decode) ∧
    (op.toNat = 3 ↔ decodeCmd (cmdWord op) = .updateDeltaState) ∧
    (op.toNat = 4 ↔ decodeCmd (cmdWord op) = .encodeDelta) ∧
    (op.toNat = 5 ↔ decodeCmd (cmdWord op) = .decodeDelta) ∧
    ((op.toNat = 0 ∨ 6 ≤ op.toNat) ↔ decodeCmd (cmdWord op) = .illegalOp0 ∨
      (∃ lo, decodeCmd (cmdWord op) = .illegalOp67 lo) ∨ ∃ lo, decodeCmd (cmdWord op) = .illegalOp8F lo) := by
  revert op
  decide

/-- CMD holds the opcode of an accepted command, whether it fails at once or is launched (10_state.md R42). -/
theorem CommandOutcome.cmd {s t : State} {op : BitVec 4} (h : CommandOutcome s op (.next t)) :
    t.regs.cmd = cmdWord op := by
  cases h with
  | failed st c => rfl
  | launched _ hl => rw [hl.regs]; rfl

/-- Settles O3: the word's row is that of its opcode, by R90's table; CMD keeps the opcode of an accepted command. -/
theorem commandWordSelectsByOpcode : Obligations.CommandWordSelectsByOpcode := by
  intro w
  have hop : (w.extractLsb' 0 4).toNat = w.toNat % 16 := toNat_low_field w 4
  have hrow := decodeCmd_eq_decodeCmd_opcode w
  obtain ⟨henc, hdec, hupd, hencd, hdecd, hill⟩ := decodeCmd_cmdWord_iff (w.extractLsb' 0 4)
  rw [hop, ← hrow] at henc hdec hupd hencd hdecd
  simp only [hop, ← hrow] at hill
  refine ⟨by rw [← cmdWord_opcode, ← hrow], henc, hdec, hupd, hencd, hdecd, hill, fun s t h => ?_⟩
  have hcmd := exec_decodeCmd_outcome s w
  rw [h] at hcmd
  rw [← cmdWord_opcode, ← hcmd.cmd]
  rfl

/-! ## Opcodes that fail at once -/

/-- An illegal command fails with BAD_OPCODE as soon as it is accepted, with no memory access (R91). -/
theorem runIllegal_endedAtOnce (s : State) (op : BitVec 4) :
    EndedAtOnce s (runIllegal (s.accept op)) op 0xFFFFFFFF 0x04 :=
  ⟨rfl, rfl, SameMemory.refl s, SameSurroundings.refl s⟩

/-- Where the delta commands are absent their opcodes are illegal (R91, 00_scope.md R3). -/
theorem exec_delta_absent {s : State} (h : s.params.deltaPresent = false) :
    exec .updateDeltaState s = .next (runIllegal (s.accept opUpdate)) ∧
    exec .encodeDelta s = .next (runIllegal (s.accept opEncodeDelta)) ∧
    exec .decodeDelta s = .next (runIllegal (s.accept opDecodeDelta)) := by
  have hne : ¬s.params.deltaPresent = true := by rw [h]; decide
  exact ⟨if_neg hne, if_neg hne, if_neg hne⟩

/-- Settles O13: each of these command words runs `runIllegal` on the accepted command. -/
theorem illegalCommandFailsAtOnce : Obligations.IllegalCommandFailsAtOnce := by
  intro s
  refine ⟨⟨_, rfl, runIllegal_endedAtOnce s _⟩, fun lo => ⟨_, rfl, runIllegal_endedAtOnce s _⟩,
    fun lo => ⟨_, rfl, runIllegal_endedAtOnce s _⟩, fun habsent => ?_⟩
  obtain ⟨hupdate, hencode, hdecode⟩ := exec_delta_absent habsent
  exact ⟨⟨_, hupdate, runIllegal_endedAtOnce s _⟩, ⟨_, hencode, runIllegal_endedAtOnce s _⟩,
    ⟨_, hdecode, runIllegal_endedAtOnce s _⟩⟩

end Sys2Proof.Machine
end

section
/-! The shared primitives (40_primitives.md R131 to R138, R142, R143): logarithms and the class selector, escape chains,
packed tags, match extension. -/

namespace Sys2Proof.Machine

/-! ## Logarithms and the class selector -/

theorem two_pow_msb_le {x : Nat} (hx : 1 ≤ x) : 2 ^ msb x ≤ x := Nat.log2_self_le (Nat.ne_of_gt hx)

theorem le_msb_iff {x k : Nat} (hx : 1 ≤ x) : k ≤ msb x ↔ 2 ^ k ≤ x := Nat.le_log2 (Nat.ne_of_gt hx)

theorem lt_two_pow_msb_succ (x : Nat) : x < 2 ^ (msb x + 1) := Nat.lt_log2_self

/-- A power of two holds `x` from `ceil_log2(x)` on (40_primitives.md R131). -/
theorem ceilLog2_le_iff {x k : Nat} (hx : 1 ≤ x) : ceilLog2 x ≤ k ↔ x ≤ 2 ^ k := by
  have hmsb := two_pow_msb_le hx
  unfold ceilLog2
  split
  next hpow =>
    calc msb x ≤ k ↔ 2 ^ msb x ≤ 2 ^ k := (Nat.pow_le_pow_iff_right Nat.one_lt_two).symm
      _ ↔ x ≤ 2 ^ k := by rw [hpow]
  next hpow =>
    constructor
    · exact fun hk => (lt_two_pow_msb_succ x).le.trans (Nat.pow_le_pow_right Nat.two_pos hk)
    · intro hxk
      exact (Nat.pow_lt_pow_iff_right Nat.one_lt_two).mp ((Nat.lt_of_le_of_ne hmsb hpow).trans_le hxk)

/-- Settles O8: `msb` and `ceil_log2` are each the other side of a power of two. -/
theorem ceilLog2IsLeastPower : Obligations.CeilLog2IsLeastPower := by
  intro x hx
  refine ⟨two_pow_msb_le hx, fun k => (le_msb_iff hx).mpr, (ceilLog2_le_iff hx).mp (Nat.le_refl _),
    fun k => (ceilLog2_le_iff hx).mpr, if_congr eq_comm rfl rfl⟩

/-- Every number up to 4 is a class. -/
theorem classOfNat_of_le {n : Nat} (h : n ≤ 4) : ∃ c, classOfNat n = some c ∧ c.toNat = n := by
  interval_cases n <;> exact ⟨_, rfl, rfl⟩

/-- Block size `2^(12 + n)` holds a length from class `ceil_log2 - 12` on (40_primitives.md R132). -/
theorem ceilLog2_sub_le_iff {len n : Nat} (hlen : 1 ≤ len) : ceilLog2 len - 12 ≤ n ↔ len ≤ 2 ^ (12 + n) := by
  rw [← ceilLog2_le_iff hlen, Nat.sub_le_iff_le_add']

/-- Settles O9: the class of a length is where the block sizes begin to hold it. -/
theorem classSelectorRoundsUp : Obligations.ClassSelectorRoundsUp := by
  refine ⟨fun len hlow hhigh => ?_, rfl, fun len hlen => if_neg fun h => Nat.not_le_of_lt hlen h.2⟩
  have hfour : ceilLog2 len - 12 ≤ 4 := (ceilLog2_sub_le_iff hlow).mpr hhigh
  obtain ⟨c, hc, hnat⟩ := classOfNat_of_le hfour
  refine ⟨c, (if_pos ⟨hlow, hhigh⟩).trans hc, hnat, ?_, fun d hd => ?_⟩
  · exact (ceilLog2_sub_le_iff hlow).mp hnat.ge
  · rw [hnat]
    exact (ceilLog2_sub_le_iff hlow).mpr hd

/-! ## Escape chains -/

/-- A chain of `q` bytes of 255 and a last byte below (40_primitives.md R136). -/
theorem escDecode_chain {b : Byte} (hb : b ≠ 255#8) (rest : List Byte) (q : Nat) :
    escDecode (List.replicate q 255#8 ++ b :: rest) = some (255 * q + b.toNat, q + 1) := by
  induction q with
  | zero => simp [escDecode, hb]
  | succ q ih =>
    rw [List.replicate_succ, List.cons_append, escDecode, if_pos rfl, ih, Option.map_some]
    exact congrArg (fun e => some (e, q + 1 + 1)) (by omega)

/-- A chain of 255s alone has no end (R136, TRUNC). -/
theorem escDecode_replicate (n : Nat) : escDecode (List.replicate n 255#8) = none := by
  induction n with
  | zero => rfl
  | succ n ih => rw [List.replicate_succ, escDecode, if_pos rfl, ih, Option.map_none]

/-- Settles O7: the chain of `u` is `u / 255` bytes of 255 and the remainder, which is below 255. -/
theorem escapeChainRoundTrip : Obligations.EscapeChainRoundTrip := by
  refine ⟨fun u rest => ⟨by simp [escEncode, Config.escByteMax], ?_⟩, escDecode_replicate⟩
  have hlast : (BitVec.ofNat 8 (u % 255)).toNat = u % 255 := (BitVec.toNat_ofNat ..).trans (Nat.mod_eq_of_lt (by omega))
  have hne : BitVec.ofNat 8 (u % 255) ≠ 255#8 := by
    rw [ne_eq, ← BitVec.toNat_inj, hlast]
    exact (Nat.mod_lt u (by omega)).ne
  rw [escEncode, List.append_assoc, List.singleton_append]
  rw [Config.escByteMax, escDecode_chain hne, hlast, Nat.div_add_mod]

/-! ## Packed tags -/

section
variable (c : BlockClass) (nf : BitVec (classParams c).nrLog2) (rf : BitVec (classParams c).rLog2)
  (off : BitVec (classParams c).offLog2)

/-- A packed tag is its three fields side by side (40_primitives.md R134). -/
theorem packTag_eq_toNat_append :
    packTag c nf.toNat rf.toNat off.toNat = ((nf ++ rf ++ off).cast (tag_widths c)).toNat := by
  rw [BitVec.toNat_cast, BitVec.toNat_append, BitVec.toNat_append, Nat.shiftLeft_or_distrib, ← Nat.shiftLeft_add,
    Nat.add_comm (classParams c).rLog2]
  rfl

/-- The fields of a word, as `unpack_tag` finds them (R138). -/
theorem unpackTag_toNat (t : BitVec 24) :
    unpackTag c t.toNat =
      ((t.extractLsb' ((classParams c).offLog2 + (classParams c).rLog2) (classParams c).nrLog2).toNat,
        (t.extractLsb' (classParams c).offLog2 (classParams c).rLog2).toNat,
        (t.extractLsb' 0 (classParams c).offLog2).toNat) := by
  have htop : (classParams c).nrLog2 + ((classParams c).offLog2 + (classParams c).rLog2) = 24 := by
    have := tag_widths c
    omega
  rw [toNat_high_field t htop, toNat_field, toNat_low_field]
  simp only [unpackTag, mask, Nat.and_two_pow_sub_one_eq_mod, Nat.shiftRight_eq_div_pow]

theorem unpackTag_packTag : unpackTag c (packTag c nf.toNat rf.toNat off.toNat) = (nf.toNat, rf.toNat, off.toNat) := by
  rw [packTag_eq_toNat_append, unpackTag_toNat, low_field_of_append, middle_field_of_append, high_field_of_append]

theorem decode_packTagBytes :
    decode (.tag c) (packTagBytes c nf.toNat rf.toNat off.toNat) = .ok ((tagRows c).ofFields nf rf off, []) := by
  rw [packTagBytes, packTag_eq_toNat_append, BitVec.ofNat_toNat, BitVec.setWidth_eq, ← List.append_nil (tagBytes _),
    decode_tagBytes, decodeTag_append]

end

/-- A number that fits a field is one. -/
theorem exists_toNat_eq {n w : Nat} (h : n < 2 ^ w) : ∃ x : BitVec w, x.toNat = n :=
  ⟨BitVec.ofNatLT n h, rfl⟩

/-- Settles O6: numbers in range are fields, and a packed tag is its three fields side by side. -/
theorem packedTagUnpacks : Obligations.PackedTagUnpacks := by
  intro c nf rf off hnf hrf hoff
  obtain ⟨nf, rfl⟩ := exists_toNat_eq hnf
  obtain ⟨rf, rfl⟩ := exists_toNat_eq hrf
  obtain ⟨off, rfl⟩ := exists_toNat_eq hoff
  exact ⟨packTag_eq_toNat_append c nf rf off ▸ BitVec.isLt _, unpackTag_packTag c nf rf off, _,
    decode_packTagBytes c nf rf off, tagFields_ofFields c nf rf off⟩

/-! ## Match extension -/

/-- Forward extension stops at the end (40_primitives.md R142). -/
theorem matchExtend_le (R : Nat → Byte) (c p fuel m : Nat) : matchExtend R c p fuel m ≤ m + fuel := by
  induction fuel generalizing m with
  | zero => exact Nat.le_refl m
  | succ fuel ih =>
    unfold matchExtend
    split
    · exact (ih (m + 1)).trans (by omega)
    · omega

/-- Forward extension counts only positions that agree. -/
theorem matchExtend_agree {R : Nat → Byte} {c p fuel m j : Nat} (hm : m ≤ j) (hj : j < matchExtend R c p fuel m) :
    R (p + j) = R (c + j) := by
  induction fuel generalizing m with
  | zero => exact absurd hj (Nat.not_lt_of_le hm)
  | succ fuel ih =>
    unfold matchExtend at hj
    split at hj
    next heq =>
      obtain rfl | hlt := Nat.eq_or_lt_of_le hm
      · exact heq
      · exact ih hlt hj
    next => exact absurd hj (Nat.not_lt_of_le hm)

/-- Forward extension stops before the end only at a position that differs. -/
theorem matchExtend_stop {R : Nat → Byte} {c p fuel m : Nat} (h : matchExtend R c p fuel m < m + fuel) :
    R (p + matchExtend R c p fuel m) ≠ R (c + matchExtend R c p fuel m) := by
  induction fuel generalizing m with
  | zero => exact absurd h (Nat.lt_irrefl m)
  | succ fuel ih =>
    unfold matchExtend at h ⊢
    split at h
    next heq =>
      rw [if_pos heq]
      exact ih (by omega)
    next hne =>
      rw [if_neg hne]
      exact hne

/-- Backward extension lowers both positions by one `k`, over bytes that agree, and stops at the start of the region, at
the pending literals' start or at a difference (R143). -/
theorem backExtend_maximal {R : Nat → Byte} {c p lit : Nat} (hc : c < p) (hlit : lit ≤ p) :
    ∃ k, backExtend R lit c p = (c - k, p - k) ∧ k ≤ c ∧ lit + k ≤ p ∧
      (∀ j, j < k → R (p - 1 - j) = R (c - 1 - j)) ∧
      (k < c → lit + k < p → R (p - 1 - k) ≠ R (c - 1 - k)) := by
  induction c generalizing p with
  | zero => exact ⟨0, rfl, Nat.le_refl 0, hlit, fun j hj => absurd hj (Nat.not_lt_zero j),
      fun hk => absurd hk (Nat.lt_irrefl 0)⟩
  | succ c ih =>
    unfold backExtend
    split
    next hback =>
      obtain ⟨hlt, heq⟩ := hback
      obtain ⟨k, hk, hkc, hkp, hagree, hstop⟩ := ih (p := p - 1) (by omega) (by omega)
      have hpred (q j : Nat) : q - 1 - (j + 1) = q - 1 - 1 - j := by omega
      refine ⟨k + 1, ?_, by omega, by omega, fun j hj => ?_, fun hkc' hkp' => ?_⟩
      · rw [hk, Nat.add_sub_add_right, Nat.sub_sub, Nat.add_comm 1]
      · cases j with
        | zero => exact heq
        | succ j =>
          rw [hpred p j, hpred (c + 1) j]
          exact hagree j (by omega)
      · rw [hpred p k, hpred (c + 1) k]
        exact hstop (by omega) (by omega)
    next hback =>
      exact ⟨0, rfl, Nat.zero_le _, hlit, fun j hj => absurd hj (Nat.not_lt_zero j),
        fun _ hlt heq => hback ⟨hlt, heq⟩⟩

/-- Settles O11: the four verified bytes and those forward extension counts; backward extension by induction. -/
theorem matchExtensionIsMaximal : Obligations.MatchExtensionIsMaximal := by
  refine ⟨fun R c p fin hfin hsame => ?_, fun R c p lit hc hlit => backExtend_maximal hc hlit⟩
  have hend : 4 + (fin - (p + 4)) = fin - p := by omega
  have hle : matchLen R c p fin ≤ 4 + (fin - (p + 4)) := matchExtend_le R c p _ _
  refine ⟨self_le_matchExtend R c p _ 4, by omega, fun j hj => ?_, fun hlt => ?_⟩
  · obtain hfour | hfour := Nat.lt_or_ge j 4
    · exact same4_agree hsame j hfour
    · exact matchExtend_agree hfour hj
  · exact matchExtend_stop (m := 4) (fuel := fin - (p + 4)) (show matchLen R c p fin < _ by omega)

end Sys2Proof.Machine
end

section
/-! Elements of a record that go on with it (42_decoder.md R236, R240; 40_primitives.md R136, R140, R141): a literal
byte, an escape byte, and the byte-serial copy of a repeat. -/

namespace Sys2Proof.Machine

/-! ## The byte-serial copy -/

section
variable {m : Memory} {src dst : Addr} {d n : Nat} (hdst : ∀ k, k < n → byteAddr dst k = d + k)
include hdst

/-- A copy to `[d, d + n)` changes no byte outside it. -/
theorem read_copy_outside {a : Nat} (ha : ¬(d ≤ a ∧ a < d + n)) : (m.copy src dst n).read a = m.read a := by
  refine Memory.read_copy_other m src dst n a fun k hk heq => ha ?_
  have hk' : a = d + k := heq.trans (hdst k hk)
  omega

/-- A copy from `off` bytes below reads what it wrote itself: every byte equals the byte `off` before it
(40_primitives.md R141). -/
theorem read_copy_replicates {off : Nat} (hoff : 0 < off) (hsrc : ∀ k, k < n → byteAddr src k + off = d + k) {j : Nat}
    (hj : j < n) : (m.copy src dst n).read (d + j) = (m.copy src dst n).read (d + j - off) := by
  induction n generalizing m src dst d j with
  | zero => exact absurd hj (Nat.not_lt_zero j)
  | succ n ih =>
    have hdst' (k : Nat) (hk : k < n) : byteAddr (dst + 1) k = d + 1 + k := by
      rw [byteAddr_succ, hdst _ (Nat.succ_lt_succ hk), Nat.add_right_comm, Nat.add_assoc]
    have hsrc' (k : Nat) (hk : k < n) : byteAddr (src + 1) k + off = d + 1 + k := by
      rw [byteAddr_succ, hsrc _ (Nat.succ_lt_succ hk), Nat.add_right_comm, Nat.add_assoc]
    cases j with
    | zero =>
      have hd : dst.toNat = d := by rw [← byteAddr_zero, hdst 0 n.succ_pos, Nat.add_zero]
      have hs : src.toNat + off = d := by rw [← byteAddr_zero, hsrc 0 n.succ_pos, Nat.add_zero]
      have hfirst : (m.copy src dst (n + 1)).read d = m.read src.toNat := by
        rw [Memory.copy, read_copy_outside hdst' (by omega), hd, Memory.read_write_same]
      have hbelow : (m.copy src dst (n + 1)).read src.toNat = m.read src.toNat := read_copy_outside hdst (by omega)
      have hsub : d + 0 - off = src.toNat := by omega
      rw [hsub, hbelow]
      exact hfirst
    | succ j =>
      have hstep := ih (m := m.write dst.toNat (m.read src.toNat)) hdst' hsrc' (Nat.lt_of_succ_lt_succ hj)
      rwa [Nat.add_right_comm, Nat.add_assoc] at hstep

end

/-! ## Escape bytes -/

/-- In the literal-length chain a byte adds to the number of literals (R236). -/
theorem addEscape_nrChain {s : State} (v : Nat) (h : s.eng.stage = .nrChain) :
    s.addEscape v = { s with eng := { s.eng with inPos := s.eng.inPos + 1, recN := s.eng.recN + v } } := if_pos h

/-- In the repeat-length chain a byte adds to the repeat length (R240). -/
theorem addEscape_rChain {s : State} (v : Nat) (h : s.eng.stage = .rChain) :
    s.addEscape v = { s with eng := { s.eng with inPos := s.eng.inPos + 1, recM := s.eng.recM + v } } :=
  if_neg (by rw [h]; decide)

/-- The last byte of a repeat-length chain is followed by the repeat (R240). -/
theorem escapeEnd_rChain {s : State} (v : Byte) (h : s.eng.stage = .rChain) :
    s.escapeEnd v = State.repeatBody
      { s with eng := { s.eng with inPos := s.eng.inPos + 1, recM := s.eng.recM + v.toNat } } := by
  rw [← addEscape_rChain v.toNat h]
  exact if_neg (by rw [h]; decide)

/-- Settles O29: a byte of 255 adds 255 to the length of its chain and leaves the stage. -/
theorem escapeContinueAdds255 : Obligations.EscapeContinueAdds255 := by
  refine fun s => ⟨fun h => ⟨_, rfl, ?_⟩, fun h => ⟨_, rfl, ?_⟩⟩
  · rw [State.escapeCont, addEscape_nrChain _ h]
    exact ⟨rfl, rfl, SameMemory.refl s, SameSurroundings.refl s, rfl⟩
  · rw [State.escapeCont, addEscape_rChain _ h]
    exact ⟨rfl, rfl, SameMemory.refl s, SameSurroundings.refl s, rfl⟩

/-! ## Literals -/

theorem literalByte_of_more {s : State} (v : Byte) (h : 1 < s.eng.recN) : s.literalByte v = s.pastLiteral v :=
  if_neg (Nat.not_le_of_lt h)

theorem literalByte_of_last {s : State} (v : Byte) (h : s.eng.recN ≤ 1) :
    s.literalByte v = (s.pastLiteral v).afterLiterals := if_pos h

/-- Settles O28: a literal byte that others follow is one write at the output cursor. -/
theorem literalByteIsCopied : Obligations.LiteralByteIsCopied := by
  exact fun s v hmore => ⟨s.pastLiteral v, congrArg _ (literalByte_of_more v hmore), rfl, rfl, ⟨rfl, rfl, rfl, rfl⟩,
    rfl, fun a => Memory.read_write _ _ _ _⟩

/-- A tag is one record of its fields (R236). -/
theorem exec_tagFields {i : Instr} {c : BlockClass} {nf rf off : Nat} (h : tagFields i = some (c, nf, rf, off))
    (s : State) : exec i s = .next (s.tagRecord nf rf off) := by
  cases i <;> cases h <;> rfl

theorem literalBounds_noLiterals {s : State} (h : s.eng.recN = 0) : s.literalBounds = s.afterLiterals := by
  obtain ⟨hin, -⟩ | ⟨-, hout, -⟩ | ⟨-, hgo⟩ | ⟨-, -, hpos, -⟩ := literalBounds_cases s
  · omega
  · omega
  · exact hgo
  · exact absurd h hpos

/-- An nr_field of 0 is below its maximum in every class. -/
theorem mask_nrLog2_ne_zero (c : BlockClass) : mask (classParams c).nrLog2 ≠ 0 := by
  cases c <;> decide

/-- A tag with nr_field 0 has no literals, whatever its class (R236). -/
theorem tagRecord_noLiterals {s : State} (rf off : Nat) (hwidths : s.eng.widthsOk) :
    s.tagRecord 0 rf off = State.afterLiterals { s with eng := s.eng.pastTag 0 rf off } := by
  obtain ⟨hnr, -⟩ := hwidths
  have hbelow : 0 ≠ mask s.eng.nrLog2 := by
    rw [hnr]
    exact (mask_nrLog2_ne_zero _).symm
  exact (if_neg hbelow).trans (literalBounds_noLiterals rfl)

/-- Where the literals of a record are done, what follows them runs (R240, R245). -/
theorem LiteralsDone.exec_eq {s : State} {i : Instr} {e : Engine} {m : Memory} (h : LiteralsDone s i e m) :
    exec i s = .next (State.afterLiterals { s with mem := m, eng := e }) := by
  obtain ⟨rf, off, ⟨htag, hwidths⟩, rfl, rfl⟩ | ⟨v, rfl, -, hlast, rfl, rfl⟩ := h
  · rw [exec_tagFields htag, tagRecord_noLiterals rf off hwidths]
  · have hnone : 0 = s.eng.recN - 1 := by rw [hlast]
    rw [hnone]
    exact congrArg _ (literalByte_of_last v hlast.le)

/-- The elements that end a record's literals leave the width of its r_field as the class has it. -/
theorem LiteralsDone.rLog2_eq {s : State} {i : Instr} {e : Engine} {m : Memory} (h : LiteralsDone s i e m) :
    e.rLog2 = (classParams s.eng.cls).rLog2 := by
  obtain ⟨rf, off, ⟨-, -, -, hr⟩, rfl, -⟩ | ⟨v, -, ⟨-, -, hr⟩, -, rfl, -⟩ := h <;> exact hr

/-! ## Repeats -/

/-- Where the length of a repeat is known, the end of its record runs (R240). -/
theorem RepeatKnown.exec_eq {s : State} {i : Instr} {e : Engine} {m : Memory} (h : RepeatKnown s i e m) :
    exec i s = .next (State.repeatBody { s with mem := m, eng := e }) := by
  obtain ⟨hdone, hoff, hfield⟩ | ⟨v, rfl, hstage, -, rfl, rfl⟩ := h
  · rw [← hdone.rLog2_eq] at hfield
    obtain ⟨hzero, -⟩ | ⟨-, hfull, -⟩ | ⟨-, -, hgo⟩ := afterLiterals_cases { s with mem := m, eng := e }
    · exact absurd hzero hoff
    · exact absurd hfull hfield
    · rw [hdone.exec_eq, hgo]
  · exact congrArg _ (escapeEnd_rChain v hstage)

theorem RepeatKnown.recOff_ne_zero {s : State} {i : Instr} {e : Engine} {m : Memory} (h : RepeatKnown s i e m) :
    e.recOff ≠ 0 := by
  obtain ⟨-, hoff, -⟩ | ⟨v, -, -, hoff, -, rfl⟩ := h <;> exact hoff

/-- A repeat that passes its checks is copied (R240 to R242). -/
theorem repeatBody_of_checks {s : State} (hoff : s.eng.recOff ≤ s.eng.avail + s.eng.outPos)
    (hroom : s.eng.recM ≤ s.eng.capEff - s.eng.outPos) :
    s.repeatBody = { s with
      mem := s.mem.copy (s.eng.outAddr + BitVec.ofNat 64 s.eng.outPos - BitVec.ofNat 64 s.eng.recOff)
        (s.eng.outAddr + BitVec.ofNat 64 s.eng.outPos) s.eng.recM
      eng := { s.eng with outPos := s.eng.outPos + s.eng.recM, stage := .tag } } :=
  (if_neg (Nat.not_lt_of_le hoff)).trans (if_neg (Nat.not_lt_of_le hroom))

/-- Byte `k` of a region from `pos` on, where the region does not wrap. -/
theorem byteAddr_from {base : Addr} {pos k : Nat} (h : base.toNat + pos + k < 2 ^ 64) :
    byteAddr (base + BitVec.ofNat 64 pos) k = base.toNat + pos + k := by
  simp only [byteAddr]
  bv_omega

/-- Byte `k` of what stands `off` bytes below it. -/
theorem byteAddr_from_sub {base : Addr} {pos off k : Nat} (h : base.toNat + pos + k < 2 ^ 64)
    (hoff : off ≤ base.toNat + pos) :
    byteAddr (base + BitVec.ofNat 64 pos - BitVec.ofNat 64 off) k + off = base.toNat + pos + k := by
  simp only [byteAddr]
  bv_omega

/-- Settles O31: the repeat that passed its checks is a copy within OUT from `off` bytes below. -/
theorem repeatCopyReplicates : Obligations.RepeatCopyReplicates := by
  intro s i e m hknown hoff hroom hout havail
  have hcap : e.capEff ≤ e.outCap.toNat := Nat.min_le_left _ _
  have hdst (k : Nat) (hk : k < e.recM) :
      byteAddr (e.outAddr + BitVec.ofNat 64 e.outPos) k = e.outAddr.toNat + e.outPos + k :=
    byteAddr_from (by omega)
  have hsrc (k : Nat) (hk : k < e.recM) :
      byteAddr (e.outAddr + BitVec.ofNat 64 e.outPos - BitVec.ofNat 64 e.recOff) k + e.recOff =
        e.outAddr.toNat + e.outPos + k :=
    byteAddr_from_sub (by omega) (by omega)
  refine ⟨_, hknown.exec_eq, ?_⟩
  rw [repeatBody_of_checks hoff hroom]
  exact ⟨rfl, rfl, ⟨rfl, rfl, rfl, rfl⟩, rfl,
    fun j hj => read_copy_replicates hdst (Nat.pos_of_ne_zero hknown.recOff_ne_zero) hsrc hj,
    fun a ha => read_copy_outside hdst ha⟩

end Sys2Proof.Machine
end

section
/-! SUPPORT. Regions that share no address (20_memory.md R67, R72), and the regions of a command in the order of
R61. -/

namespace Sys2Proof.Machine

/-- Spans that do not meet share no address. -/
theorem not_spanHolds_of_apart {r q : Span} {a : Nat} (h : spanMeets r q = false) (ha : spanHolds r a = true) :
    spanHolds q a = false := by
  rw [spanHolds_iff] at ha
  simp only [spanMeets, decide_eq_false_iff_not] at h
  simp only [spanHolds, decide_eq_false_iff_not]
  omega

theorem anyMeet_eq_false_iff (l : List Span) :
    anyMeet l = false ↔ l.Pairwise (fun r q => spanMeets r q = false) := by
  induction l with
  | nil => simp [anyMeet]
  | cons r rest ih => simp [anyMeet, List.pairwise_cons, ih]

/-- IN and OUT of a command that uses both do not meet. -/
theorem inSpan_outSpan_apart {e : Engine} (h : anyMeet e.regions = false) (hin : usesIn e.op = true)
    (hout : usesOut e.op = true) : spanMeets e.inSpan e.outSpan = false := by
  rw [anyMeet_eq_false_iff] at h
  simp only [Engine.regions, hin, hout, List.pairwise_append] at h
  obtain ⟨⟨-, -, happart⟩, -⟩ := h
  exact happart _ (by simp) _ (by simp)

/-- STATE of a command that uses it does not meet the other regions the command uses. -/
theorem stateSpan_apart {e : Engine} (h : anyMeet e.regions = false) (hstate : usesState e.op = true) :
    (usesDict e.op = true → spanMeets e.dictSpan e.stateSpan = false) ∧
    (usesIn e.op = true → spanMeets e.inSpan e.stateSpan = false) := by
  rw [anyMeet_eq_false_iff, Engine.regions, hstate, if_pos rfl, List.pairwise_append] at h
  obtain ⟨-, -, happart⟩ := h
  exact ⟨fun huse => happart _ (by simp [huse]) _ (by simp), fun huse => happart _ (by simp [huse]) _ (by simp)⟩

/-- Byte `i` of a region that does not wrap stands `i` behind its base. -/
theorem byteAddr_of_no_wrap {base : Addr} {len i : Nat} (htop : base.toNat + len ≤ 2 ^ 64) (hi : i < len) :
    byteAddr base i = base.toNat + i := by
  simpa using byteAddr_from (base := base) (pos := 0) (k := i) (by omega)

end Sys2Proof.Machine
end

section
/-! SUPPORT. Valid parses (41_encoder.md R178): the conditions on a record and on a list of records, what they depend
on, and how a parse grows by a record and is closed by its terminal. -/

namespace Sys2Proof.Machine

section
variable {R R' : Nat → Byte} {c : BlockClass} {q last fin : Nat} {r : ParseRecord} {P : List ParseRecord}

/-- The conditions V1 to V4 on a repeat record (R178). -/
theorem validRecord_iff : validRecord R c q r = true ↔
    4 ≤ r.m ∧ 1 ≤ r.off ∧ r.off ≤ q + r.n ∧ r.off ≤ mask (classParams c).offLog2 ∧
    ∀ j, j < r.m → R (q + r.n + j) = R (q + r.n - r.off + j) := by
  simp only [validRecord, Bool.and_eq_true, decide_eq_true_eq, List.all_eq_true, List.mem_range, beq_iff_eq, and_assoc]
  rfl

theorem validParse_terminal_iff : validParse R c fin q [r] = true ↔ r.off = 0 ∧ r.m = 0 ∧ q + r.n = fin := by
  simp only [validParse, Bool.and_eq_true, beq_iff_eq, and_assoc]

theorem validParse_cons_iff {next : ParseRecord} : validParse R c fin q (r :: next :: P) = true ↔
    validRecord R c q r = true ∧ validParse R c fin (q + r.n + r.m) (next :: P) = true := by
  rw [validParse, Bool.and_eq_true]

/-- A valid parse begins at or before the end of its region. -/
theorem validParse_le (h : validParse R c fin q P = true) : q ≤ fin := by
  induction P generalizing q with
  | nil => cases h
  | cons r rest ih =>
    cases rest with
    | nil =>
      obtain ⟨-, -, hend⟩ := validParse_terminal_iff.mp h
      omega
    | cons next rest =>
      have := ih (validParse_cons_iff.mp h).2
      omega

theorem validRecords_le (h : validRecords R c last q P) : q ≤ last := by
  induction P generalizing q with
  | nil => exact Nat.le_of_eq h
  | cons r rest ih =>
    have := ih h.2
    omega

/-! ## What validity depends on -/

/-- A record's validity depends on the region up to the record's end. -/
theorem validRecord_congr (hR : ∀ i, i < last → R' i = R i) (hend : q + r.n + r.m ≤ last)
    (h : validRecord R c q r = true) : validRecord R' c q r = true := by
  obtain ⟨hm, hpos, hreach, hoff, hrep⟩ := validRecord_iff.mp h
  refine validRecord_iff.mpr ⟨hm, hpos, hreach, hoff, fun j hj => ?_⟩
  rw [hR _ (by omega), hR _ (by omega), hrep j hj]

theorem validRecords_congr (hR : ∀ i, i < last → R' i = R i) (h : validRecords R c last q P) :
    validRecords R' c last q P := by
  induction P generalizing q with
  | nil => exact h
  | cons r rest ih => exact ⟨validRecord_congr hR (validRecords_le h.2) h.1, ih h.2⟩

theorem validParse_congr (hR : ∀ i, i < fin → R' i = R i) (h : validParse R c fin q P = true) :
    validParse R' c fin q P = true := by
  induction P generalizing q with
  | nil => exact h
  | cons r rest ih =>
    cases rest with
    | nil => exact h
    | cons next rest =>
      obtain ⟨hrec, hrest⟩ := validParse_cons_iff.mp h
      exact validParse_cons_iff.mpr ⟨validRecord_congr hR (validParse_le hrest) hrec, ih hrest⟩

/-! ## How a parse grows -/

/-- One more valid record where the records before it end. -/
theorem validRecords_append (h : validRecords R c last q P) (hr : validRecord R c last r = true) :
    validRecords R c (last + r.n + r.m) q (P ++ [r]) := by
  induction P generalizing q with
  | nil =>
    obtain rfl : q = last := h
    exact ⟨hr, rfl⟩
  | cons p rest ih => exact ⟨h.1, ih h.2⟩

/-- The terminal record over the rest of the region closes a parse (R196). -/
theorem validParse_of_validRecords (h : validRecords R c last q P) (hle : last ≤ fin) :
    validParse R c fin q (P ++ [⟨fin - last, 0, 0⟩]) = true := by
  induction P generalizing q with
  | nil =>
    obtain rfl : q = last := h
    exact validParse_terminal_iff.mpr ⟨rfl, rfl, Nat.add_sub_cancel' hle⟩
  | cons p rest ih =>
    have htail := ih h.2
    cases rest with
    | nil => exact validParse_cons_iff.mpr ⟨h.1, htail⟩
    | cons next rest => exact validParse_cons_iff.mpr ⟨h.1, htail⟩

end

/-! ## The record of a verified candidate -/

/-- Offsets within a region of the class fit the class's off_field (40_primitives.md R132, R133). -/
theorem le_two_pow_offLog2_of_classOf {len : Nat} {c : BlockClass} (h : classOf len = some c) :
    len ≤ 2 ^ (classParams c).offLog2 := by
  have hle := classOf_some_le h
  obtain hzero | hpos := Nat.eq_zero_or_pos len
  · exact hzero ▸ Nat.zero_le _
  · obtain ⟨d, hd, -, hlen, -⟩ := classSelectorRoundsUp.1 len hpos hle
    rw [h, Option.some_inj] at hd
    subst hd
    cases c <;> exact hlen

/-- The four bytes of a candidate are compared (R192). -/
theorem same4_iff (R : Nat → Byte) (c p : Nat) : same4 R c p = true ↔ ∀ j, j < 4 → R (c + j) = R (p + j) := by
  refine ⟨fun h j hj => (same4_agree h j hj).symm, fun h => ?_⟩
  simp only [same4, Bool.and_eq_true, beq_iff_eq]
  exact ⟨⟨⟨h 0 (by decide), h 1 (by decide)⟩, h 2 (by decide)⟩, h 3 (by decide)⟩

/-- The four bytes agree also `k` positions further back, where the `k` bytes before them agree. -/
theorem same4_back {R : Nat → Byte} {c p k : Nat} (hc : k ≤ c) (hp : k ≤ p) (hsame : same4 R c p = true)
    (hagree : ∀ j, j < k → R (p - 1 - j) = R (c - 1 - j)) : same4 R (c - k) (p - k) = true := by
  refine (same4_iff R _ _).mpr fun j hj => ?_
  obtain hlt | hge := Nat.lt_or_ge j k
  · have hbefore (q : Nat) (hq : k ≤ q) : q - k + j = q - 1 - (k - 1 - j) := by omega
    rw [hbefore c hc, hbefore p hp, hagree _ (by omega)]
  · have hbehind (q : Nat) (hq : k ≤ q) : q - k + j = q + (j - k) := by omega
    rw [hbehind c hc, hbehind p hp, same4_agree hsame _ (by omega)]

/-- A verified candidate, extended backward and forward, makes a valid record from the pending literals on, within the
region (R191 to R195). -/
theorem validRecord_of_candidate {R : Nat → Byte} {c : BlockClass} {cand p lit fin : Nat} (hcand : cand < p)
    (hlit : lit ≤ p) (hsame : same4 R cand p = true) (hfin : p + 4 ≤ fin)
    (hmax : fin ≤ 2 ^ (classParams c).offLog2) :
    ∃ c' p', backExtend R lit cand p = (c', p') ∧ lit ≤ p' ∧ p' + matchLen R c' p' fin ≤ fin ∧
      validRecord R c lit ⟨p' - lit, p' - c', matchLen R c' p' fin⟩ = true := by
  obtain ⟨k, hback, hkc, hkp, hagree, -⟩ := backExtend_maximal hcand hlit
  have hfour := same4_back hkc (by omega) hsame hagree
  obtain ⟨hmin, hle, hrep, -⟩ := matchExtensionIsMaximal.1 R (cand - k) (p - k) fin (by omega) hfour
  have hlitEnd : lit + (p - k - lit) = p - k := by omega
  have hsource : p - k - (p - k - (cand - k)) = cand - k := by omega
  refine ⟨cand - k, p - k, hback, by omega, hle, validRecord_iff.mpr ⟨hmin, ?_, ?_, ?_, ?_⟩⟩ <;> dsimp only
  · omega
  · omega
  · simp only [mask]; omega
  · rw [hlitEnd, hsource]; exact hrep

end Sys2Proof.Machine
end

section
/-! SUPPORT. The decoder at the bytes that are left to read (42_decoder.md R232 to R240): what stands at the cursor
runs, element by element. -/

namespace Sys2Proof.Machine

/-! ## Unread bytes -/

/-- `bytes` is what IN holds from the cursor to its end. -/
structure Unread (s : State) (bytes : List Byte) : Prop where
  cursor : s.eng.inPos + bytes.length = s.eng.inLen.toNat
  byte : ∀ i (hi : i < bytes.length), s.mem.read (byteAddr s.eng.inAddr (s.eng.inPos + i)) = bytes[i]

theorem readBytes_eq {m : Memory} {a : Addr} {bytes : List Byte}
    (h : ∀ i (hi : i < bytes.length), m.read (byteAddr a i) = bytes[i]) : m.readBytes a bytes.length = bytes := by
  induction bytes generalizing a with
  | nil => rfl
  | cons b rest ih =>
    have hfirst : m.read a.toNat = b := byteAddr_zero a ▸ h 0 (Nat.succ_pos _)
    have hrest : m.readBytes (a + 1) rest.length = rest := ih fun i hi => by
      rw [byteAddr_succ]
      exact h (i + 1) (Nat.succ_lt_succ hi)
    rw [List.length_cons, Memory.readBytes, hfirst, hrest]

/-- The bytes at the cursor are the first of the unread ones. -/
theorem Unread.inBytes_eq {s : State} {bytes rest : List Byte} (h : Unread s (bytes ++ rest)) :
    s.inBytes bytes.length = bytes := by
  have hcursor := h.cursor
  rw [List.length_append] at hcursor
  have hmin : min bytes.length s.eng.inLeft = bytes.length := Nat.min_eq_left (by simp only [Engine.inLeft]; omega)
  rw [State.inBytes, hmin]
  refine readBytes_eq fun i hi => ?_
  rw [byteAddr_offset, h.byte i (by simp; omega), List.getElem_append_left hi]

/-- Behind the first unread bytes the others are unread. -/
theorem Unread.advance {s t : State} {bytes rest : List Byte} (h : Unread s (bytes ++ rest))
    (hargs : SameArgs s.eng t.eng) (hpos : t.eng.inPos = s.eng.inPos + bytes.length)
    (hmem : ∀ i, i < s.eng.inLen.toNat →
      t.mem.read (byteAddr s.eng.inAddr i) = s.mem.read (byteAddr s.eng.inAddr i)) : Unread t rest := by
  obtain ⟨-, hin, -, -, -, hlen, -⟩ := hargs
  have hcursor := h.cursor
  rw [List.length_append] at hcursor
  refine ⟨by rw [hlen, hpos]; omega, fun i hi => ?_⟩
  have hbyte := h.byte (bytes.length + i) (by simp; omega)
  rw [List.getElem_append_right (Nat.le_add_right _ _)] at hbyte
  simp only [Nat.add_sub_cancel_left, ← Nat.add_assoc] at hbyte
  rw [hin, hpos, hmem _ (by omega), hbyte]

/-! ## The step at the cursor -/

/-- A running engine that expects a stream element takes a decoder step. -/
theorem engineStep_of_expects {s : State} {f : Format} (hrun : s.eng.phase = .run) (hexp : s.eng.expects = some f) :
    engineStep s = decoderStep s := by
  obtain ⟨hidle, -⟩ | ⟨-, hstage, -⟩ | ⟨-, hstage, -⟩ | ⟨-, hstage, -⟩ | ⟨-, -, h⟩ := engineStep_cases s
  · rw [hidle] at hrun; cases hrun
  · simp [Engine.expects, hstage] at hexp
  · simp [Engine.expects, hstage] at hexp
  · simp [Engine.expects, hstage] at hexp
  · exact h

/-- Where the first unread bytes are a word of the format the engine expects, the step runs its instruction. -/
theorem step_of_unread {s : State} {f : Format} {bytes rest : List Byte} {i : Instr} (hhost : s.host = [])
    (hrun : s.eng.phase = .run) (hexp : s.eng.expects = some f) (h : Unread s (bytes ++ rest))
    (hsize : bytes.length = f.size) (hdec : decode f bytes = .ok (i, [])) : step s = exec i s := by
  have hmore : s.eng.inPos ≠ s.eng.inLen.toNat := by
    have hcursor := h.cursor
    have hpos : 0 < f.size := by cases f <;> exact Nat.succ_pos _
    rw [List.length_append] at hcursor
    omega
  have hfetch : fetch s = .instr i := by
    rw [fetch, if_neg fun hend => hmore hend.2, hexp]
    dsimp only
    rw [← hsize, h.inBytes_eq, hdec]
    rfl
  rw [step_of_no_host hhost, engineStep_of_expects hrun hexp, decoderStep, hfetch]

end Sys2Proof.Machine
end

section
/-! SUPPORT. What a decode of a region keeps from element to element: its command, the bytes left to read, and the part
of the region that the dictionary and OUT hold (41_encoder.md R178; 42_decoder.md R248, R259). -/

namespace Sys2Proof.Machine

/-! ## Runs -/

/-- Running on from `s` comes to a state of `G` after finitely many steps. -/
def Reaches (s : State) (G : State → Prop) : Prop := ∃ n t, Host.Core.run Sys2Proof.core n s = .next t ∧ G t

theorem Reaches.of_step {s t : State} {G : State → Prop} (hstep : step s = .next t) (h : Reaches t G) :
    Reaches s G := by
  obtain ⟨n, u, hrun, hgoal⟩ := h
  exact ⟨n + 1, u, (run_succ_of_step hstep n).trans hrun, hgoal⟩

/-! ## The regions of a running decode -/

/-- The dictionary of DECODE_DELTA stands right below OUT, so what a repeat may reach does not pass address 0 (R259). -/
theorem avail_le_outAddr {e : Engine} (h : e.decoding) : e.avail ≤ e.outAddr.toNat := by
  obtain ⟨-, -, -, -, -, -, hadj, -⟩ := h
  unfold Engine.avail
  split
  next hop =>
    obtain hzero | hpos := Nat.eq_zero_or_pos e.dictLen.toNat
    · omega
    · have := hadj hop hpos
      omega
  next => exact Nat.zero_le _

/-- Byte `i` of the dictionary, by its place below OUT. -/
theorem byteAddr_dictAddr {e : Engine} (h : e.decoding) {i : Nat} (hi : i < e.avail) :
    byteAddr e.dictAddr i = e.outAddr.toNat + i - e.avail := by
  obtain ⟨-, -, -, -, -, hout, hadj, -⟩ := h
  unfold Engine.avail at hi ⊢
  split at hi
  next hop =>
    rw [if_pos hop]
    have hbelow := hadj hop (by omega)
    rw [byteAddr_of_no_wrap (len := e.dictLen.toNat) (by omega) hi]
    omega
  next => omega

/-- No byte of IN is in OUT. -/
theorem in_not_in_out {e : Engine} (h : e.decoding) {i : Nat} (hi : i < e.inLen.toNat) :
    ¬(e.outAddr.toNat ≤ byteAddr e.inAddr i ∧ byteAddr e.inAddr i < e.outAddr.toNat + e.outCap.toNat) := by
  obtain ⟨hop, -, -, -, hin, -, -, hmeet⟩ := h
  have huse : usesIn e.op = true ∧ usesOut e.op = true := by
    obtain h | h := hop <;> rw [h] <;> decide
  have hheld : spanHolds e.inSpan (byteAddr e.inAddr i) = true := by
    rw [spanHolds_iff, byteAddr_of_no_wrap hin hi]
    exact ⟨Nat.le_add_right _ _, Nat.add_lt_add_left hi _⟩
  exact of_decide_eq_false (not_spanHolds_of_apart (inSpan_outSpan_apart hmeet huse.1 huse.2) hheld)

/-! ## What the decoder keeps -/

/-- The engine `f` runs the command of `e` in the same phase and with the same class and widths. -/
def SameCommand (e f : Engine) : Prop :=
  SameArgs e f ∧ f.phase = e.phase ∧ f.cls = e.cls ∧ f.nrLog2 = e.nrLog2 ∧ f.offLog2 = e.offLog2 ∧ f.rLog2 = e.rLog2

theorem SameCommand.refl (e : Engine) : SameCommand e e := ⟨SameArgs.refl e, rfl, rfl, rfl, rfl, rfl⟩

/-- The decode that began in `s₀` goes on in `s`: the dictionary and OUT hold the region up to `q`, and `bytes` is
unread. -/
structure Progress (s₀ : State) (R : Nat → Byte) (c : BlockClass) (q : Nat) (bytes : List Byte) (s : State) : Prop where
  regs : s.regs = s₀.regs
  surroundings : SameSurroundings s₀ s
  args : SameArgs s₀.eng s.eng
  phase : s.eng.phase = .run
  cls : s.eng.cls = c
  widths : s.eng.widthsOk
  unread : Unread s bytes
  outPos : s₀.eng.avail + s.eng.outPos = q
  produced : ∀ i, i < q → s.mem.read (s₀.eng.outAddr.toNat + i - s₀.eng.avail) = R i

theorem SameArgs.trans {e f g : Engine} (h : SameArgs e f) (hg : SameArgs f g) : SameArgs e g := by
  obtain ⟨h1, h2, h3, h4, h5, h6, h7, h8, h9⟩ := h
  obtain ⟨g1, g2, g3, g4, g5, g6, g7, g8, g9⟩ := hg
  exact ⟨g1.trans h1, g2.trans h2, g3.trans h3, g4.trans h4, g5.trans h5, g6.trans h6, g7.trans h7, g8.trans h8,
    g9.trans h9⟩

section
variable {s₀ s : State} {R : Nat → Byte} {c : BlockClass} {q q' fin : Nat} {bytes rest : List Byte}
  {G : State → Prop}

theorem Progress.host (h : Progress s₀ R c q bytes s) (hhost : s₀.host = []) : s.host = [] :=
  h.surroundings.2.1.trans hhost

/-- The decode goes on where the cursor passes bytes that were unread and OUT is written at its own cursor alone, with
the region's next bytes. -/
theorem Progress.move (hdec : s₀.eng.decoding) (h : Progress s₀ R c q (bytes ++ rest) s) {m : Memory} {e : Engine}
    (hsame : SameCommand s.eng e) (hin : e.inPos = s.eng.inPos + bytes.length) (hq : q ≤ q')
    (hout : e.outPos = s.eng.outPos + (q' - q))
    (hold : ∀ a, ¬(s₀.eng.outAddr.toNat + s.eng.outPos ≤ a ∧ a < s₀.eng.outAddr.toNat + s₀.eng.outCap.toNat) →
      m.read a = s.mem.read a)
    (hnew : ∀ i, q ≤ i → i < q' → m.read (s₀.eng.outAddr.toNat + i - s₀.eng.avail) = R i) :
    Progress s₀ R c q' rest { s with mem := m, eng := e } := by
  obtain ⟨hargs, hphase, hcls, hnr, hoff, hr⟩ := hsame
  obtain ⟨hnrOk, hoffOk, hrOk⟩ := h.widths
  have ⟨_, hinAddr, _, _, _, hinLen, _⟩ := h.args
  have hpos := h.outPos
  have havail := avail_le_outAddr hdec
  refine ⟨h.regs, h.surroundings, h.args.trans hargs, hphase.trans h.phase, hcls.trans h.cls, ⟨?_, ?_, ?_⟩, ?_, ?_, ?_⟩
  · rw [hnr, hcls, hnrOk]
  · rw [hoff, hcls, hoffOk]
  · rw [hr, hcls, hrOk]
  · refine h.unread.advance hargs hin fun i hi => hold _ fun hheld => ?_
    rw [hinLen] at hi
    rw [hinAddr] at hheld
    exact in_not_in_out hdec hi (by omega)
  · dsimp only
    omega
  · intro i hi
    obtain hlt | hge := Nat.lt_or_ge i q
    · exact (hold _ (by omega)).trans (h.produced i hlt)
    · exact hnew i hge hi

/-- The cursor passes bytes that were unread, and nothing is written. -/
theorem Progress.pass (hdec : s₀.eng.decoding) (h : Progress s₀ R c q (bytes ++ rest) s) {e : Engine}
    (hsame : SameCommand s.eng e) (hin : e.inPos = s.eng.inPos + bytes.length) (hout : e.outPos = s.eng.outPos) :
    Progress s₀ R c q rest { s with eng := e } :=
  h.move hdec hsame hin (Nat.le_refl q) (by rw [hout, Nat.sub_self]; rfl) (fun _ _ => rfl) fun i hle hlt => by omega

/-- The decode stands where it stood, at another stage. -/
theorem Progress.toStage (hdec : s₀.eng.decoding) (h : Progress s₀ R c q bytes s) (st : Stage) :
    Progress s₀ R c q bytes (s.toStage st) := h.pass (bytes := []) hdec (SameCommand.refl _) rfl rfl

end

end Sys2Proof.Machine
end

section
/-! SUPPORT. The parts of a record, decoded: an escape chain, a run of literals, a repeat (42_decoder.md R236 to R242;
40_primitives.md R135, R136, R140, R141). -/

namespace Sys2Proof.Machine

/-! ## Escape chains -/

/-- The engine behind `k` bytes of an escape chain that add up to `u`. -/
def Engine.pastChain (e : Engine) (k u : Nat) : Engine :=
  { e with
    inPos := e.inPos + k
    recN := e.recN + (if e.stage = .nrChain then u else 0)
    recM := e.recM + (if e.stage = .nrChain then 0 else u) }

/-- What follows an escape chain: the literals of the record, or its repeat (42_decoder.md R236, R240). -/
def State.afterChain (s : State) : State := if s.eng.stage = .nrChain then s.literalBounds else s.repeatBody

theorem addEscape_eq_pastChain (s : State) (v : Nat) : s.addEscape v = { s with eng := s.eng.pastChain 1 v } := by
  unfold State.addEscape Engine.pastChain
  dsimp only
  split <;> simp_all

theorem escapeEnd_eq_afterChain (s : State) (v : Byte) :
    s.escapeEnd v = State.afterChain { s with eng := s.eng.pastChain 1 v.toNat } := by
  rw [← addEscape_eq_pastChain, State.escapeEnd, State.afterChain]
  obtain ⟨n, m, h⟩ := addEscape_eq s v.toNat
  rw [h]

theorem pastChain_pastChain (e : Engine) (j k u v : Nat) :
    (e.pastChain j u).pastChain k v = e.pastChain (j + k) (u + v) := by
  unfold Engine.pastChain
  dsimp only
  split <;> simp [Nat.add_assoc]

theorem escEncode_of_lt {u : Nat} (h : u < 255) : escEncode u = [BitVec.ofNat 8 u] := by
  simp [escEncode, Config.escByteMax, Nat.div_eq_of_lt h, Nat.mod_eq_of_lt h]

theorem escEncode_of_ge {u : Nat} (h : 255 ≤ u) : escEncode u = 255#8 :: escEncode (u - 255) := by
  have hdiv : u / 255 = (u - 255) / 255 + 1 := by omega
  have hmod : u % 255 = (u - 255) % 255 := by omega
  simp only [escEncode, Config.escByteMax, hdiv, hmod, List.replicate_succ, List.cons_append]

section
variable {s₀ s : State} {R : Nat → Byte} {c : BlockClass} {q fin : Nat} {bytes rest : List Byte}
  {G : State → Prop}

/-- The step at an escape byte. -/
theorem Progress.step_esc (hhost : s₀.host = []) (hexp : s.eng.expects = some .esc) {b : Byte}
    (h : Progress s₀ R c q (b :: rest) s) : step s = exec (decodeEsc b) s :=
  step_of_unread (bytes := [b]) (h.host hhost) h.phase hexp h.unread rfl rfl

/-- The chain that encodes `u` is read byte by byte, and adds `u` to the length it extends. -/
theorem Progress.reaches_of_chain (hdec : s₀.eng.decoding) (hhost : s₀.host = []) (u : Nat)
    (hexp : s.eng.expects = some .esc) (h : Progress s₀ R c q (escEncode u ++ rest) s)
    (hgoal : ∀ t, Progress s₀ R c q rest t → t.eng = s.eng.pastChain (escLen u) u → Reaches t.afterChain G) :
    Reaches s G := by
  induction u using Nat.strong_induction_on generalizing s with
  | _ u ih =>
    obtain hlt | hge := Nat.lt_or_ge u 255
    · rw [escEncode_of_lt hlt] at h
      have hval : (BitVec.ofNat 8 u).toNat = u := by rw [BitVec.toNat_ofNat]; omega
      have hne : BitVec.ofNat 8 u ≠ 255#8 := by
        rw [ne_eq, ← BitVec.toNat_inj, hval]
        exact Nat.ne_of_lt hlt
      have hstep := h.step_esc hhost hexp
      rw [decodeEsc, if_neg hne] at hstep
      refine Reaches.of_step hstep ?_
      rw [escapeEnd_eq_afterChain, hval]
      refine hgoal _ (h.pass hdec (SameCommand.refl _) rfl rfl) ?_
      rw [escLen, Config.escByteMax, Nat.div_eq_of_lt hlt]
    · rw [escEncode_of_ge hge] at h
      have hstep : step s = .next s.escapeCont := h.step_esc hhost hexp
      rw [State.escapeCont, addEscape_eq_pastChain] at hstep
      refine Reaches.of_step hstep (ih (u - 255) (by omega) hexp
        (h.pass (bytes := [255#8]) hdec (SameCommand.refl _) rfl rfl) fun t ht heng => hgoal t ht ?_)
      have hlen : 1 + escLen (u - 255) = escLen u := by simp only [escLen, Config.escByteMax]; omega
      rw [heng, pastChain_pastChain, hlen, Config.escByteMax, Nat.add_sub_cancel' hge]

/-! ## Literals -/

theorem slice_succ (R : Nat → Byte) (q n : Nat) : slice R q (n + 1) = R q :: slice R (q + 1) n := by
  simp [slice, List.range_succ_eq_map, Nat.add_assoc, Nat.add_comm 1]

theorem slice_length (R : Nat → Byte) (q n : Nat) : (slice R q n).length = n := by simp [slice]

/-- The record in progress is that of `e`: its repeat fields. -/
def SameRepeat (e f : Engine) : Prop := f.recM = e.recM ∧ f.recR = e.recR ∧ f.recOff = e.recOff

/-- The capacity bounds what is left of the region, and OUT. -/
theorem Progress.room (hcap : fin - s₀.eng.avail ≤ s₀.eng.capEff) (h : Progress s₀ R c q bytes s) (hq : q < fin) :
    s.eng.outPos < s₀.eng.outCap.toNat := by
  have hpos := h.outPos
  have : s₀.eng.capEff ≤ s₀.eng.outCap.toNat := Nat.min_le_left _ _
  omega

/-- A literal byte that is the region's next one extends what OUT holds. -/
theorem Progress.pastLiteral (hdec : s₀.eng.decoding) (hcap : fin - s₀.eng.avail ≤ s₀.eng.capEff) (hq : q < fin)
    (h : Progress s₀ R c q (R q :: rest) s) : Progress s₀ R c (q + 1) rest (s.pastLiteral (R q)) := by
  have hpos := h.outPos
  have hroom := h.room hcap hq
  have ⟨_, _, _, _, _, htop, _⟩ := hdec
  have ⟨_, _, hout, _⟩ := h.args
  have havail := avail_le_outAddr hdec
  have haddr : byteAddr s.eng.outAddr s.eng.outPos = s₀.eng.outAddr.toNat + s.eng.outPos := by
    rw [hout, byteAddr_of_no_wrap htop hroom]
  refine h.move (bytes := [R q]) hdec (SameCommand.refl _) rfl (Nat.le_succ q)
    (by simp only [Nat.add_sub_cancel_left]) (fun a ha => ?_) fun i hle hlt => ?_
  · exact Memory.read_write_other _ _ _ _ (by omega)
  · obtain rfl : i = q := by omega
    have hplace : s₀.eng.outAddr.toNat + i - s₀.eng.avail = byteAddr s.eng.outAddr s.eng.outPos := by omega
    rw [hplace, Memory.read_write_same]

/-- The step at a literal byte. -/
theorem Progress.step_lit (hhost : s₀.host = []) (hstage : s.eng.stage = .literal) {v : Byte}
    (h : Progress s₀ R c q (v :: rest) s) : step s = .next (s.literalByte v) := by
  have hexp : s.eng.expects = some .lit := by simp only [Engine.expects, hstage]
  exact step_of_unread (bytes := [v]) (i := .lit v) (h.host hhost) h.phase hexp h.unread rfl rfl

section
variable (hdec : s₀.eng.decoding) (hhost : s₀.host = []) (hcap : fin - s₀.eng.avail ≤ s₀.eng.capEff)
include hdec hhost hcap

/-- The literals of a record are copied one by one, and what follows them runs. -/
theorem Progress.reaches_of_literals (n : Nat) (hstage : s.eng.stage = .literal) (hn : s.eng.recN = n + 1)
    (hq : q + (n + 1) ≤ fin) (h : Progress s₀ R c q (slice R q (n + 1) ++ rest) s)
    (hgoal : ∀ t, Progress s₀ R c (q + (n + 1)) rest t → SameRepeat s.eng t.eng → Reaches t.afterLiterals G) :
    Reaches s G := by
  induction n generalizing s q with
  | zero =>
    rw [slice_succ] at h
    have hstep := h.step_lit hhost hstage
    refine Reaches.of_step hstep ?_
    rw [literalByte_of_last _ (by omega)]
    exact hgoal _ (h.pastLiteral (rest := rest) hdec hcap (by omega)) ⟨rfl, rfl, rfl⟩
  | succ n ih =>
    rw [slice_succ] at h
    have hstep := h.step_lit hhost hstage
    rw [literalByte_of_more _ (by omega)] at hstep
    refine Reaches.of_step hstep (ih hstage (by simp [State.pastLiteral, hn]) (by omega)
      (h.pastLiteral (rest := slice R (q + 1) (n + 1) ++ rest) hdec hcap (by omega)) fun t ht hsame => ?_)
    rw [Nat.add_assoc, Nat.add_comm 1] at ht
    exact hgoal t ht hsame

/-- Once their number is known, the literals are there and fit (R237), and they are copied. -/
theorem Progress.reaches_of_literalBounds (hq : q + s.eng.recN ≤ fin)
    (h : Progress s₀ R c q (slice R q s.eng.recN ++ rest) s)
    (hgoal : ∀ t, Progress s₀ R c (q + s.eng.recN) rest t → SameRepeat s.eng t.eng → Reaches t.afterLiterals G) :
    Reaches s.literalBounds G := by
  have hcursor := h.unread.cursor
  rw [List.length_append, slice_length] at hcursor
  have hpos := h.outPos
  have hcapEff : s.eng.capEff = s₀.eng.capEff := by
    obtain ⟨-, -, -, -, -, -, hcap, -⟩ := h.args
    rw [Engine.capEff, hcap]; rfl
  obtain ⟨hin, -⟩ | ⟨-, hout, -⟩ | ⟨hzero, hgo⟩ | ⟨-, -, hne, hgo⟩ := literalBounds_cases s
  · simp only [Engine.inLeft] at hin; omega
  · omega
  · rw [hgo]
    rw [hzero] at h hgoal
    exact hgoal s h ⟨rfl, rfl, rfl⟩
  · rw [hgo]
    obtain ⟨n, hn⟩ := Nat.exists_eq_succ_of_ne_zero hne
    rw [hn] at h hq hgoal
    exact Progress.reaches_of_literals hdec hhost hcap n rfl hn hq (h.toStage hdec .literal) hgoal

end

/-! ## Repeats -/

/-- The copy of a repeat extends what OUT holds by the region's next bytes, which repeat those `off` before. -/
theorem Progress.reaches_of_repeatBody (hdec : s₀.eng.decoding) (hcap : fin - s₀.eng.avail ≤ s₀.eng.capEff)
    (h : Progress s₀ R c q rest s) (hpos : 0 < s.eng.recOff) (hoff : s.eng.recOff ≤ q) (hq : q + s.eng.recM ≤ fin)
    (hrep : ∀ j, j < s.eng.recM → R (q + j) = R (q - s.eng.recOff + j))
    (hgoal : ∀ t, Progress s₀ R c (q + s.eng.recM) rest t → t.eng.stage = .tag → Reaches t G) :
    Reaches s.repeatBody G := by
  have hout := h.outPos
  have ⟨hop, _, houtAddr, _, _, _, houtCap, _, hdictLen⟩ := h.args
  have hcapEff : s.eng.capEff = s₀.eng.capEff := by rw [Engine.capEff, houtCap]; rfl
  have hcapOut : s₀.eng.capEff ≤ s₀.eng.outCap.toNat := Nat.min_le_left _ _
  have havailEq : s.eng.avail = s₀.eng.avail := by simp only [Engine.avail, hop, hdictLen]
  have havail := avail_le_outAddr hdec
  have ⟨_, _, _, _, _, htop, _⟩ := hdec
  rw [repeatBody_of_checks (by omega) (by omega), houtAddr]
  have hdst (k : Nat) (hk : k < s.eng.recM) :
      byteAddr (s₀.eng.outAddr + BitVec.ofNat 64 s.eng.outPos) k = s₀.eng.outAddr.toNat + s.eng.outPos + k :=
    byteAddr_from (by omega)
  have hsrc (k : Nat) (hk : k < s.eng.recM) :
      byteAddr (s₀.eng.outAddr + BitVec.ofNat 64 s.eng.outPos - BitVec.ofNat 64 s.eng.recOff) k + s.eng.recOff =
        s₀.eng.outAddr.toNat + s.eng.outPos + k :=
    byteAddr_from_sub (by omega) (by omega)
  refine hgoal _ (h.move (bytes := []) hdec (SameCommand.refl _) rfl (Nat.le_add_right _ _)
    (by simp only [Nat.add_sub_cancel_left]) (fun a ha => read_copy_outside hdst (by omega)) ?_) rfl
  -- every new byte is the one `off` before it, which is old, or new and nearer to the start
  intro i
  induction i using Nat.strong_induction_on with
  | _ i ih =>
    intro hle hlt
    have hcopy := read_copy_replicates (m := s.mem) hdst hpos hsrc (j := i - q) (by omega)
    have hhere : s₀.eng.outAddr.toNat + s.eng.outPos + (i - q) = s₀.eng.outAddr.toNat + i - s₀.eng.avail := by omega
    have hthere : s₀.eng.outAddr.toNat + s.eng.outPos + (i - q) - s.eng.recOff =
        s₀.eng.outAddr.toNat + (i - s.eng.recOff) - s₀.eng.avail := by omega
    have hregion := hrep (i - q) (by omega)
    rw [Nat.add_sub_cancel' hle, show q - s.eng.recOff + (i - q) = i - s.eng.recOff by omega] at hregion
    rw [hhere] at hcopy
    rw [hcopy, ← hhere, hthere, hregion]
    obtain hnew | hold := Nat.lt_or_ge (i - s.eng.recOff) q
    · rw [read_copy_outside hdst (by omega)]
      exact h.produced _ hnew
    · exact ih _ (by omega) hold (by omega)

end

end Sys2Proof.Machine
end

section
/-! Decoding the emitted block of a valid parse gives the region back (41_encoder.md R178, R179, R197, R198;
42_decoder.md R232 to R245): the decoder is followed along the block, record by record. -/

namespace Sys2Proof.Machine

/-! ## The parts of an emitted record -/

/-- The literal-length chain of a record (41_encoder.md R197). -/
def literalChain (c : BlockClass) (n : Nat) : List Byte :=
  if mask (classParams c).nrLog2 ≤ n then escEncode (n - mask (classParams c).nrLog2) else []

/-- The repeat-length chain of a record (R197). -/
def repeatChain (c : BlockClass) (r : ParseRecord) : List Byte :=
  if r.off ≠ 0 ∧ mask (classParams c).rLog2 ≤ r.m - Config.repeatMin then
    escEncode (r.m - Config.repeatMin - mask (classParams c).rLog2) else []

/-- The r_field of a record's tag (R197). -/
def repeatField (c : BlockClass) (r : ParseRecord) : Nat :=
  if r.off = 0 then 0 else min (r.m - Config.repeatMin) (mask (classParams c).rLog2)

/-- A record is its tag, its literal-length chain, its literals and its repeat-length chain. -/
theorem emitRecord_eq (c : BlockClass) (r : ParseRecord) (lits : List Byte) :
    emitRecord c r lits = packTagBytes c (min r.n (mask (classParams c).nrLog2)) (repeatField c r) r.off ++
      (literalChain c r.n ++ (lits ++ repeatChain c r)) := by
  simp only [emitRecord, literalChain, repeatChain, repeatField, List.append_assoc]

theorem min_mask_lt (n k : Nat) : min n (mask k) < 2 ^ k := by
  have := Nat.two_pow_pos k
  simp only [mask]
  omega

/-- The tag of a record whose offset fits its field decodes to the record's fields (40_primitives.md R134, R138). -/
theorem decode_recordTag (c : BlockClass) {r : ParseRecord} (hoff : r.off ≤ mask (classParams c).offLog2) :
    ∃ i, decode (.tag c) (packTagBytes c (min r.n (mask (classParams c).nrLog2)) (repeatField c r) r.off) =
        .ok (i, []) ∧
      tagFields i = some (c, min r.n (mask (classParams c).nrLog2), repeatField c r, r.off) := by
  have hrf : repeatField c r < 2 ^ (classParams c).rLog2 := by
    unfold repeatField
    split
    · exact Nat.two_pow_pos _
    · exact min_mask_lt _ _
  have hoff' : r.off < 2 ^ (classParams c).offLog2 := by
    rw [← Nat.min_eq_left hoff]
    exact min_mask_lt _ _
  exact (packedTagUnpacks c _ _ _ (min_mask_lt _ _) hrf hoff').2.2

/-! ## Records -/

section
variable {s₀ s : State} {R : Nat → Byte} {c : BlockClass} {q fin : Nat} {bytes rest : List Byte}
  {G : State → Prop}

/-- The engine holds the tag fields of the record `r` of class `c`, whose repeat-length chain is not read yet. -/
def HoldsRepeat (c : BlockClass) (r : ParseRecord) (e : Engine) : Prop :=
  e.recM = repeatField c r + Config.repeatMin ∧ e.recR = repeatField c r ∧ e.recOff = r.off

theorem HoldsRepeat.of_same {r : ParseRecord} {e f : Engine} (h : HoldsRepeat c r e) (hsame : SameRepeat e f) :
    HoldsRepeat c r f := by
  obtain ⟨hm, hr, hoff⟩ := hsame
  simpa only [HoldsRepeat, hm, hr, hoff] using h

/-- The step at a tag. -/
theorem Progress.step_tag (hhost : s₀.host = []) (hstage : s.eng.stage = .tag) {r : ParseRecord}
    (hoff : r.off ≤ mask (classParams c).offLog2)
    (h : Progress s₀ R c q
      (packTagBytes c (min r.n (mask (classParams c).nrLog2)) (repeatField c r) r.off ++ rest) s) :
    step s = .next (s.tagRecord (min r.n (mask (classParams c).nrLog2)) (repeatField c r) r.off) := by
  obtain ⟨i, hdecode, hfields⟩ := decode_recordTag c hoff
  rw [← exec_tagFields hfields]
  exact step_of_unread (h.host hhost) h.phase (by simp only [Engine.expects, hstage, h.cls]) h.unread rfl hdecode

/-- A tag opens the literal-length chain exactly where its nr_field is at the maximum (42_decoder.md R236). -/
theorem tagRecord_eq_ite (s : State) (nf rf off : Nat) :
    s.tagRecord nf rf off = if nf = mask s.eng.nrLog2 then
      ({ s with eng := s.eng.pastTag nf rf off } : State).toStage .nrChain
    else ({ s with eng := s.eng.pastTag nf rf off } : State).literalBounds := rfl

/-- What the run of a decode comes to: it completes with the length of `R[avail, fin)`, and OUT holds these bytes. -/
def ReturnsRegion (s₀ : State) (R : Nat → Byte) (fin : Nat) (t : State) : Prop :=
  EndedWith s₀ t (BitVec.ofNat 32 (fin - s₀.eng.avail)) 0 0 ∧
  ∀ i, i < fin - s₀.eng.avail → t.mem.read (byteAddr s₀.eng.outAddr i) = R (s₀.eng.avail + i)

/-- A decode that is done has returned what it has produced (R245, R250). -/
theorem Progress.returnsRegion (hdec : s₀.eng.decoding) (hcap : fin - s₀.eng.avail ≤ s₀.eng.capEff)
    (h : Progress s₀ R c fin bytes s) : ReturnsRegion s₀ R fin s.decodeDone := by
  have hpos := h.outPos
  have hlen : s.eng.outPos = fin - s₀.eng.avail := by omega
  have ⟨_, _, _, _, _, htop, _⟩ := hdec
  have ⟨_, _, hout, _⟩ := h.args
  have hcapOut : s₀.eng.capEff ≤ s₀.eng.outCap.toNat := Nat.min_le_left _ _
  refine ⟨⟨?_, rfl, h.surroundings⟩, fun i hi => ?_⟩
  · rw [State.decodeDone_regs, h.regs, hlen]; rfl
  · rw [byteAddr_of_no_wrap htop (by omega), State.decodeDone_mem, Memory.read_havoc, hout, if_neg (by omega)]
    have hplace := h.produced (s₀.eng.avail + i) (by omega)
    rwa [← Nat.add_assoc, Nat.add_right_comm, Nat.add_sub_cancel] at hplace

section
variable (hdec : s₀.eng.decoding) (hhost : s₀.host = []) (hcap : fin - s₀.eng.avail ≤ s₀.eng.capEff)
include hdec hhost hcap

/-- A record is read up to its repeat: its tag, its literal-length chain and its literals. -/
theorem Progress.reaches_of_record (hstage : s.eng.stage = .tag) {r : ParseRecord}
    (hoff : r.off ≤ mask (classParams c).offLog2) (hq : q + r.n ≤ fin)
    (h : Progress s₀ R c q (emitRecord c r (slice R q r.n) ++ rest) s)
    (hgoal : ∀ t, Progress s₀ R c (q + r.n) (repeatChain c r ++ rest) t → HoldsRepeat c r t.eng →
      Reaches t.afterLiterals G) : Reaches s G := by
  rw [emitRecord_eq, List.append_assoc] at h
  refine Reaches.of_step (h.step_tag hhost hstage hoff) ?_
  have hnr : s.eng.nrLog2 = (classParams c).nrLog2 := h.widths.1.trans (by rw [h.cls])
  have hpast := h.pass (e := s.eng.pastTag (min r.n (mask (classParams c).nrLog2)) (repeatField c r) r.off)
    hdec (SameCommand.refl _) rfl rfl
  rw [tagRecord_eq_ite, hnr]
  unfold literalChain at hpast
  obtain hbelow | hfull := Nat.lt_or_ge r.n (mask (classParams c).nrLog2)
  · rw [if_neg (Nat.not_le_of_lt hbelow), Nat.min_eq_left hbelow.le, List.nil_append, List.append_assoc] at hpast
    rw [Nat.min_eq_left hbelow.le, if_neg hbelow.ne]
    exact hpast.reaches_of_literalBounds hdec hhost hcap hq fun t ht hsame =>
      hgoal t ht (HoldsRepeat.of_same ⟨rfl, rfl, rfl⟩ hsame)
  · rw [if_pos hfull, Nat.min_eq_right hfull, List.append_assoc, List.append_assoc] at hpast
    rw [Nat.min_eq_right hfull, if_pos rfl]
    refine (hpast.toStage hdec .nrChain).reaches_of_chain hdec hhost _ rfl fun t ht heng => ?_
    have hn : t.eng.recN = r.n := by
      rw [heng]
      exact Nat.add_sub_cancel' hfull
    rw [State.afterChain, if_pos (by rw [heng]; rfl)]
    refine Progress.reaches_of_literalBounds hdec hhost hcap (hn ▸ hq) (hn.symm ▸ ht) fun u hu hsame => ?_
    rw [hn] at hu
    refine hgoal u hu (HoldsRepeat.of_same ?_ hsame)
    rw [heng]
    exact ⟨rfl, rfl, rfl⟩

/-- After the literals of a valid repeat record come its repeat-length chain and the copy of its repeat. -/
theorem Progress.reaches_of_repeat {r : ParseRecord} (hvalid : validRecord R c q r = true)
    (hq : q + r.n + r.m ≤ fin) (h : Progress s₀ R c (q + r.n) (repeatChain c r ++ rest) s)
    (hholds : HoldsRepeat c r s.eng)
    (hgoal : ∀ t, Progress s₀ R c (q + r.n + r.m) rest t → t.eng.stage = .tag → Reaches t G) :
    Reaches s.afterLiterals G := by
  obtain ⟨hmin, hpos, hreach, -, hrep⟩ := validRecord_iff.mp hvalid
  have hmin' : Config.repeatMin ≤ r.m := hmin
  obtain ⟨hrecM, hrecR, hrecOff⟩ := hholds
  have hoff : r.off ≠ 0 := Nat.ne_of_gt hpos
  have hbody {t : State} (ht : Progress s₀ R c (q + r.n) rest t) (hm : t.eng.recM = r.m)
      (ho : t.eng.recOff = r.off) : Reaches t.repeatBody G := by
    refine ht.reaches_of_repeatBody hdec hcap (ho ▸ hpos) (ho ▸ hreach) (hm ▸ hq) ?_ ?_
    · rw [hm, ho]; exact hrep
    · rw [hm]; exact hgoal
  have hrLog2 : s.eng.rLog2 = (classParams c).rLog2 := by
    obtain ⟨-, -, hr⟩ := h.widths
    rw [hr, h.cls]
  rw [repeatField, if_neg hoff] at hrecM hrecR
  unfold repeatChain at h
  rw [State.afterLiterals, if_neg (hrecOff ▸ hoff), hrLog2, hrecR]
  obtain hbelow | hfull := Nat.lt_or_ge (r.m - Config.repeatMin) (mask (classParams c).rLog2)
  · rw [if_neg fun hchain => Nat.not_le_of_lt hbelow hchain.2] at h
    rw [Nat.min_eq_left hbelow.le] at hrecM ⊢
    rw [if_neg hbelow.ne]
    exact hbody h (hrecM.trans (Nat.sub_add_cancel hmin')) hrecOff
  · rw [if_pos ⟨hoff, hfull⟩] at h
    rw [Nat.min_eq_right hfull] at hrecM ⊢
    rw [if_pos rfl]
    refine (h.toStage hdec .rChain).reaches_of_chain hdec hhost _ rfl fun t ht heng => ?_
    have hstage : t.eng.stage = .rChain := by rw [heng]; rfl
    have hm : t.eng.recM = s.eng.recM + (r.m - Config.repeatMin - mask (classParams c).rLog2) := by rw [heng]; rfl
    rw [State.afterChain, if_neg (by rw [hstage]; decide)]
    exact hbody ht (by omega) (by rw [heng]; exact hrecOff)

/-- The records of a valid parse are read one after the other, and the terminal record ends the command. -/
theorem Progress.reaches_of_records {P : List ParseRecord} (hvalid : validParse R c fin q P = true)
    (hstage : s.eng.stage = .tag) (h : Progress s₀ R c q (emitRecords c R q P) s) :
    Reaches s (ReturnsRegion s₀ R fin) := by
  induction P generalizing s q with
  | nil => cases hvalid
  | cons r rest ih =>
    cases rest with
    | nil =>
      obtain ⟨hoff, -, hn⟩ := validParse_terminal_iff.mp hvalid
      have hchain : repeatChain c r = [] := if_neg fun hrep => hrep.1 hoff
      refine Progress.reaches_of_record (rest := []) hdec hhost hcap hstage (by omega) hn.le h
        fun t ht ⟨_, hrecR, hrecOff⟩ => ?_
      rw [hchain, hn] at ht
      have hend : t.eng.inPos = t.eng.inLen.toNat := ht.unread.cursor
      rw [repeatField, if_pos hoff] at hrecR
      rw [State.afterLiterals, if_pos (hrecOff.trans hoff), State.terminal,
        if_neg (not_not.mpr hrecR), if_neg (not_not.mpr hend)]
      exact ⟨0, _, rfl, ht.returnsRegion hdec hcap⟩
    | cons next rest =>
      obtain ⟨hrec, hrest⟩ := validParse_cons_iff.mp hvalid
      have hq := validParse_le hrest
      obtain ⟨-, -, -, hoff, -⟩ := validRecord_iff.mp hrec
      exact h.reaches_of_record hdec hhost hcap hstage hoff (by omega) fun t ht hholds =>
        ht.reaches_of_repeat hdec hhost hcap hrec hq hholds fun u hu hu' => ih hrest hu' hu

end

end

/-- The class byte of a class selects it (30_encoding.md R93). -/
theorem exec_class_of_toNat (c : BlockClass) (s : State) :
    exec (decodeClass (BitVec.ofNat 8 c.toNat)) s = .next (s.selectClass c) := by
  cases c <;> rfl

/-- Settles O60: the class byte is read, then the records (`Progress.reaches_of_records`). -/
theorem decodeInvertsEmit : Obligations.DecodeInvertsEmit := by
  intro s R c fin P block hinv ⟨hrun, hhost⟩ hstage hvalid hblock hdict hlen hin hcap
  subst hblock
  have hsound := hinv hrun
  simp only [Engine.sound, hstage] at hsound
  obtain ⟨hdec, hinPos, -⟩ := hsound
  have hunread : Unread s ([BitVec.ofNat 8 c.toNat] ++ emitRecords c R s.eng.avail P) :=
    ⟨by rw [hinPos, hlen, Nat.zero_add]; rfl, fun i hi => by rw [hinPos, Nat.zero_add]; exact hin i hi⟩
  have hexp : s.eng.expects = some .classByte := by simp only [Engine.expects, hstage]
  have hstep := (step_of_unread hhost hrun hexp hunread rfl rfl).trans (exec_class_of_toNat c s)
  refine Reaches.of_step hstep (Progress.reaches_of_records hdec hhost hcap hvalid rfl
    { regs := rfl, surroundings := SameSurroundings.refl s, args := SameArgs.refl _, phase := hrun, cls := rfl,
      widths := ⟨rfl, rfl, rfl⟩, unread := ?_, outPos := rfl, produced := fun i hi => ?_ })
  · exact hunread.advance (SameArgs.refl _) (by rw [hinPos]; rfl) fun _ _ => rfl
  · rw [← byteAddr_dictAddr hdec hi]
    exact hdict i hi

end Sys2Proof.Machine
end

section
/-! SUPPORT. The scan region of a running encode (41_encoder.md R178, R205): where its bytes stand, and that STATE and
the host's writes leave them alone. -/

namespace Sys2Proof.Machine

/-- The address of byte `i` of the scan region. -/
def Engine.scanAddr (e : Engine) (i : Nat) : Nat :=
  if e.op = opUpdate then byteAddr e.dictAddr i
  else if i < e.scanDict then byteAddr e.dictAddr i
  else byteAddr e.inAddr (i - e.scanDict)

theorem scanByte_eq_read (s : State) (i : Nat) : s.scanByte i = s.mem.read (s.eng.scanAddr i) := by
  unfold State.scanByte Engine.scanAddr
  split
  · rfl
  · split <;> rfl

theorem SameArgs.scan_eq {e f : Engine} (h : SameArgs e f) :
    f.scanAddr = e.scanAddr ∧ f.scanStart = e.scanStart ∧ f.scanEnd = e.scanEnd := by
  obtain ⟨hop, hin, -, -, hdict, hinLen, -, -, hdictLen⟩ := h
  refine ⟨funext fun i => ?_, ?_, ?_⟩
  · simp only [Engine.scanAddr, Engine.scanDict, hop, hin, hdict, hdictLen]
    rfl
  · simp only [Engine.scanStart, Engine.scanDict, hop, hdictLen]
  · simp only [Engine.scanEnd, Engine.scanDict, hop, hinLen, hdictLen]

/-- The scan begins within its region. -/
theorem scanStart_le_scanEnd {e : Engine} (h : e.op ≠ opUpdate) : e.scanStart ≤ e.scanEnd := by
  rw [Engine.scanEnd, if_neg h]
  exact Nat.le_add_right _ _

theorem spanHolds_byteAddr {base : Addr} {len i : Nat} (htop : base.toNat + len ≤ 2 ^ 64) (hi : i < len) :
    spanHolds ⟨base.toNat, len⟩ (byteAddr base i) = true := by
  rw [spanHolds_iff, byteAddr_of_no_wrap htop hi]
  exact ⟨Nat.le_add_right _ _, Nat.add_lt_add_left hi _⟩

/-- A byte of an encode's scan region stands in DICT or IN, and not in STATE. -/
theorem scanAddr_held {e : Engine} (henc : e.encoding) (hne : e.op ≠ opUpdate) {i : Nat} (hi : i < e.scanEnd) :
    ∃ r ∈ e.regions, spanHolds r (e.scanAddr i) = true ∧ spanMeets r e.stateSpan = false := by
  obtain ⟨hop, -, -, hdictTop, hencode, hmeet⟩ := henc
  obtain ⟨-, -, -, -, hinTop, -⟩ := hencode hne
  have huse : usesIn e.op = true ∧ usesState e.op = true := by
    obtain h | h | h := hop
    · rw [h]; decide
    · exact absurd h hne
    · rw [h]; decide
  obtain ⟨hdictApart, hinApart⟩ := stateSpan_apart hmeet huse.2
  rw [Engine.scanEnd, if_neg hne] at hi
  rw [Engine.scanAddr, if_neg hne]
  split
  next hlt =>
    unfold Engine.scanDict at hlt
    split at hlt
    next hdelta =>
      have hdict : usesDict e.op = true := by rw [hdelta]; decide
      refine ⟨e.dictSpan, by simp [Engine.regions, hdict], spanHolds_byteAddr (hdictTop ?_) hlt, hdictApart hdict⟩
      rw [hdelta]; decide
    next => omega
  next hge =>
    exact ⟨e.inSpan, by simp [Engine.regions, huse.1], spanHolds_byteAddr hinTop (by omega), hinApart huse.1⟩

/-- What leaves every byte outside STATE alone leaves the scan region of an encode alone. -/
theorem scanByte_eq_of_sameOutside {s t : State} (henc : s.eng.encoding) (hne : s.eng.op ≠ opUpdate)
    (hargs : SameArgs s.eng t.eng) (hmem : SameOutside [s.eng.stateSpan] s t) (i : Nat) (hi : i < s.eng.scanEnd) :
    t.scanByte i = s.scanByte i := by
  obtain ⟨r, -, hheld, hapart⟩ := scanAddr_held henc hne hi
  rw [scanByte_eq_read, scanByte_eq_read, hargs.scan_eq.1]
  refine hmem _ fun q hq => ?_
  rw [List.mem_singleton.mp hq]
  exact not_spanHolds_of_apart hapart hheld

/-! ## What a scan step writes -/

theorem havocTable_sameOutside (s : State) : SameOutside [s.eng.stateSpan] s s.havocTable := by
  intro a ha
  have hoff : ¬spanHolds s.eng.stateSpan a = true := by simp [ha _ (List.mem_singleton_self _)]
  rw [spanHolds_iff] at hoff
  exact (Memory.read_havoc _ _ _ _ _).trans (if_neg hoff)

/-- A scan step writes STATE alone (41_encoder.md R185, R191). -/
theorem scanStep_sameOutside {s : State} (henc : s.eng.encoding) : SameOutside [s.eng.stateSpan] s s.scanStep := by
  obtain ⟨-, htop, -⟩ := henc
  have hcovers : Covers (fun a => spanHolds s.eng.stateSpan a = true) s.eng.stateAddr Config.stateMinSize :=
    covers_of_no_wrap htop fun a hlo hhi => (spanHolds_iff _ a).mpr ⟨hlo, hhi⟩
  intro a ha
  refine (scanStep_edited hcovers).read_eq ?_
  simp [ha _ (List.mem_singleton_self _)]

end Sys2Proof.Machine
end

section
/-! The parse in progress stays valid, whatever the table holds and the host does (41_encoder.md R178, R179, R192). -/

namespace Sys2Proof.Machine

/-! ## The scan -/

/-- The parse of a scanning encode is valid up to the pending literal run. -/
def ScanInv (s : State) : Prop :=
  validRecords s.scanByte s.eng.cls s.eng.lit s.eng.scanStart s.eng.parse ∧ s.eng.lit ≤ s.eng.p ∧
  s.eng.lit ≤ s.eng.scanEnd

/-- The parse of an emitting encode is valid. -/
def EmitInv (s : State) : Prop :=
  validParse s.scanByte s.eng.cls s.eng.scanEnd s.eng.scanStart s.eng.parse = true

theorem parseInv_of_idle {s : State} (h : s.eng.phase = .idle) : ParseInv s := by
  intro hrun
  rw [h] at hrun
  cases hrun

theorem parseInv_of_update {s : State} (h : s.eng.op = opUpdate) : ParseInv s := fun _ hne => absurd h hne

theorem parseInv_of_scan {s : State} (hstage : s.eng.stage = .scan) (h : ScanInv s) : ParseInv s :=
  fun _ _ => ⟨fun _ => h, fun hemit => absurd (hstage.symm.trans hemit) (by decide)⟩

theorem parseInv_of_emit {s : State} (hstage : s.eng.stage = .emit) (h : EmitInv s) : ParseInv s :=
  fun _ _ => ⟨fun hscan => absurd (hstage.symm.trans hscan) (by decide), fun _ => h⟩

/-- Only the engine and the scan region count. -/
theorem ParseInv.of_sameRegion {s t : State} (h : ParseInv s) (heng : t.eng = s.eng)
    (hR : s.eng.phase = .run → s.eng.op ≠ opUpdate → s.eng.stage = .scan ∨ s.eng.stage = .emit →
      ∀ i, i < s.eng.scanEnd → t.scanByte i = s.scanByte i) : ParseInv t := by
  intro hrun hop
  rw [heng] at hrun hop
  obtain ⟨hscan, hemit⟩ := h hrun hop
  rw [heng]
  refine ⟨fun hstage => ?_, fun hstage => ?_⟩
  · obtain ⟨hrecords, hp, hend⟩ := hscan hstage
    exact ⟨validRecords_congr (fun i hi => hR hrun hop (.inl hstage) i (by omega)) hrecords, hp, hend⟩
  · exact validParse_congr (hR hrun hop (.inr hstage)) (hemit hstage)

/-- A scan that ends with a valid parse ends the command, or emits it. -/
theorem parseInv_scanDone {s : State} {P : List ParseRecord}
    (h : s.eng.op ≠ opUpdate → validParse s.scanByte s.eng.cls s.eng.scanEnd s.eng.scanStart P = true) :
    ParseInv (s.scanDone P) := by
  obtain ⟨-, hdone⟩ | ⟨hop, hdone⟩ := scanDone_cases s P <;> rw [hdone]
  · exact parseInv_of_idle rfl
  · exact parseInv_of_emit rfl (h hop)

/-- A probe that takes its candidate adds a valid record (R192 to R195). -/
theorem scanInv_takeMatch {s t : State} {cand : Nat} (henc : s.eng.encoding) (hne : s.eng.op ≠ opUpdate)
    (hinv : ScanInv s) (hprobe : s.eng.p + 6 ≤ s.eng.scanEnd) (hcand : cand < s.eng.p)
    (hsame : same4 s.scanByte cand s.eng.p = true)
    (heng : t.eng = s.eng.takeMatch s.scanByte cand s.eng.scanEnd)
    (hR : ∀ i, i < s.eng.scanEnd → t.scanByte i = s.scanByte i) : ScanInv t := by
  obtain ⟨hrecords, hlit, -⟩ := hinv
  obtain ⟨-, -, -, -, hencode, -⟩ := henc
  obtain ⟨hcls, -⟩ := hencode hne
  obtain ⟨c', p', hback, hlit', hle, hvalid⟩ := validRecord_of_candidate hcand hlit hsame (by omega)
    (le_two_pow_offLog2_of_classOf hcls)
  have hgrown := validRecords_append hrecords hvalid
  rw [Nat.add_sub_cancel' hlit'] at hgrown
  simp only [ScanInv, heng, Engine.takeMatch, hback]
  exact ⟨validRecords_congr (fun i hi => hR i (by omega)) hgrown, Nat.le_refl _, hle⟩

/-- A scan keeps the latched arguments. -/
theorem scanDone_sameArgs (s : State) (P : List ParseRecord) : SameArgs s.eng (s.scanDone P).eng := by
  obtain ⟨-, h⟩ | ⟨-, h⟩ := scanDone_cases s P <;> rw [h] <;> exact SameArgs.refl _

theorem scanStep_sameArgs (s : State) : SameArgs s.eng s.scanStep.eng := by
  unfold State.scanStep
  split
  · exact scanDone_sameArgs _ _
  · obtain ⟨-, e, h, ⟨-, -, rfl⟩ | rfl⟩ | ⟨-, h⟩ := scanReference_cases s <;> rw [h]
    · exact SameArgs.refl s.eng
    · exact SameArgs.refl s.eng
    · exact scanDone_sameArgs _ _

/-- A scan step keeps the parse valid: under ANY the draw is a valid parse, and a probe of the reference finder adds a
valid record, adds none, or finds the end and closes the parse (R179, R192 to R196). -/
theorem scanStep_keeps_parseInv {s : State} (hrun : s.eng.phase = .run) (hstage : s.eng.stage = .scan)
    (henc : s.eng.encoding) (h : ParseInv s) : ParseInv s.scanStep := by
  by_cases hne : s.eng.op = opUpdate
  · exact parseInv_of_update ((scanStep_sameArgs s).1.trans hne)
  have hinv : ScanInv s := (h hrun hne).1 hstage
  have hR := scanByte_eq_of_sameOutside henc hne (scanStep_sameArgs s) (scanStep_sameOutside henc)
  unfold State.scanStep at hR ⊢
  split
  next =>
    have hopened : SameOutside [s.eng.stateSpan] s ({ s with draws := s.draws + 1 } : State).havocTable :=
      havocTable_sameOutside { s with draws := s.draws + 1 }
    exact parseInv_scanDone fun _ =>
      validParse_congr (scanByte_eq_of_sameOutside (s := s) henc hne (SameArgs.refl _) hopened)
        (chooseParse_valid _ _ _ _ _ (scanStart_le_scanEnd hne))
  next href =>
    simp only [href] at hR
    obtain ⟨hprobe, e, hstep, hcase⟩ | ⟨-, hstep⟩ := scanReference_cases s <;> rw [hstep] at hR ⊢
    · obtain ⟨hcand, hsame, rfl⟩ | rfl := hcase
      · exact parseInv_of_scan hstage (scanInv_takeMatch henc hne hinv hprobe hcand hsame rfl hR)
      · obtain ⟨hrecords, hlit, hend⟩ := hinv
        exact parseInv_of_scan hstage ⟨validRecords_congr (fun i hi => hR i (Nat.lt_of_lt_of_le hi hend)) hrecords,
          hlit.trans (Nat.le_add_right _ _), hend⟩
    · obtain ⟨hrecords, -, hend⟩ := hinv
      exact parseInv_scanDone fun _ => validParse_of_validRecords hrecords hend

/-! ## The engine -/

/-- The engine is idle, or runs a decode's stage. -/
def Engine.OffEncoder (e : Engine) : Prop := e.phase = .idle ∨ (e.stage ≠ .scan ∧ e.stage ≠ .emit)

theorem parseInv_of_offEncoder {s : State} (h : s.eng.OffEncoder) : ParseInv s := by
  obtain hidle | ⟨hscan, hemit⟩ := h
  · exact parseInv_of_idle hidle
  · exact fun _ _ => ⟨fun hstage => absurd hstage hscan, fun hstage => absurd hstage hemit⟩

theorem RecordOutcome.offEncoder {s t : State} (h : RecordOutcome s t) : t.eng.OffEncoder := by
  cases h with
  | failed | done => exact .inl rfl
  | literals | repeatChain | repeated => exact .inr ⟨by simp, by simp⟩

/-- A stream instruction leads to a stage of the decoder, or ends the command. -/
theorem exec_stream_offEncoder {s t : State} {i : Instr} (hfmt : i.format ≠ .cmd) (hs : s.eng.OffEncoder)
    (h : exec i s = .next t) : t.eng.OffEncoder := by
  cases hf : i.format with
  | cmd => exact absurd hf hfmt
  | classByte =>
    obtain ⟨c, he⟩ | he := exec_classByte hf s <;> rw [he] at h <;> cases h
    · exact .inr ⟨by simp, by simp⟩
    · exact .inl rfl
  | tag c =>
    obtain ⟨nf, rf, off, he⟩ := exec_tag hf s
    rw [he] at h; cases h
    obtain htag | htag := tagRecord_cases s nf rf off <;> rw [htag]
    · exact .inr ⟨by simp, by simp⟩
    · exact (literalBounds_outcome _).offEncoder
  | esc =>
    obtain he | ⟨v, he⟩ := exec_esc hf s <;> rw [he] at h <;> cases h
    · rw [State.escapeCont, addEscape_eq_pastChain]; exact hs
    · obtain ⟨n, m, hend⟩ := escapeEnd_outcome s v
      exact hend.offEncoder
  | lit =>
    obtain ⟨v, he⟩ := exec_lit hf s
    rw [he] at h; cases h
    obtain ⟨-, hlit⟩ | hlit := literalByte_cases s v
    · rw [hlit]; exact hs
    · exact hlit.offEncoder

theorem decoderStep_offEncoder {s t : State} (hs : s.eng.OffEncoder) (h : decoderStep s = .next t) :
    t.eng.OffEncoder := by
  obtain ⟨i, hi, he⟩ | ⟨c, -, he⟩ | ⟨-, he⟩ | ⟨-, he⟩ := decoderStep_cases s <;> rw [he] at h
  · obtain ⟨f, hf, rfl, -⟩ := fetch_instr hi
    exact exec_stream_offEncoder (expects_ne_cmd hf) hs h
  · cases h; exact .inl rfl
  · cases h; exact .inl rfl
  · cases h

theorem engineStep_keeps_parseInv {s t : State} (hsound : EngineInv s) (h : ParseInv s)
    (hstep : engineStep s = .next t) : ParseInv t := by
  obtain ⟨-, he⟩ | ⟨-, -, he⟩ | ⟨hrun, hstage, he⟩ | ⟨-, -, he⟩ | ⟨-, hstage, he⟩ := engineStep_cases s <;>
    rw [he] at hstep
  · cases hstep; exact h
  · cases hstep
  · cases hstep
    have hs := hsound hrun
    simp only [Engine.sound, hstage] at hs
    exact scanStep_keeps_parseInv hrun hstage hs.1 h
  · cases hstep; exact parseInv_of_idle (emitStep_idle s)
  · refine parseInv_of_offEncoder (decoderStep_offEncoder (.inr ⟨?_, ?_⟩) hstep) <;>
      intro hencoder <;> simp [hencoder] at hstage

/-! ## Commands -/

/-- A scan begins with nothing found and nothing pending (R191). -/
theorem parseInv_startEncode {s : State} (c : BlockClass) (clear : Bool) : ParseInv (s.startEncode c clear) := by
  intro _ hne
  refine ⟨fun _ => ⟨rfl, Nat.le_refl _, ?_⟩, fun hemit => absurd hemit (by simp [Engine.startScan])⟩
  exact scanStart_le_scanEnd (e := s.eng) hne

theorem runDecode_parseInv {s t : State} {args : Option Cause} (h : runDecode s args = .next t) : ParseInv t := by
  obtain ⟨c, -, he⟩ | ⟨-, -, he⟩ | ⟨r, -, -, he⟩ := runDecode_cases s args <;> rw [he] at h <;> cases h
  · exact parseInv_of_idle rfl
  · exact parseInv_of_offEncoder (.inr ⟨by simp, by simp⟩)

theorem runEncode_parseInv {s t : State} (h : runEncode s = .next t) : ParseInv t := by
  obtain ⟨c, -, he⟩ | ⟨-, -, he⟩ | ⟨-, -, -, he⟩ | ⟨c, -, -, -, -, he⟩ | ⟨r, -, he⟩ := runEncode_cases s <;>
    rw [he] at h <;> cases h
  · exact parseInv_of_idle rfl
  · exact parseInv_of_idle rfl
  · exact parseInv_of_idle rfl
  · exact parseInv_startEncode c true

theorem runEncodeDelta_parseInv {s t : State} (h : runEncodeDelta s = .next t) : ParseInv t := by
  obtain ⟨c, -, he⟩ | ⟨-, -, he⟩ | ⟨c, -, -, -, he⟩ | ⟨-, -, -, -, he⟩ | ⟨c, -, -, -, -, -, he⟩ | ⟨r, -, he⟩ :=
    runEncodeDelta_cases s <;> rw [he] at h <;> cases h
  · exact parseInv_of_idle rfl
  · exact parseInv_of_idle rfl
  · exact parseInv_of_idle rfl
  · exact parseInv_of_idle rfl
  · exact parseInv_startEncode c false

theorem runUpdate_parseInv {s t : State} (hop : s.eng.op = opUpdate) (h : runUpdate s = .next t) : ParseInv t := by
  obtain ⟨c, -, he⟩ | ⟨-, -, he⟩ | ⟨r, -, he⟩ := runUpdate_cases s <;> rw [he] at h <;> cases h
  · exact parseInv_of_idle rfl
  · exact parseInv_of_update hop

/-- A delta command that is present runs, one that is absent fails at once (30_encoding.md R91). -/
theorem parseInv_of_delta {p : Bool} {r : Result} {s t : State}
    (hcmd : (if p then r else .next (runIllegal s)) = .next t) (hr : r = .next t → ParseInv t) : ParseInv t := by
  cases p with
  | true => exact hr hcmd
  | false => cases hcmd; exact parseInv_of_idle rfl

/-- Whatever command is accepted, its parse is valid at its start. -/
theorem exec_decodeCmd_parseInv {s t : State} (w : Reg) (h : exec (decodeCmd w) s = .next t) : ParseInv t := by
  unfold decodeCmd at h
  dsimp only at h
  split_ifs at h
  · exact runEncode_parseInv h
  · exact runDecode_parseInv h
  · exact parseInv_of_delta h (runUpdate_parseInv rfl)
  · exact parseInv_of_delta h runEncodeDelta_parseInv
  · exact parseInv_of_delta h runDecode_parseInv
  · cases h; exact parseInv_of_idle rfl
  · cases h; exact parseInv_of_idle rfl
  · cases h; exact parseInv_of_idle rfl

/-! ## Host events -/

/-- A host's write that is not refused leaves the scan region of a running encode alone (20_memory.md R67). -/
theorem hostMemWrite_keeps_parseInv {s t : State} (a : Addr) (v : Byte) (hregs : RegisterInv s) (hsound : EngineInv s)
    (h : ParseInv s) (hland : hostMemWrite s a v = .next t) : ParseInv t := by
  rw [hostMemWrite] at hland
  split at hland <;> cases hland
  next hfree =>
  refine h.of_sameRegion rfl fun hrun hne hstage i hi => ?_
  have henc : s.eng.encoding := by
    have hs := hsound hrun
    obtain hstage | hstage := hstage <;> simp only [Engine.sound, hstage] at hs <;> exact hs.1
  obtain ⟨r, hr, hheld, -⟩ := scanAddr_held henc hne hi
  obtain ⟨-, -, -, -, -, hbusy, -⟩ := hregs
  have haddr : s.eng.scanAddr i ≠ a.toNat := by
    intro heq
    rw [heq] at hheld
    exact hfree ⟨hbusy.mpr hrun, List.any_eq_true.mpr ⟨r, hr, hheld⟩⟩
  rw [scanByte_eq_read, scanByte_eq_read]
  exact Memory.read_write_other _ _ _ _ haddr

theorem landHost_keeps_parseInv (act : HostAct) {s t : State} (hregs : RegisterInv s) (hsound : EngineInv s)
    (h : ParseInv s) (hland : landHost act s = .next t) : ParseInv t := by
  cases act with
  | regWrite a w v =>
    obtain ⟨-, he⟩ | ⟨-, he⟩ | ⟨off, -, -, he⟩ | ⟨-, -, he⟩ | ⟨-, -, he⟩ := landRegWrite_cases s a w v <;>
      rw [landHost, he] at hland
    · cases hland; exact h
    · cases hland
    · cases hland; exact h
    · cases hland; exact h
    · exact exec_decodeCmd_parseInv v hland
  | regRead a w =>
    obtain ⟨-, he⟩ | ⟨-, he⟩ | ⟨off, -, he⟩ := landRegRead_cases s a w <;> rw [landHost, he] at hland <;> cases hland
    · exact h
    · exact h
  | memWrite a v => exact hostMemWrite_keeps_parseInv a v hregs hsound h hland
  | memRead a =>
    cases hland
    unfold State.hostMemRead
    split <;> exact h
  | reset => cases hland; exact parseInv_of_idle rfl

/-- Settles O54: a scan step adds valid records or closes the parse, no step and no landing event writes the scan region
of a running encode, and a command begins with nothing found. -/
theorem stepKeepsParseValid : Obligations.StepKeepsParseValid := by
  intro s t hregs hsound hparse h
  obtain ⟨-, -, hparse'⟩ := step_keeps (P := fun s => RegisterInv s ∧ EngineInv s ∧ ParseInv s) (fun _ _ hs => hs)
    (fun _ _ ⟨hr, hs, hp⟩ ht => ⟨registerInv_goesOnOrEnds hr (engineStep_goesOnOrEnds ht),
      engineStep_keeps_engineInv hs ht, engineStep_keeps_parseInv hs hp ht⟩)
    (fun act _ _ ⟨hr, hs, hp⟩ ht => ⟨landHost_keeps_registerInv act hr ht, landHost_keeps_engineInv act hs ht,
      landHost_keeps_parseInv act hr hs hp ht⟩) ⟨hregs, hsound, hparse⟩ h
  exact hparse'

end Sys2Proof.Machine
end

section
/-! The size of an emitted block (41_encoder.md R172, R175, R186, R197): the parts of a record, and the bound that the
all-literal parse attains. -/

namespace Sys2Proof.Machine

/-! ## The gain threshold and the soft limit -/

theorem gainThreshold_eq (len : Nat) : gainThreshold len = max 64 (len / 64) := by
  rw [gainThreshold, Nat.shiftRight_eq_div_pow]
  rfl

/-- The gain keeps the effective soft limit below the capacity (R175). -/
theorem effectiveSoftLimit_lt (soft inLen outCap : Nat) :
    effectiveSoftLimit soft inLen outCap (gainThreshold inLen) < outCap := by
  have hgain : 64 ≤ gainThreshold inLen := Nat.le_max_left _ _
  unfold effectiveSoftLimit
  dsimp only
  split <;> omega

/-! ## The size of a record -/

section
variable {R : Nat → Byte} {c : BlockClass} {q fin : Nat} {r : ParseRecord} {P : List ParseRecord}

theorem escEncode_length (u : Nat) : (escEncode u).length = u / 255 + 1 := (escapeChainRoundTrip.1 u []).1

theorem literalChain_length (c : BlockClass) (n : Nat) : (literalChain c n).length = escLenNr n c := by
  unfold literalChain escLenNr
  obtain hlt | hge := Nat.lt_or_ge n (mask (classParams c).nrLog2)
  · rw [if_neg (Nat.not_le_of_lt hlt), if_pos hlt]; rfl
  · rw [if_pos hge, if_neg (Nat.not_lt_of_le hge), escEncode_length]; rfl

/-- A repeat pays for its repeat-length chain. -/
theorem repeatChain_length_le (c : BlockClass) (r : ParseRecord) : (repeatChain c r).length ≤ r.m - 4 := by
  have hmask : 1 ≤ mask (classParams c).rLog2 := by cases c <;> decide
  unfold repeatChain
  split
  next hfull =>
    have : mask (classParams c).rLog2 ≤ r.m - 4 := hfull.2
    rw [escEncode_length, Config.repeatMin]
    omega
  next => exact Nat.zero_le _

theorem emitRecord_length (c : BlockClass) (r : ParseRecord) (R : Nat → Byte) (q : Nat) :
    (emitRecord c r (slice R q r.n)).length = 3 + escLenNr r.n c + r.n + (repeatChain c r).length := by
  have htag (nf rf off : Nat) : (packTagBytes c nf rf off).length = 3 := rfl
  simp only [emitRecord_eq, List.length_append, htag, literalChain_length, slice_length, Nat.add_assoc]

/-- Two runs of literals take at most one chain byte more than one run that holds both. -/
theorem escLenNr_add_le (c : BlockClass) (n m k : Nat) :
    escLenNr n c + escLenNr k c ≤ 1 + escLenNr (n + m + k) c := by
  simp only [escLenNr, escLen, Config.escByteMax]
  split <;> split <;> split <;> omega

/-- What a valid parse emits for the region from `q` on is at most what one run of literals takes: a repeat of at least
4 bytes pays for its tag, its chain and the chain byte it may cost the literals (R186). -/
theorem emitRecords_length_le (h : validParse R c fin q P = true) :
    (emitRecords c R q P).length ≤ 3 + (fin - q) + escLenNr (fin - q) c := by
  induction P generalizing q with
  | nil => cases h
  | cons r rest ih =>
    rw [emitRecords, List.length_append, emitRecord_length]
    cases rest with
    | nil =>
      obtain ⟨hoff, -, rfl⟩ := validParse_terminal_iff.mp h
      have hchain : repeatChain c r = [] := if_neg fun hrep => hrep.1 hoff
      rw [hchain, Nat.add_sub_cancel_left]
      simp only [emitRecords, List.length_nil]
      omega
    | cons next rest =>
      obtain ⟨hrec, hrest⟩ := validParse_cons_iff.mp h
      obtain ⟨hm, -⟩ := validRecord_iff.mp hrec
      have hq := validParse_le hrest
      have htail := ih hrest
      have hrepeat := repeatChain_length_le c r
      have hliterals := escLenNr_add_le c r.n r.m (fin - (q + r.n + r.m))
      rw [show r.n + r.m + (fin - (q + r.n + r.m)) = fin - q by omega] at hliterals
      omega

end

/-- Settles O10: a block holds its class byte and at least one tag; the gain is at least 64. -/
theorem gainAndSoftLimit : Obligations.GainAndSoftLimit := by
  refine ⟨fun R c q fin P hvalid => ?_, fun soft inLen outCap => ⟨gainThreshold_eq inLen, ?_,
    effectiveSoftLimit_lt soft inLen outCap⟩⟩
  · cases P with
    | nil => cases hvalid
    | cons r rest =>
      simp only [emitBlock, emitRecords, List.length_cons, List.length_append, emitRecord_length]
      omega
  · rintro d rfl
    exact ⟨fun hlow => if_pos hlow, fun hhigh => if_neg hhigh⟩

/-- Settles O12: the all-literal parse is one terminal record, and no parse exceeds it (`emitRecords_length_le`). -/
theorem worstCaseBoundsEveryParse : Obligations.WorstCaseBoundsEveryParse := by
  intro R c len
  refine ⟨rfl, ?_, fun P hvalid => ?_⟩
  · have hchain : repeatChain c ⟨len, 0, 0⟩ = [] := if_neg fun hrep => hrep.1 rfl
    have hrec : (emitRecord c ⟨len, 0, 0⟩ (slice R 0 len)).length = 3 + escLenNr len c + len := by
      rw [emitRecord_length c ⟨len, 0, 0⟩ R 0, hchain]; rfl
    simp only [emitBlock, literalParse, emitRecords, Nat.sub_zero, List.append_nil, List.length_cons, hrec, wcb]
    omega
  · have hle := emitRecords_length_le hvalid
    rw [Nat.sub_zero] at hle
    rw [emitBlock, List.length_cons, wcb]
    omega

end Sys2Proof.Machine
end

section
/-! The encode commands after acceptance (41_encoder.md R170 to R177, R200, R201, R205 to R207): their checks in order,
and the start of their scan. -/

namespace Sys2Proof.Machine

/-! ## Failed checks -/

/-- A command that fails at its checks is accepted and completes with no memory access (10_state.md R42, R43). -/
theorem accept_fail_endedAtOnce (s : State) (op : BitVec 4) (st : Status) (c : Cause) :
    EndedAtOnce s ((s.accept op).fail st c 0) op st.toReg c.toReg :=
  ⟨rfl, rfl, SameMemory.refl s, SameSurroundings.refl s⟩

theorem wraps_iff (base : Addr) (len : Nat) : wraps base len = true ↔ 2 ^ 64 < base.toNat + len := by
  simp [wraps]

theorem exec_updateDeltaState_present {s : State} (h : s.params.deltaPresent = true) :
    exec .updateDeltaState s = runUpdate (s.accept opUpdate) := if_pos h

theorem exec_encodeDelta_present {s : State} (h : s.params.deltaPresent = true) :
    exec .encodeDelta s = runEncodeDelta (s.accept opEncodeDelta) := if_pos h

/-- ENCODE fails at its argument checks (R171). -/
theorem encode_fails_args {s : State} {c : Cause} (h : encodeArgs (s.latched 1) = some c) :
    ∃ t, exec .encode s = .next t ∧ EndedAtOnce s t 1 0xFFFFFFFF c.toReg := by
  have hargs : encodeArgs (s.accept opEncode).eng = some c := h
  refine ⟨(s.accept opEncode).fail .failed c 0, ?_, accept_fail_endedAtOnce s _ _ c⟩
  change runEncode _ = _
  simp only [runEncode, hargs]

/-- UPDATE_DELTA_STATE fails at its argument checks (R201). -/
theorem update_fails_args {s : State} {c : Cause} (hpresent : s.params.deltaPresent = true)
    (h : updateArgs (s.latched 3) = some c) :
    ∃ t, exec .updateDeltaState s = .next t ∧ EndedAtOnce s t 3 0xFFFFFFFF c.toReg := by
  have hargs : updateArgs (s.accept opUpdate).eng = some c := h
  refine ⟨(s.accept opUpdate).fail .failed c 0, ?_, accept_fail_endedAtOnce s _ _ c⟩
  simp only [exec_updateDeltaState_present hpresent, runUpdate, hargs]

/-- ENCODE_DELTA fails at its argument checks (R206). -/
theorem encodeDelta_fails_args {s : State} {c : Cause} (hpresent : s.params.deltaPresent = true)
    (h : encodeDeltaArgs (s.latched 4) = some c) :
    ∃ t, exec .encodeDelta s = .next t ∧ EndedAtOnce s t 4 0xFFFFFFFF c.toReg := by
  have hargs : encodeDeltaArgs (s.accept opEncodeDelta).eng = some c := h
  refine ⟨(s.accept opEncodeDelta).fail .failed c 0, ?_, accept_fail_endedAtOnce s _ _ c⟩
  simp only [exec_encodeDelta_present hpresent, runEncodeDelta, hargs]

/-! ## The checks in their order -/

section
variable {p q r : Prop} [Decidable p] [Decidable q] [Decidable r] {a b c d : Option Cause}

theorem second_of_checks (hp : ¬p) (hq : q) : (if p then a else if q then b else c) = b :=
  (if_neg hp).trans (if_pos hq)

theorem third_of_checks (hp : ¬p) (hq : ¬q) (hr : r) :
    (if p then a else if q then b else if r then c else d) = c :=
  (if_neg hp).trans (second_of_checks hq hr)

theorem no_check_fails (hp : ¬p) (hq : ¬q) (hr : ¬r) :
    (if p then a else if q then b else if r then c else d) = d :=
  (if_neg hp).trans ((if_neg hq).trans (if_neg hr))

end

/-- A dictionary address that is needed is not null (R201, R206). -/
theorem not_null_dict {e : Engine} (h : e.dictLen.toNat = 0 ∨ e.dictAddr ≠ 0) :
    ¬(0 < e.dictLen.toNat ∧ e.dictAddr = 0) := by
  rintro ⟨hpos, hzero⟩
  obtain h | h := h
  · omega
  · exact h hzero

/-- Settles O14: each clause is a branch of `encodeArgs`. -/
theorem encodeArgumentChecks : Obligations.EncodeArgumentChecks := by
  rintro s e rfl
  refine ⟨fun hnull => encode_fails_args (if_pos hnull), fun hstate hin hout hlen => ?_,
    fun hstate hin hout hlen hcap hwrap => ?_⟩ <;> have hnull := not_or.mpr ⟨hstate, not_or.mpr ⟨hin, hout⟩⟩
  · exact encode_fails_args (second_of_checks hnull hlen)
  · refine encode_fails_args (third_of_checks hnull (not_or.mpr ⟨hlen, hcap⟩) ?_)
    exact hwrap.imp (wraps_iff _ _).mpr (.imp (wraps_iff _ _).mpr (wraps_iff _ _).mpr)

/-- Settles O15: each clause is a branch of `updateArgs` or of `encodeDeltaArgs`. -/
theorem deltaArgumentChecks : Obligations.DeltaArgumentChecks := by
  constructor <;> rintro s e rfl hpresent
  · refine ⟨fun hnull => update_fails_args hpresent (if_pos hnull), fun hstate hdict hrange => ?_⟩
    have hnull := not_or.mpr ⟨hstate, not_null_dict hdict⟩
    by_cases hlen : Config.maxBlock < (s.latched 3).dictLen.toNat
    · exact update_fails_args hpresent (second_of_checks hnull hlen)
    · have hwrap := (hrange.resolve_left hlen).imp (wraps_iff _ _).mpr (wraps_iff _ _).mpr
      exact update_fails_args hpresent (third_of_checks hnull hlen hwrap)
  · refine ⟨fun hnull => encodeDelta_fails_args hpresent (if_pos hnull), fun hstate hin hout hdict hlen => ?_,
      fun hstate hin hout hdict hlen hcap hwrap => ?_⟩ <;>
      have hnull := not_or.mpr ⟨hstate, not_or.mpr ⟨hin, not_or.mpr ⟨hout, not_null_dict hdict⟩⟩⟩
    · exact encodeDelta_fails_args hpresent (second_of_checks hnull hlen)
    · refine encodeDelta_fails_args hpresent (third_of_checks hnull (not_or.mpr ⟨hlen, hcap⟩) ?_)
      exact hwrap.imp (wraps_iff _ _).mpr (.imp (wraps_iff _ _).mpr (.imp (wraps_iff _ _).mpr (wraps_iff _ _).mpr))

/-! ## The floor and the range checks -/

/-- Only lengths up to 64 are at or below their gain threshold (R173). -/
theorem le_gainThreshold_iff (len : Nat) : len ≤ gainThreshold len ↔ len ≤ 64 := by
  rw [gainThreshold_eq]
  omega

/-- An input at the floor ends the command with 0 (R173). -/
theorem runEncode_floor {s : State} (hargs : encodeArgs s.eng = none) (hfloor : s.eng.inLen.toNat ≤ 64) :
    runEncode s = .next (s.fail .incompressible .encTooSmall 0) := by
  simp only [runEncode, hargs]
  exact if_pos ((le_gainThreshold_iff _).mpr hfloor)

theorem runEncodeDelta_floor {s : State} (hargs : encodeDeltaArgs s.eng = none) (hfloor : s.eng.inLen.toNat ≤ 64) :
    runEncodeDelta s = .next (s.fail .incompressible .encTooSmall 0) := by
  simp only [runEncodeDelta, hargs]
  exact if_pos ((le_gainThreshold_iff _).mpr hfloor)

/-- A longer input without a class fails (R174). -/
theorem runEncode_range {s : State} (hargs : encodeArgs s.eng = none) (hlong : 65536 < s.eng.inLen.toNat) :
    runEncode s = .next (s.fail .failed .argRange 0) := by
  have hfloor : ¬s.eng.inLen.toNat ≤ gainThreshold s.eng.inLen.toNat := by rw [le_gainThreshold_iff]; omega
  simp only [runEncode, hargs, if_neg hfloor, classSelectorRoundsUp.2.2 _ hlong]

/-- A longer input that fails a range check fails (R205). -/
theorem runEncodeDelta_range {s : State} (hargs : encodeDeltaArgs s.eng = none) (hlong : 64 < s.eng.inLen.toNat)
    (hrange : encodeDeltaRange s.eng = some .argRange) : runEncodeDelta s = .next (s.fail .failed .argRange 0) := by
  have hfloor : ¬s.eng.inLen.toNat ≤ gainThreshold s.eng.inLen.toNat := by rw [le_gainThreshold_iff]; omega
  simp only [runEncodeDelta, hargs, if_neg hfloor, hrange]

theorem encodeDeltaRange_of_bad {e : Engine} (h : 65536 < e.dictLen.toNat + e.inLen.toNat ∨
    (0 < e.dictLen.toNat ∧ e.inAddr.toNat ≠ e.dictAddr.toNat + e.dictLen.toNat)) :
    encodeDeltaRange e = some .argRange := by
  unfold encodeDeltaRange
  split
  · rfl
  next hlen => exact if_pos (h.resolve_left hlen)

/-- Settles O17: behind the argument checks stand the floor, then the range checks. -/
theorem encodeFloorAndRange : Obligations.EncodeFloorAndRange := by
  refine ⟨fun len _ => le_gainThreshold_iff len, ?encode, ?encodeDelta⟩
  case encode =>
    rintro s e rfl hargs
    exact ⟨fun hfloor => ⟨_, runEncode_floor (s := s.accept opEncode) hargs hfloor,
        accept_fail_endedAtOnce s 1 .incompressible .encTooSmall⟩,
      fun hlong => ⟨_, runEncode_range (s := s.accept opEncode) hargs hlong,
        accept_fail_endedAtOnce s 1 .failed .argRange⟩⟩
  case encodeDelta =>
    rintro s e rfl hpresent hargs
    rw [exec_encodeDelta_present hpresent]
    exact ⟨fun hfloor => ⟨_, runEncodeDelta_floor (s := s.accept opEncodeDelta) hargs hfloor,
        accept_fail_endedAtOnce s 4 .incompressible .encTooSmall⟩,
      fun hlong hbad => ⟨_, runEncodeDelta_range (s := s.accept opEncodeDelta) hargs hlong
          (encodeDeltaRange_of_bad hbad), accept_fail_endedAtOnce s 4 .failed .argRange⟩⟩

/-! ## The start of the scan -/

theorem not_wraps {base : Addr} {len : Nat} (h : base.toNat + len ≤ 2 ^ 64) : ¬wraps base len = true := by
  rw [wraps_iff]
  exact Nat.not_lt_of_le h

theorem ne_zero_of_floor {len : Reg} (h : 64 < len.toNat) : len ≠ 0 := by
  rintro rfl
  exact absurd h (by decide)

/-- A launch whose premises hold goes on. -/
theorem launch_of_ok {s : State} (h : LaunchOk s.params s.eng) (go : State) : launch s go = .next go :=
  (launch_next_iff s go go).mpr ⟨(launchRefusal_eq_none_iff s).mpr h, rfl⟩

theorem runEncode_starts {s : State} {c : BlockClass} (hargs : encodeArgs s.eng = none)
    (hfloor : 64 < s.eng.inLen.toNat) (hcls : classOf s.eng.inLen.toNat = some c) (hok : LaunchOk s.params s.eng) :
    runEncode s = .next (s.startEncode c true) := by
  simp only [runEncode, hargs, if_neg (Nat.not_le_of_lt (gainThreshold_lt hfloor)), hcls]
  exact launch_of_ok hok _

theorem runEncodeDelta_starts {s : State} {c : BlockClass} (hargs : encodeDeltaArgs s.eng = none)
    (hfloor : 64 < s.eng.inLen.toNat) (hrange : encodeDeltaRange s.eng = none)
    (hcls : classOf (s.eng.dictLen.toNat + s.eng.inLen.toNat) = some c) (hok : LaunchOk s.params s.eng) :
    runEncodeDelta s = .next (s.startEncode c false) := by
  simp only [runEncodeDelta, hargs, if_neg (Nat.not_le_of_lt (gainThreshold_lt hfloor)), hrange, hcls]
  exact launch_of_ok hok _

theorem runUpdate_starts {s : State} (hargs : updateArgs s.eng = none) (hok : LaunchOk s.params s.eng) :
    runUpdate s = .next { s with mem := s.withTableClear, eng := s.eng.startPrime } := by
  simp only [runUpdate, hargs]
  exact launch_of_ok hok _

/-- A cleared table reads 0, and every other byte as before (R177, R200). -/
theorem read_tableClear (m : Memory) (e : Engine) (a : Nat) :
    (m.zero e.stateAddr.toNat Config.stateMinSize).read a = if spanHolds e.stateSpan a then 0 else m.read a := by
  rw [Memory.read_zero]
  exact if_congr (spanHolds_iff e.stateSpan a).symm rfl rfl

/-- The class byte stands at OUT[0], and every other byte is as before (R176). -/
theorem read_classByte (m : Memory) (out : Addr) (v : Byte) (a : Nat) :
    (m.write (byteAddr out 0) v).read a = if a = out.toNat then v else m.read a := by
  rw [Memory.read_write, byteAddr_zero]

/-- Settles O18: the checks pass, and the start of the scan is `startEncode` with the table cleared. -/
theorem encodeStartsItsScan : Obligations.EncodeStartsItsScan := by
  rintro s e rfl hstate hin hout hcap hinTop houtTop hstateTop hfloor hmax hok
  have hargs : encodeArgs (s.latched 1) = none :=
    no_check_fails (not_or.mpr ⟨hstate, not_or.mpr ⟨hin, hout⟩⟩) (not_or.mpr ⟨ne_zero_of_floor hfloor, hcap⟩)
      (not_or.mpr ⟨not_wraps hinTop, not_or.mpr ⟨not_wraps houtTop, not_wraps hstateTop⟩⟩)
  obtain ⟨c, hcls⟩ := exists_classOf (Nat.one_le_of_lt hfloor) hmax
  refine ⟨(s.accept opEncode).startEncode c true, c, runEncode_starts hargs hfloor hcls hok, hcls, rfl,
    SameArgs.refl _, rfl, rfl, rfl, ⟨rfl, rfl, rfl⟩, gainThreshold_eq _, rfl, rfl, rfl, rfl, rfl,
    SameSurroundings.refl _, rfl, fun a => ?_⟩
  exact (read_tableClear _ _ a).trans (congrArg _ (read_classByte _ _ _ a))

/-- Settles O19: the checks pass, and the start of the scan is `startEncode` with the table kept. -/
theorem encodeDeltaStartsItsScan : Obligations.EncodeDeltaStartsItsScan := by
  rintro s e rfl hpresent hstate hin hout hdict hcap hinTop houtTop hstateTop hdictTop hfloor hmax hadj hok
  have hargs : encodeDeltaArgs (s.latched 4) = none :=
    no_check_fails (not_or.mpr ⟨hstate, not_or.mpr ⟨hin, not_or.mpr ⟨hout, not_null_dict hdict⟩⟩⟩)
      (not_or.mpr ⟨ne_zero_of_floor hfloor, hcap⟩)
      (not_or.mpr ⟨not_wraps hinTop, not_or.mpr ⟨not_wraps houtTop, not_or.mpr ⟨not_wraps hstateTop,
        not_wraps hdictTop⟩⟩⟩)
  have hrange : encodeDeltaRange (s.latched 4) = none :=
    (if_neg (Nat.not_lt_of_le hmax)).trans (if_neg (by omega))
  obtain ⟨c, hcls⟩ := exists_classOf (Nat.le_add_left_of_le (Nat.one_le_of_lt hfloor)) hmax
  refine ⟨(s.accept opEncodeDelta).startEncode c false, c,
    (exec_encodeDelta_present hpresent).trans (runEncodeDelta_starts hargs hfloor hrange hcls hok), hcls, rfl,
    SameArgs.refl _, rfl, rfl, rfl, ⟨rfl, rfl, rfl⟩, gainThreshold_eq _, rfl, rfl, rfl, rfl, rfl,
    SameSurroundings.refl _, rfl, fun a => read_classByte _ _ _ a⟩

/-- Settles O20: the checks pass, the table is cleared, and the scan is that of `startPrime`. -/
theorem updateStartsItsScan : Obligations.UpdateStartsItsScan := by
  rintro s e rfl hpresent hstate hdict hmax hdictTop hstateTop hok
  have hargs : updateArgs (s.latched 3) = none :=
    no_check_fails (not_or.mpr ⟨hstate, not_null_dict hdict⟩) (Nat.not_lt_of_le hmax)
      (not_or.mpr ⟨not_wraps hdictTop, not_wraps hstateTop⟩)
  exact ⟨_, (exec_updateDeltaState_present hpresent).trans (runUpdate_starts hargs hok), rfl, SameArgs.refl _, rfl, rfl,
    rfl, rfl, rfl, rfl, SameSurroundings.refl s, rfl, fun a => read_tableClear s.mem (s.latched 3) a⟩

end Sys2Proof.Machine
end

section
/-! The encoder's steps after its command is accepted (41_encoder.md R178 to R200): a probe, the end of the scan, the
draw of a parse, the emission. -/

namespace Sys2Proof.Machine

/-! ## The scan -/

/-- A scan step, for a machine with no event pending. -/
theorem step_of_scan {s : State} (h : Running s) (hstage : s.eng.stage = .scan) : step s = .next s.scanStep := by
  obtain ⟨hrun, hhost⟩ := h
  rw [step_of_no_host hhost]
  simp only [engineStep, hrun, hstage]

/-- A scan step of the reference finder. -/
theorem step_of_reference {s : State} (h : Running s) (hstage : s.eng.stage = .scan)
    (href : s.params.matchFinder = .reference) : step s = .next s.scanReference := by
  rw [step_of_scan h hstage]
  simp only [State.scanStep, href]

theorem step_of_emit {s : State} (h : Running s) (hstage : s.eng.stage = .emit) : step s = .next s.emitStep := by
  obtain ⟨hrun, hhost⟩ := h
  rw [step_of_no_host hhost]
  simp only [engineStep, hrun, hstage]

/-! ## The hash table -/

/-- The two bytes of a table entry stand next to each other in STATE (10_state.md R44). -/
theorem tableEntry_addrs {e : Engine} {h : Nat} (htop : e.stateAddr.toNat + Config.stateMinSize ≤ 2 ^ 64)
    (hlt : h < Config.htEntries) : byteAddr e.stateAddr (2 * h) = e.stateAddr.toNat + 2 * h ∧
      byteAddr e.stateAddr (2 * h + 1) = e.stateAddr.toNat + 2 * h + 1 := by
  simp only [Config.htEntries] at hlt
  exact ⟨byteAddr_of_no_wrap htop (by simp only [Config.stateMinSize]; omega),
    byteAddr_of_no_wrap htop (by simp only [Config.stateMinSize]; omega)⟩

/-- A table entry that is written reads back, and no other byte changes (10_state.md R44). -/
theorem withTableEntry_frame {s t : State} {h v : Nat} (htop : s.eng.stateAddr.toNat + Config.stateMinSize ≤ 2 ^ 64)
    (hlt : h < Config.htEntries) (hv : v < 65536) (hmem : t.mem = s.withTableEntry h v)
    (haddr : t.eng.stateAddr = s.eng.stateAddr) :
    t.tableEntry h = v ∧ SameOutside [⟨s.eng.stateAddr.toNat + 2 * h, 2⟩] s t := by
  obtain ⟨hlo, hhi⟩ := tableEntry_addrs htop hlt
  constructor
  · rw [State.tableEntry, haddr, hmem, State.withTableEntry, hlo, hhi, Memory.read_write_same,
      Memory.read_write_other _ _ _ _ (by omega), Memory.read_write_same, BitVec.toNat_ofNat, BitVec.toNat_ofNat]
    omega
  · intro a ha
    have hoff := ha _ (List.mem_singleton_self _)
    simp only [spanHolds, decide_eq_false_iff_not] at hoff
    rw [hmem, State.withTableEntry, hlo, hhi, Memory.read_write_other _ _ _ _ (by omega),
      Memory.read_write_other _ _ _ _ (by omega)]

/-- Settles O38: the probe is `scanReference`; the positions of a region fit a table entry. -/
theorem referenceProbe : Obligations.ReferenceProbe := by
  intro s h c hrunning hinv hstage href hprobe hh hc
  have hsound := hinv hrunning.1
  simp only [Engine.sound, hstage] at hsound
  obtain ⟨⟨-, htop, hmax, -⟩, -⟩ := hsound
  have hlt : h < Config.htEntries := hh ▸ hash6_lt _ _ _
  have hv : s.eng.p < 65536 := by simp only [Config.maxBlock] at hmax; omega
  refine ⟨s.scanReference, step_of_reference hrunning hstage href, ?_⟩
  have hstep : s.scanReference = { s with
      mem := s.withTableEntry h s.eng.p
      eng := if c < s.eng.p ∧ same4 s.scanByte c s.eng.p then s.eng.takeMatch s.scanByte c s.eng.scanEnd
        else s.eng.missProbe } := by
    subst hh hc
    exact if_pos hprobe
  have haddr : s.scanReference.eng.stateAddr = s.eng.stateAddr := by
    rw [hstep]; dsimp only; split <;> rfl
  obtain ⟨hentry, hframe⟩ := withTableEntry_frame htop hlt hv (congrArg State.mem hstep) haddr
  simp only [same4_iff] at hstep
  refine ⟨by rw [hstep], ?_, by rw [hstep], hentry, hframe, fun htake => ?_, fun hmiss => ?_⟩
  · rw [hstep]; exact SameSurroundings.refl s
  · rw [hstep]
    exact ⟨_, _, _, rfl, rfl, if_pos htake⟩
  · rw [hstep]
    refine (if_neg hmiss).trans ?_
    rw [Engine.missProbe, Nat.shiftRight_one]

/-- A scan that ends completes UPDATE_DELTA_STATE with 0, and hands the other commands' parse on to the emitter (R196,
R198, R200). -/
theorem scanDone_clauses (s : State) (P : List ParseRecord) :
    (s.eng.op = 3 → EndedWith s (s.scanDone P) 0 0 0) ∧
    (s.eng.op ≠ 3 → (s.scanDone P).regs = s.regs ∧ (s.scanDone P).eng = { s.eng with parse := P, stage := .emit }) := by
  obtain ⟨hop, h⟩ | ⟨hop, h⟩ := scanDone_cases s P <;> rw [h]
  · exact ⟨fun _ => ⟨rfl, rfl, SameSurroundings.refl s⟩, fun hne => absurd hop hne⟩
  · exact ⟨fun heq => absurd heq hop, fun _ => ⟨rfl, rfl⟩⟩

/-- Settles O39: the scan ends with the rest of the region as the terminal record's literals. -/
theorem referenceScanEnds : Obligations.ReferenceScanEnds := by
  intro s hrunning hstage href hend
  obtain ⟨hprobe, -⟩ | ⟨-, hstep⟩ := scanReference_cases s
  · have : s.eng.p + 6 ≤ s.eng.scanEnd := hprobe
    omega
  · refine ⟨s.scanReference, step_of_reference hrunning hstage href, ?_⟩
    rw [hstep]
    refine ⟨fun a => by rw [scanDone_mem], (scanDone_goesOnOrEnds _ _).surroundings, scanDone_clauses s _⟩

/-- Settles O40: the scan step is one draw of `chooseParse`; it opens STATE. -/
theorem anyParseIsValid : Obligations.AnyParseIsValid := by
  intro s hrunning hstage hany hle
  have hstep : s.scanStep = s.scanAny := by simp only [State.scanStep, hany]
  have hopened := havocTable_sameOutside { s with draws := s.draws + 1 }
  refine ⟨s.scanAny, hstep ▸ step_of_scan hrunning hstage, fun a ha => ?_, ?_⟩
  · rw [State.scanAny, scanDone_mem]
    exact hopened a ha
  · have hdone := scanDone_clauses ({ s with draws := s.draws + 1 } : State).havocTable
      (chooseParse s.draws s.eng.cls s.scanByte s.eng.scanStart s.eng.scanEnd)
    obtain ⟨hupdate, hencode⟩ := hdone
    refine ⟨(scanDone_goesOnOrEnds ({ s with draws := s.draws + 1 } : State).havocTable _).surroundings, hupdate,
      fun hne => ?_⟩
    obtain ⟨hregs, heng⟩ := hencode hne
    exact ⟨hregs, _, heng, chooseParse_valid _ _ _ _ _ hle, _, rfl, rfl⟩

/-! ## The emission -/

/-- A byte string is read back from where it was written (00_scope.md R12). -/
theorem read_writeBytes {m : Memory} {a : Addr} {bs : List Byte} (htop : a.toNat + bs.length ≤ 2 ^ 64) {j : Nat}
    (hj : j < bs.length) : (m.writeBytes a bs).read (a.toNat + j) = bs[j] := by
  induction bs generalizing m a j with
  | nil => exact absurd hj (Nat.not_lt_zero j)
  | cons b rest ih =>
    rw [List.length_cons] at htop hj
    cases j with
    | zero =>
      refine (Memory.read_writeBytes_other (m.write a.toNat b) (a + 1) rest _ fun i hi => ?_).trans
        (Memory.read_write_same _ _ _)
      have haddr : byteAddr (a + 1) i = a.toNat + (i + 1) := by
        rw [byteAddr_succ, byteAddr_of_no_wrap htop (Nat.succ_lt_succ hi)]
      change a.toNat + 0 ≠ byteAddr (a + 1) i
      omega
    | succ j =>
      have hnext : (a + 1).toNat = a.toNat + 1 := by bv_omega
      have hrest := ih (m := m.write a.toNat b) (a := a + 1) (j := j) (by omega) (Nat.lt_of_succ_lt_succ hj)
      rwa [hnext, Nat.add_assoc, Nat.add_comm 1] at hrest

/-- The emission writes OUT alone (41_encoder.md R189). -/
theorem emitStep_sameOutside {s : State} (henc : s.eng.encoding) (hne : s.eng.op ≠ opUpdate) :
    SameOutside [s.eng.outSpan] s s.emitStep := by
  obtain ⟨-, -, -, -, hencode, -⟩ := henc
  obtain ⟨-, -, hsoft, -, -, htop⟩ := hencode hne
  have hcovers : Covers (fun a => spanHolds s.eng.outSpan a = true) s.eng.outAddr s.eng.outCap.toNat :=
    covers_of_no_wrap htop fun a hlo hhi => (spanHolds_iff _ a).mpr ⟨hlo, hhi⟩
  intro a ha
  refine (emitStep_edited hcovers fun k hk => hcovers.byte k (by omega)).read_eq ?_
  simp [ha _ (List.mem_singleton_self _)]

/-- A block that fits stands in OUT (R180, R187). -/
theorem emitSuccess_read {s : State} (htop : s.eng.outAddr.toNat + s.block.length ≤ 2 ^ 64) (j : Nat)
    (hj : j < s.block.length) : (s.emitSuccess s.block).mem.read (s.eng.outAddr.toNat + j) = s.block[j] := by
  rw [State.emitSuccess_mem, Memory.read_havoc, if_neg (by omega), read_writeBytes htop hj]

/-- A failed emission completes with its status and cause (R180, 60_exceptions.md R285). -/
theorem emitFailure_ended (s : State) (st : Status) (c : Cause) :
    EndedWith s (s.emitFailure st c) st.toReg c.toReg (Config.freePos s.draws) :=
  ⟨rfl, rfl, SameSurroundings.refl s⟩

/-- Settles O41: the emission compares the block's size with the soft limit, then with the capacity. -/
theorem emitFollowsTheEnvelope : Obligations.EmitFollowsTheEnvelope := by
  rintro s _ hrunning hinv hstage rfl
  have hsound := hinv hrunning.1
  simp only [Engine.sound, hstage] at hsound
  obtain ⟨henc, hne⟩ := hsound
  have ⟨_, _, _, _, hencode, _⟩ := henc
  obtain ⟨-, -, hsoft, -, -, htop⟩ := hencode hne
  refine ⟨s.emitStep, step_of_emit hrunning hstage, emitStep_sameOutside henc hne, ?_⟩
  obtain ⟨hfits, h⟩ | ⟨hover, hcap, h⟩ | ⟨hover, hcap, h⟩ := emitStep_cases s
  · rw [h]
    exact ⟨fun _ => ⟨⟨rfl, rfl, SameSurroundings.refl s⟩, emitSuccess_read (by omega)⟩, fun hlow => by omega,
      fun hlow => by omega⟩
  · rw [h]
    exact ⟨fun hlow => by omega, fun _ _ => ⟨_, emitFailure_ended s _ _⟩, fun _ hlow => by omega⟩
  · refine ⟨fun hlow => by omega, fun _ hlow => by omega, fun _ _ => ⟨Config.freePos (s.draws + 1), ?_⟩⟩
    obtain h | h := h <;> rw [h]
    · exact .inr (emitFailure_ended ({ s with draws := s.draws + 1 } : State) _ _)
    · exact .inl (emitFailure_ended ({ s with draws := s.draws + 1 } : State) _ _)

end Sys2Proof.Machine
end

section
/-! SUPPORT. The stream instructions by their words (30_encoding.md R93 to R95): which class byte fails, and the fields
of a tag. -/

namespace Sys2Proof.Machine

/-- A class byte of 5 or more fails the decode (42_decoder.md R232). -/
theorem exec_decodeClass_of_ge {b : Byte} (h : 5 ≤ b.toNat) (s : State) :
    exec (decodeClass b) s = .next s.badClass := by
  have hne (k : Byte) (hk : k.toNat < 5) : b ≠ k := by
    rintro rfl
    omega
  rw [decodeClass, if_neg (hne 0#8 (by decide)), if_neg (hne 1#8 (by decide)), if_neg (hne 2#8 (by decide)),
    if_neg (hne 3#8 (by decide)), if_neg (hne 4#8 (by decide))]
  split_ifs <;> rfl

/-- A byte below 5 is the byte of a class (R93). -/
theorem exists_class_of_lt {b : Byte} (h : b.toNat < 5) : ∃ c : BlockClass, b = BitVec.ofNat 8 c.toNat := by
  obtain ⟨c, -, hc⟩ := classOfNat_of_le (Nat.le_of_lt_succ h)
  exact ⟨c, by rw [hc, BitVec.ofNat_toNat, BitVec.setWidth_eq]⟩

/-- Every row of a tag format has fields (R94). -/
theorem tagFields_of_format {i : Instr} {c : BlockClass} (h : i.format = .tag c) :
    ∃ nf rf off, tagFields i = some (c, nf, rf, off) := by
  cases i <;> cases h <;> exact ⟨_, _, _, rfl⟩

end Sys2Proof.Machine
end

section
/-! A decoder step reads IN, the produced part of OUT and, in DECODE_DELTA, DICT, and no other byte (42_decoder.md
R248): two decodes that agree there go on alike. -/

namespace Sys2Proof.Machine

/-! ## What a decoder reads -/

/-- The running decoder may read the byte at the address (R248). -/
def Engine.Reads (e : Engine) (a : Nat) : Prop := ∃ r ∈ e.decoderReads, spanHolds r a = true

theorem Engine.reads_iff (e : Engine) (a : Nat) : e.Reads a ↔ spanHolds e.inSpan a = true ∨
    (e.outAddr.toNat ≤ a ∧ a < e.outAddr.toNat + e.outPos) ∨
    (e.op = opDecodeDelta ∧ spanHolds e.dictSpan a = true) := by
  have hout := spanHolds_iff ⟨e.outAddr.toNat, e.outPos⟩ a
  unfold Engine.Reads Engine.decoderReads
  by_cases hop : e.op = opDecodeDelta <;> simp [hop, hout]

theorem agreeOn_decoderReads_iff (e : Engine) (s t : State) :
    AgreeOn e.decoderReads s t ↔ ∀ a, e.Reads a → t.mem.read a = s.mem.read a :=
  ⟨fun h a ⟨r, hr, ha⟩ => h r hr a ha, fun h r hr a ha => h a ⟨r, hr, ha⟩⟩

/-- The two states are the same to a decoder: the same command in the same place, and the same bytes where it reads. OUT
does not wrap, and the dictionary of DECODE_DELTA ends at OUT, as the argument checks found (R231, R260). -/
structure SameView (s s' : State) : Prop where
  eng : s'.eng = s.eng
  regs : s'.regs = s.regs
  params : s'.params = s.params
  draws : s'.draws = s.draws
  top : s.eng.outAddr.toNat + s.eng.outCap.toNat ≤ 2 ^ 64
  adjacent : s.eng.op = opDecodeDelta → 0 < s.eng.dictLen.toNat →
    s.eng.outAddr.toNat = s.eng.dictAddr.toNat + s.eng.dictLen.toNat
  agree : ∀ a, s.eng.Reads a → s'.mem.read a = s.mem.read a

section
variable {s s' : State}

/-- What a repeat may reach does not pass address 0, and is read (R241, R259). -/
theorem SameView.agree_below (h : SameView s s') {a : Nat} (hlo : s.eng.outAddr.toNat ≤ a + s.eng.avail)
    (hhi : a < s.eng.outAddr.toNat + s.eng.outPos) : s'.mem.read a = s.mem.read a := by
  refine h.agree a ((Engine.reads_iff _ _).mpr (.inr ?_))
  obtain hbelow | hin := Nat.lt_or_ge a s.eng.outAddr.toNat
  · unfold Engine.avail at hlo
    split at hlo
    next hop =>
      have hadj := h.adjacent hop (by omega)
      refine .inr ⟨hop, (spanHolds_iff _ _).mpr ?_⟩
      simp only [Engine.dictSpan]
      omega
    next => omega
  · exact .inl ⟨hin, hhi⟩

theorem SameView.avail_le (h : SameView s s') : s.eng.avail ≤ s.eng.outAddr.toNat := by
  unfold Engine.avail
  split
  next hop =>
    have hadj := h.adjacent hop
    omega
  next => exact Nat.zero_le _

/-! ## Updates that keep the view -/

/-- The decoder goes on with `n` bytes more in OUT, the same in both states, and nothing else written. -/
theorem SameView.produce (h : SameView s s') {e : Engine} {m m' : Memory} (n : Nat) (hargs : SameArgs s.eng e)
    (hpos : e.outPos = s.eng.outPos + n)
    (hold : ∀ a, ¬(s.eng.outAddr.toNat + s.eng.outPos ≤ a ∧ a < s.eng.outAddr.toNat + s.eng.outPos + n) →
      m.read a = s.mem.read a ∧ m'.read a = s'.mem.read a)
    (hnew : ∀ j, j < n → m'.read (s.eng.outAddr.toNat + s.eng.outPos + j) =
      m.read (s.eng.outAddr.toNat + s.eng.outPos + j)) :
    SameView { s with mem := m, eng := e } { s' with mem := m', eng := e } := by
  have ⟨hop, hinA, houtA, _, hdictA, hinL, houtC, _, hdictL⟩ := hargs
  refine ⟨rfl, h.regs, h.params, h.draws, ?_, ?_, fun a ha => ?_⟩
  · rw [houtA, houtC]
    exact h.top
  · rw [hop, houtA, hdictA, hdictL]
    exact h.adjacent
  · by_cases hin : s.eng.outAddr.toNat + s.eng.outPos ≤ a ∧ a < s.eng.outAddr.toNat + s.eng.outPos + n
    · obtain ⟨j, rfl⟩ := Nat.exists_eq_add_of_le hin.1
      exact hnew j (by omega)
    · obtain ⟨hm, hm'⟩ := hold a hin
      refine hm'.trans ((h.agree a ?_).trans hm.symm)
      rw [Engine.reads_iff] at ha ⊢
      simp only [Engine.inSpan, Engine.dictSpan, hop, hinA, houtA, hdictA, hinL, hdictL, hpos] at ha ⊢
      exact ha.imp_right (.imp_left fun hout => by omega)

/-- Only fields change that say neither what is latched nor what is produced. -/
theorem SameView.setEng (h : SameView s s') {e : Engine} (hargs : SameArgs s.eng e) (hpos : e.outPos = s.eng.outPos) :
    SameView { s with eng := e } { s' with eng := e } :=
  h.produce 0 hargs hpos (fun _ _ => ⟨rfl, rfl⟩) fun _ hj => absurd hj (Nat.not_lt_zero _)

theorem SameView.toStage (h : SameView s s') (st : Stage) : SameView (s.toStage st) (s'.toStage st) := by
  unfold State.toStage
  rw [h.eng]
  exact h.setEng (SameArgs.refl _) rfl

/-- Opened bytes hold the free values of the same draw. -/
theorem SameView.havoc (h : SameView s s') (base : Addr) (off len : Nat) :
    SameView (s.havoc base off len) (s'.havoc base off len) := by
  refine ⟨h.eng, h.regs, h.params, congrArg (· + 1) h.draws, h.top, h.adjacent, fun a ha => ?_⟩
  rw [State.havoc_mem, State.havoc_mem, Memory.read_havoc, Memory.read_havoc, h.draws, h.agree a ha]

theorem SameView.complete (h : SameView s s') (v : Reg) (c : Cause) (pos : Reg) :
    SameView (s.complete v c pos) (s'.complete v c pos) := by
  refine ⟨?_, ?_, h.params, h.draws, h.top, h.adjacent, h.agree⟩
  · rw [State.complete_eng, State.complete_eng, h.eng]
  · rw [State.complete_regs, State.complete_regs, h.regs]

theorem SameView.decodeFail (h : SameView s s') (st : Status) (c : Cause) (pos : Nat) :
    SameView (s.decodeFail st c pos) (s'.decodeFail st c pos) := by
  unfold State.decodeFail State.havocOut
  rw [h.eng]
  exact (h.havoc _ _ _).complete _ _ _

theorem SameView.decodeDone (h : SameView s s') : SameView s.decodeDone s'.decodeDone := by
  unfold State.decodeDone State.havocOutFrom
  rw [h.eng]
  exact (h.havoc _ _ _).complete _ _ _

/-! ## The elements of the stream -/

/-- Copies from `off` bytes below give the same bytes where the memories agree on what stands below. -/
theorem read_copy_congr {m m' : Memory} {src dst : Addr} {d n off : Nat} (hdst : ∀ k, k < n → byteAddr dst k = d + k)
    (hoff : 0 < off) (hsrc : ∀ k, k < n → byteAddr src k + off = d + k)
    (hbelow : ∀ a, d ≤ a + off → a < d → m'.read a = m.read a) (j : Nat) (hj : j < n) :
    (m'.copy src dst n).read (d + j) = (m.copy src dst n).read (d + j) := by
  induction j using Nat.strong_induction_on with
  | _ j ih =>
    rw [read_copy_replicates hdst hoff hsrc hj, read_copy_replicates hdst hoff hsrc hj]
    obtain hlt | hge := Nat.lt_or_ge j off
    · have hreach := hsrc j hj
      rw [read_copy_outside hdst (by omega), read_copy_outside hdst (by omega)]
      exact hbelow _ (by omega) (by omega)
    · rw [Nat.add_sub_assoc hge]
      exact ih _ (by omega) (by omega)

theorem SameView.repeatBody (h : SameView s s') (hoff : s.eng.recOff ≠ 0) : SameView s.repeatBody s'.repeatBody := by
  unfold State.repeatBody
  dsimp only
  rw [h.eng]
  split_ifs with hfar hlong
  · exact h.decodeFail _ _ _
  · exact h.decodeFail _ _ _
  · have hcap : s.eng.capEff ≤ s.eng.outCap.toNat := Nat.min_le_left _ _
    have htop := h.top
    have havail := h.avail_le
    have hdst (k : Nat) (hk : k < s.eng.recM) :
        byteAddr (s.eng.outAddr + BitVec.ofNat 64 s.eng.outPos) k = s.eng.outAddr.toNat + s.eng.outPos + k :=
      byteAddr_from (by omega)
    have hsrc (k : Nat) (hk : k < s.eng.recM) :
        byteAddr (s.eng.outAddr + BitVec.ofNat 64 s.eng.outPos - BitVec.ofNat 64 s.eng.recOff) k + s.eng.recOff =
          s.eng.outAddr.toNat + s.eng.outPos + k :=
      byteAddr_from_sub (by omega) (by omega)
    exact h.produce s.eng.recM (SameArgs.refl _) rfl
      (fun a ha => ⟨read_copy_outside hdst ha, read_copy_outside hdst ha⟩)
      (read_copy_congr hdst (Nat.pos_of_ne_zero hoff) hsrc fun a hlo hhi => h.agree_below (by omega) hhi)

theorem SameView.terminal (h : SameView s s') : SameView s.terminal s'.terminal := by
  unfold State.terminal
  dsimp only
  rw [h.eng]
  split_ifs
  · exact h.decodeFail _ _ _
  · exact h.decodeFail _ _ _
  · exact h.decodeDone

theorem SameView.afterLiterals (h : SameView s s') : SameView s.afterLiterals s'.afterLiterals := by
  unfold State.afterLiterals
  rw [h.eng]
  split_ifs with hzero
  · exact h.terminal
  · exact h.toStage _
  · exact h.repeatBody hzero

theorem SameView.exhausted_eq (h : SameView s s') : s'.exhausted = s.exhausted := by
  rw [State.exhausted, h.params, State.exhausted]

theorem SameView.literalBounds (h : SameView s s') : SameView s.literalBounds s'.literalBounds := by
  unfold State.literalBounds
  dsimp only
  rw [h.eng, h.exhausted_eq]
  split_ifs
  · exact h.decodeFail _ _ _
  · exact h.decodeFail _ _ _
  · exact h.afterLiterals
  · exact h.toStage _

theorem SameView.tagRecord (h : SameView s s') (nf rf off : Nat) :
    SameView (s.tagRecord nf rf off) (s'.tagRecord nf rf off) := by
  have hpast : SameView { s with eng := s.eng.pastTag nf rf off } { s' with eng := s.eng.pastTag nf rf off } :=
    h.setEng (SameArgs.refl _) rfl
  rw [tagRecord_eq_ite, tagRecord_eq_ite, h.eng]
  split_ifs
  · exact hpast.toStage _
  · exact hpast.literalBounds

theorem SameView.addEscape (h : SameView s s') (v : Nat) : SameView (s.addEscape v) (s'.addEscape v) := by
  rw [addEscape_eq_pastChain, addEscape_eq_pastChain, h.eng]
  exact h.setEng (SameArgs.refl _) rfl

/-- The last byte of a chain; a repeat-length chain is that of a REP (R240). -/
theorem SameView.escapeEnd (h : SameView s s') (v : Byte) (hoff : s.eng.stage ≠ .nrChain → s.eng.recOff ≠ 0) :
    SameView (s.escapeEnd v) (s'.escapeEnd v) := by
  have hpast := h.addEscape v.toNat
  unfold State.escapeEnd
  rw [h.eng]
  split_ifs with hstage
  · exact hpast.literalBounds
  · refine hpast.repeatBody ?_
    rw [addEscape_eq_pastChain]
    exact hoff hstage

/-- A literal byte within the capacity. -/
theorem SameView.literalByte (h : SameView s s') (v : Byte) (hroom : s.eng.outPos < s.eng.outCap.toNat) :
    SameView (s.literalByte v) (s'.literalByte v) := by
  have hpast : SameView (s.pastLiteral v) (s'.pastLiteral v) := by
    have haddr := byteAddr_of_no_wrap h.top hroom
    unfold State.pastLiteral
    rw [h.eng, haddr]
    refine h.produce 1 (SameArgs.refl _) rfl (fun a ha => ?_) fun j hj => ?_
    · exact ⟨Memory.read_write_other _ _ _ _ (by omega), Memory.read_write_other _ _ _ _ (by omega)⟩
    · rw [Nat.lt_one_iff.mp hj, Nat.add_zero, Memory.read_write_same, Memory.read_write_same]
  obtain hmore | hlast := Nat.lt_or_ge 1 s.eng.recN
  · rw [literalByte_of_more v hmore, literalByte_of_more v (h.eng ▸ hmore)]
    exact hpast
  · rw [literalByte_of_last v hlast, literalByte_of_last v (h.eng ▸ hlast)]
    exact hpast.afterLiterals

theorem SameView.selectClass (h : SameView s s') (c : BlockClass) (hpos : s.eng.outPos = 0) :
    SameView (s.selectClass c) (s'.selectClass c) := by
  unfold State.selectClass
  rw [h.eng]
  exact h.setEng (SameArgs.refl _) hpos.symm

/-! ## The step -/

theorem readBytes_congr {m m' : Memory} {a : Addr} {n : Nat}
    (h : ∀ i, i < n → m'.read (byteAddr a i) = m.read (byteAddr a i)) : m'.readBytes a n = m.readBytes a n := by
  induction n generalizing a with
  | zero => rfl
  | succ n ih =>
    have hfirst : m'.read a.toNat = m.read a.toNat := byteAddr_zero a ▸ h 0 n.succ_pos
    have hrest : m'.readBytes (a + 1) n = m.readBytes (a + 1) n := ih fun i hi => by
      rw [byteAddr_succ]
      exact h (i + 1) (Nat.succ_lt_succ hi)
    rw [Memory.readBytes, Memory.readBytes, hfirst, hrest]

/-- The same stands at the cursor: only bytes of IN are fetched (R233). -/
theorem SameView.fetch_eq (h : SameView s s') (hin : s.eng.inAddr.toNat + s.eng.inLen.toNat ≤ 2 ^ 64) :
    fetch s' = fetch s := by
  have hbytes (n : Nat) : s'.inBytes n = s.inBytes n := by
    rw [State.inBytes, h.eng]
    refine readBytes_congr fun i hi => ?_
    rw [byteAddr_offset]
    have hleft : s.eng.inPos + i < s.eng.inLen.toNat := by
      simp only [Engine.inLeft] at hi
      omega
    exact h.agree _ ((Engine.reads_iff _ _).mpr (.inl (spanHolds_byteAddr hin hleft)))
  simp only [fetch, h.eng, hbytes]

theorem SameView.exec_classByte (h : SameView s s') {i : Instr} (hf : i.format = .classByte)
    (hpos : s.eng.outPos = 0) : ∃ t t', exec i s = .next t ∧ exec i s' = .next t' ∧ SameView t t' := by
  obtain ⟨b, -, rfl⟩ := decodeClass_encode hf
  obtain hlt | hge := Nat.lt_or_ge b.toNat 5
  · obtain ⟨c, rfl⟩ := exists_class_of_lt hlt
    exact ⟨_, _, exec_class_of_toNat c s, exec_class_of_toNat c s', h.selectClass c hpos⟩
  · exact ⟨_, _, exec_decodeClass_of_ge hge s, exec_decodeClass_of_ge hge s', h.decodeFail _ _ _⟩

theorem SameView.exec_tag (h : SameView s s') {i : Instr} {c : BlockClass} (hf : i.format = .tag c) :
    ∃ t t', exec i s = .next t ∧ exec i s' = .next t' ∧ SameView t t' := by
  obtain ⟨nf, rf, off, htag⟩ := tagFields_of_format hf
  exact ⟨_, _, exec_tagFields htag s, exec_tagFields htag s', h.tagRecord nf rf off⟩

theorem SameView.exec_esc (h : SameView s s') {i : Instr} (hf : i.format = .esc)
    (hoff : s.eng.stage ≠ .nrChain → s.eng.recOff ≠ 0) :
    ∃ t t', exec i s = .next t ∧ exec i s' = .next t' ∧ SameView t t' := by
  cases i <;> cases hf
  case escCont => exact ⟨_, _, rfl, rfl, h.addEscape _⟩
  case escEnd v => exact ⟨_, _, rfl, rfl, h.escapeEnd v hoff⟩

theorem SameView.exec_lit (h : SameView s s') {i : Instr} (hf : i.format = .lit)
    (hroom : s.eng.outPos < s.eng.outCap.toNat) :
    ∃ t t', exec i s = .next t ∧ exec i s' = .next t' ∧ SameView t t' := by
  cases i <;> cases hf
  case lit v => exact ⟨_, _, rfl, rfl, h.literalByte v hroom⟩

/-- A stream instruction goes on alike in both, at a sound stage that reads its format. -/
theorem SameView.exec_stream (h : SameView s s') (hsound : s.eng.sound) {i : Instr}
    (hexp : s.eng.expects = some i.format) :
    ∃ t t', exec i s = .next t ∧ exec i s' = .next t' ∧ SameView t t' := by
  unfold Engine.sound at hsound
  unfold Engine.expects at hexp
  cases hstage : s.eng.stage <;> simp only [hstage, reduceCtorEq, Option.some_inj] at hsound hexp
  case classByte =>
    obtain ⟨-, -, hpos⟩ := hsound
    exact h.exec_classByte hexp.symm hpos
  case tag => exact h.exec_tag hexp.symm
  case nrChain => exact h.exec_esc hexp.symm fun hne => absurd hstage hne
  case rChain =>
    obtain ⟨-, -, hoff⟩ := hsound
    exact h.exec_esc hexp.symm fun _ => hoff
  case literal =>
    obtain ⟨-, -, hpos, -, hroom⟩ := hsound
    have hcap : s.eng.capEff ≤ s.eng.outCap.toNat := Nat.min_le_left _ _
    exact h.exec_lit hexp.symm (by omega)

/-- A decoder step goes on alike in both. -/
theorem SameView.decoderStep (h : SameView s s') (hsound : s.eng.sound)
    (hin : s.eng.inAddr.toNat + s.eng.inLen.toNat ≤ 2 ^ 64) {t : State} (hstep : decoderStep s = .next t) :
    ∃ t', decoderStep s' = .next t' ∧ SameView t t' := by
  unfold Machine.decoderStep at hstep ⊢
  rw [h.fetch_eq hin]
  cases hfetch : fetch s <;> rw [hfetch] at hstep
  case instr i =>
    obtain ⟨f, hexp, rfl, -⟩ := fetch_instr hfetch
    obtain ⟨u, u', hu, hu', hview⟩ := h.exec_stream hsound hexp
    obtain rfl : u = t := Host.Outcome.next.inj (hu.symm.trans hstep)
    exact ⟨u', hu', hview⟩
  case exhausted c =>
    cases hstep
    exact ⟨_, rfl, by rw [h.eng, h.exhausted_eq]; exact h.decodeFail _ _ _⟩
  case finished =>
    cases hstep
    exact ⟨_, rfl, h.decodeDone⟩
  case lost => cases hstep

end

/-- A decode that runs soundly is at a stage that reads the stream (42_decoder.md R232 to R240). -/
theorem decoding_of_sound {e : Engine} (h : e.sound) (hop : e.isDecode) : e.decoding ∧ ∃ f, e.expects = some f := by
  have hne : ¬e.encoding := by
    rintro ⟨henc, -⟩
    obtain hop | hop := hop <;> rw [hop] at henc <;> exact absurd henc (by decide)
  unfold Engine.sound at h
  unfold Engine.expects
  cases hstage : e.stage <;> simp only [hstage] at h
  case classByte | tag | nrChain | literal | rChain => exact ⟨h.1, _, rfl⟩
  case scan | emit => exact absurd h.1 hne

/-- A decode writes OUT alone (20_memory.md R61). -/
theorem written_of_isDecode {e : Engine} (h : e.isDecode) : e.written = [e.outSpan] := by
  obtain h | h := h <;> rw [Engine.written, h] <;> rfl

/-- Settles O58: the same stands at the cursor, and each element of the stream does the same to what is read. -/
theorem decoderReadsOnlyItsRegions : Obligations.DecoderReadsOnlyItsRegions := by
  intro s t s' hinv ⟨hrun, hhost⟩ hop ⟨hrun', hhost'⟩ heng hregs hparams hdraws hagree hstep
  have hsound := hinv hrun
  obtain ⟨hdec, f, hexp⟩ := decoding_of_sound hsound hop
  have ⟨_, _, _, _, hin, htop, hadj, _⟩ := hdec
  have hview : SameView s s' :=
    ⟨heng, hregs, hparams, hdraws, htop, hadj, (agreeOn_decoderReads_iff _ _ _).mp hagree⟩
  refine ⟨written_of_isDecode hop ▸ engineWritesOnlyItsRegions s t hinv hhost hstep, ?_⟩
  rw [step_of_no_host hhost, engineStep_of_expects hrun hexp] at hstep
  rw [step_of_no_host hhost', engineStep_of_expects hrun' (heng ▸ hexp)]
  obtain ⟨t', ht', hafter⟩ := hview.decoderStep hsound hin hstep
  exact ⟨t', ht', hafter.eng, hafter.regs, (agreeOn_decoderReads_iff _ _ _).mpr hafter.agree⟩

end Sys2Proof.Machine
end

section
/-! DECODE and DECODE_DELTA after acceptance (42_decoder.md R230, R231, R259, R260): their checks in order, and their
start at the class byte. -/

namespace Sys2Proof.Machine

theorem exec_decode (s : State) : exec .decode s = runDecode (s.accept opDecode) (decodeArgs (s.latched 2)) := rfl

theorem exec_decodeDelta_present {s : State} (h : s.params.deltaPresent = true) :
    exec .decodeDelta s = runDecode (s.accept opDecodeDelta) (decodeDeltaArgs (s.latched 5)) := if_pos h

/-! ## Failed checks -/

/-- DECODE fails at its argument checks (R231). -/
theorem decode_fails_args {s : State} {c : Cause} (h : decodeArgs (s.latched 2) = some c) :
    ∃ t, exec .decode s = .next t ∧ EndedAtOnce s t 2 0xFFFFFFFF c.toReg := by
  rw [exec_decode, h]
  exact ⟨_, rfl, accept_fail_endedAtOnce s _ .failed c⟩

/-- DECODE_DELTA fails at its argument checks (R260). -/
theorem decodeDelta_fails_args {s : State} {c : Cause} (hpresent : s.params.deltaPresent = true)
    (h : decodeDeltaArgs (s.latched 5) = some c) :
    ∃ t, exec .decodeDelta s = .next t ∧ EndedAtOnce s t 5 0xFFFFFFFF c.toReg := by
  rw [exec_decodeDelta_present hpresent, h]
  exact ⟨_, rfl, accept_fail_endedAtOnce s _ .failed c⟩

/-- Behind the null and length checks of DECODE_DELTA a region that wraps and a dictionary that does not end at OUT fail
alike (R260). -/
theorem decodeDeltaArgs_range {e : Engine}
    (hnull : ¬(e.inAddr = 0 ∨ e.outAddr = 0 ∨ 0 < e.dictLen.toNat ∧ e.dictAddr = 0))
    (hlen : ¬(e.inLen.toNat ≤ 4 ∨ e.outCap = 0))
    (hbad : 2 ^ 64 < e.inAddr.toNat + e.inLen.toNat ∨ 2 ^ 64 < e.outAddr.toNat + e.outCap.toNat ∨
      2 ^ 64 < e.dictAddr.toNat + e.dictLen.toNat ∨
      (0 < e.dictLen.toNat ∧ e.outAddr.toNat ≠ e.dictAddr.toNat + e.dictLen.toNat)) :
    decodeDeltaArgs e = some .argRange := by
  simp only [← wraps_iff] at hbad
  rw [decodeDeltaArgs, if_neg hnull, if_neg hlen]
  split_ifs with hwrap hadj
  · rfl
  · rfl
  · obtain h | h | h | h := hbad
    · exact absurd (.inl h) hwrap
    · exact absurd (.inr (.inl h)) hwrap
    · exact absurd (.inr (.inr h)) hwrap
    · exact absurd h hadj

/-- Settles O16: each clause is a branch of `decodeArgs` or of `decodeDeltaArgs`. -/
theorem decodeArgumentChecks : Obligations.DecodeArgumentChecks := by
  refine ⟨?decode, ?decodeDelta⟩
  case decode =>
    rintro s e rfl
    refine ⟨fun hnull => decode_fails_args (if_pos hnull), fun hin hout hlen => ?_,
      fun hin hout hlen hcap hwrap => ?_⟩ <;> have hnull := not_or.mpr ⟨hin, hout⟩
    · exact decode_fails_args (second_of_checks hnull hlen)
    · exact decode_fails_args (third_of_checks hnull (not_or.mpr ⟨Nat.not_le_of_lt hlen, hcap⟩)
        (hwrap.imp (wraps_iff _ _).mpr (wraps_iff _ _).mpr))
  case decodeDelta =>
    rintro s e rfl hpresent
    refine ⟨fun hnull => decodeDelta_fails_args hpresent (if_pos hnull), fun hin hout hdict hlen => ?_,
      fun hin hout hdict hlen hcap hbad => ?_⟩ <;>
      have hnull := not_or.mpr ⟨hin, not_or.mpr ⟨hout, not_null_dict hdict⟩⟩
    · exact decodeDelta_fails_args hpresent (second_of_checks hnull hlen)
    · exact decodeDelta_fails_args hpresent
        (decodeDeltaArgs_range hnull (not_or.mpr ⟨Nat.not_le_of_lt hlen, hcap⟩) hbad)

/-! ## The start at the class byte -/

theorem runDecode_starts {s : State} (hok : LaunchOk s.params s.eng) :
    runDecode s none = .next (s.toStage .classByte) := launch_of_ok hok _

/-- Settles O21: the checks pass, and the command is launched at the class byte. -/
theorem decodeStartsAtClassByte : Obligations.DecodeStartsAtClassByte := by
  refine ⟨?decode, ?decodeDelta⟩
  case decode =>
    rintro s e rfl hin hout hlen hcap hinTop houtTop hok
    have hargs : decodeArgs (s.latched 2) = none :=
      no_check_fails (not_or.mpr ⟨hin, hout⟩) (not_or.mpr ⟨Nat.not_le_of_lt hlen, hcap⟩)
        (not_or.mpr ⟨not_wraps hinTop, not_wraps houtTop⟩)
    refine ⟨(s.accept opDecode).toStage .classByte, ?_, rfl, SameArgs.refl _, rfl, rfl, rfl, SameMemory.refl s,
      SameSurroundings.refl s, rfl⟩
    rw [exec_decode, hargs]
    exact runDecode_starts (s := s.accept opDecode) hok
  case decodeDelta =>
    rintro s e rfl hpresent hin hout hdict hlen hcap hinTop houtTop hdictTop hadj hok
    have hargs : decodeDeltaArgs (s.latched 5) = none :=
      (no_check_fails (not_or.mpr ⟨hin, not_or.mpr ⟨hout, not_null_dict hdict⟩⟩)
        (not_or.mpr ⟨Nat.not_le_of_lt hlen, hcap⟩)
        (not_or.mpr ⟨not_wraps hinTop, not_or.mpr ⟨not_wraps houtTop, not_wraps hdictTop⟩⟩)).trans
        (if_neg (by omega))
    refine ⟨(s.accept opDecodeDelta).toStage .classByte, ?_, rfl, SameArgs.refl _, rfl, rfl, rfl, SameMemory.refl s,
      SameSurroundings.refl s, rfl⟩
    rw [exec_decodeDelta_present hpresent, hargs]
    exact runDecode_starts (s := s.accept opDecodeDelta) hok

end Sys2Proof.Machine
end

section
/-! The elements of the stream (42_decoder.md R232 to R245): what a class byte, a tag, the end of the literal length, the
end of the literals and the end of a REP come to. -/

namespace Sys2Proof.Machine

/-! ## How a decode fails and succeeds -/

/-- A decode that fails, over memory that was written in OUT alone (R250). -/
theorem decodeFail_decodeFailed {s : State} {e : Engine} {m : Memory} (hargs : SameArgs s.eng e)
    (hmem : SameOutside [s.eng.outSpan] s { s with mem := m }) (st : Status) (c : Cause) (pos : Nat) :
    DecodeFailed s (State.decodeFail { s with mem := m, eng := e } st c pos) st.toReg c.toReg pos := by
  obtain ⟨-, -, hout, -, -, -, hcap, -⟩ := hargs
  refine ⟨⟨rfl, rfl, SameSurroundings.refl s⟩, fun a ha => ?_⟩
  have hoff := ha _ (List.mem_singleton_self _)
  rw [← Bool.not_eq_true, spanHolds_iff] at hoff
  refine Eq.trans ?_ (hmem a ha)
  rw [State.decodeFail_mem, Memory.read_havoc, hout, hcap]
  exact if_neg hoff

/-- A decode that is done keeps what it has produced (R245, R250). -/
theorem decodeDone_decodeSucceeded {s : State} {e : Engine} {m : Memory} (hargs : SameArgs s.eng e) :
    DecodeSucceeded s (State.decodeDone { s with mem := m, eng := e }) m e.outPos := by
  obtain ⟨-, -, hout, -, -, -, hcap, -⟩ := hargs
  refine ⟨⟨rfl, rfl, SameSurroundings.refl s⟩, fun a ha => ?_⟩
  rw [State.decodeDone_mem, Memory.read_havoc, hout, hcap]
  exact if_neg (by dsimp only; omega)

/-- EXH as the status and as its code (R247). -/
theorem exhausted_toReg (s : State) : s.exhausted.toReg = exhCode s.params := by
  unfold State.exhausted exhCode
  split <;> rfl

/-! ## The class byte and the tag -/

/-- Settles O24: a class byte is the byte of its row, and the row of a byte selects a class or fails. -/
theorem classByteSelectsOrFails : Obligations.ClassByteSelectsOrFails := by
  constructor
  · intro s i c hf henc
    obtain ⟨b, hb, rfl⟩ := decodeClass_encode hf
    obtain rfl : b = BitVec.ofNat 8 c.toNat := List.singleton_inj.mp (hb.symm.trans henc)
    exact ⟨s.selectClass c, exec_class_of_toNat c s, rfl, rfl, SameMemory.refl s, SameSurroundings.refl s, rfl⟩
  · intro s i b hf henc hge
    obtain ⟨b', hb, rfl⟩ := decodeClass_encode hf
    obtain rfl : b' = b := List.singleton_inj.mp (hb.symm.trans henc)
    exact ⟨s.badClass, exec_decodeClass_of_ge hge s,
      decodeFail_decodeFailed (SameArgs.refl _) ((SameMemory.refl s).sameOutside _) .failed .decBadClass 0⟩

/-- Settles O25: a tag is one record of its fields, whose nr_field is the class's mask. -/
theorem fullLiteralFieldOpensChain : Obligations.FullLiteralFieldOpensChain := by
  rintro s i nf rf off ⟨htag, hnr, -⟩ hfull
  rw [← hnr] at hfull
  refine ⟨_, exec_tagFields htag s, ?_⟩
  rw [tagRecord_eq_ite, if_pos hfull]
  exact ⟨rfl, rfl, SameMemory.refl s, SameSurroundings.refl s, rfl⟩

/-! ## The end of the literal length -/

/-- Where the number of literals is known, their bounds are checked (R236, R237). -/
theorem LiteralsKnown.exec_eq {s : State} {i : Instr} {e : Engine} (h : LiteralsKnown s i e) :
    exec i s = .next (State.literalBounds { s with eng := e }) := by
  obtain ⟨nf, rf, off, ⟨htag, hnr, -⟩, hbelow, rfl⟩ | ⟨v, rfl, hstage, rfl⟩ := h
  · rw [← hnr] at hbelow
    rw [exec_tagFields htag, tagRecord_eq_ite, if_neg hbelow]
  · rw [← addEscape_nrChain v.toNat hstage]
    exact congrArg _ (if_pos hstage)

/-- The end of the literal length changes no latched argument. -/
theorem LiteralsKnown.sameArgs {s : State} {i : Instr} {e : Engine} (h : LiteralsKnown s i e) : SameArgs s.eng e := by
  obtain ⟨nf, rf, off, -, -, rfl⟩ | ⟨v, -, -, rfl⟩ := h <;> exact SameArgs.refl _

/-- Settles O26: literals within their bounds are copied one by one. -/
theorem knownLiteralsAreAwaited : Obligations.KnownLiteralsAreAwaited := by
  intro s i e hknown hpos hin hout
  have hgo : State.literalBounds { s with eng := e } = State.toStage { s with eng := e } .literal :=
    (if_neg (Nat.not_lt_of_le hin)).trans ((if_neg (Nat.not_lt_of_le hout)).trans (if_neg (Nat.ne_of_gt hpos)))
  exact ⟨_, hknown.exec_eq.trans (congrArg _ hgo), rfl, rfl, SameMemory.refl s, SameSurroundings.refl s, rfl⟩

/-- Settles O27: the two failures of `literalBounds`, before any literal is written. -/
theorem literalBoundsFail : Obligations.LiteralBoundsFail := by
  intro s i e hknown
  have hfailed := decodeFail_decodeFailed hknown.sameArgs ((SameMemory.refl s).sameOutside _)
  constructor
  · intro hlong
    have hfail : State.literalBounds { s with eng := e } =
        State.decodeFail { s with eng := e } s.exhausted .decLitIn e.inPos := if_pos hlong
    refine ⟨_, hknown.exec_eq.trans (congrArg _ hfail), ?_⟩
    rw [← exhausted_toReg]
    exact hfailed _ _ _
  · intro hin hlong
    have hfail : State.literalBounds { s with eng := e } =
        State.decodeFail { s with eng := e } .failed .decLitOut e.inPos :=
      (if_neg (Nat.not_lt_of_le hin)).trans (if_pos hlong)
    exact ⟨_, hknown.exec_eq.trans (congrArg _ hfail), hfailed .failed .decLitOut _⟩

/-! ## The end of the literals -/

/-- The elements that end a record's literals change no latched argument. -/
theorem LiteralsDone.sameArgs {s : State} {i : Instr} {e : Engine} {m : Memory} (h : LiteralsDone s i e m) :
    SameArgs s.eng e := by
  obtain ⟨rf, off, -, rfl, -⟩ | ⟨v, -, -, -, rfl, -⟩ := h <;> exact SameArgs.refl _

/-- They write at most a literal that has room in OUT (R236). -/
theorem LiteralsDone.sameOutside {s : State} {i : Instr} {e : Engine} {m : Memory} (h : LiteralsDone s i e m)
    (hroom : LiteralHasRoom s i) : SameOutside [s.eng.outSpan] s { s with mem := m } := by
  obtain ⟨rf, off, -, -, rfl⟩ | ⟨v, rfl, -, -, -, rfl⟩ := h
  · exact (SameMemory.refl s).sameOutside _
  · obtain ⟨hlt, htop⟩ := hroom v rfl
    intro a ha
    refine Memory.read_write_other _ _ _ _ ?_
    rintro rfl
    have hheld : spanHolds s.eng.outSpan (byteAddr s.eng.outAddr s.eng.outPos) = true := spanHolds_byteAddr htop hlt
    rw [ha _ (List.mem_singleton_self _)] at hheld
    cases hheld

/-- Settles O30: behind the literals of a REP its r_field is compared with the class's mask. -/
theorem fullRepeatFieldOpensChain : Obligations.FullRepeatFieldOpensChain := by
  intro s i e m hdone hoff hfull
  rw [← hdone.rLog2_eq] at hfull
  have hgo : State.afterLiterals { s with mem := m, eng := e } = State.toStage { s with mem := m, eng := e } .rChain :=
    (if_neg hoff).trans (if_pos hfull)
  exact ⟨_, hdone.exec_eq.trans (congrArg _ hgo), rfl, rfl, SameSurroundings.refl s, rfl, fun _ => rfl⟩

/-- Settles O33: behind the literals of a terminal record the three ends of `terminal`. -/
theorem terminalRecordEnds : Obligations.TerminalRecordEnds := by
  intro s i e m hdone hoff hroom
  have hfailed := decodeFail_decodeFailed hdone.sameArgs (hdone.sameOutside hroom) .failed
  have hexec : exec i s = .next (State.terminal { s with mem := m, eng := e }) :=
    hdone.exec_eq.trans (congrArg _ (if_pos hoff))
  obtain ⟨hr, h⟩ | ⟨hr, hpos, h⟩ | ⟨hr, hpos, h⟩ := terminal_cases { s with mem := m, eng := e } <;> rw [h] at hexec
  · exact ⟨fun _ => ⟨_, hexec, hfailed .decTermR _⟩, fun hzero => absurd hzero hr, fun hzero => absurd hzero hr⟩
  · exact ⟨fun hne => absurd hr hne, fun _ _ => ⟨_, hexec, hfailed .decTermTrail _⟩, fun _ hend => absurd hend hpos⟩
  · exact ⟨fun hne => absurd hr hne, fun _ hne => absurd hpos hne,
      fun _ _ => ⟨_, hexec, decodeDone_decodeSucceeded hdone.sameArgs⟩⟩

/-! ## The end of a REP -/

theorem RepeatKnown.sameArgs {s : State} {i : Instr} {e : Engine} {m : Memory} (h : RepeatKnown s i e m) :
    SameArgs s.eng e := by
  obtain ⟨hdone, -⟩ | ⟨v, -, -, -, -, rfl⟩ := h
  · exact hdone.sameArgs
  · exact SameArgs.refl _

theorem RepeatKnown.sameOutside {s : State} {i : Instr} {e : Engine} {m : Memory} (h : RepeatKnown s i e m)
    (hroom : LiteralHasRoom s i) : SameOutside [s.eng.outSpan] s { s with mem := m } := by
  obtain ⟨hdone, -⟩ | ⟨v, -, -, -, rfl, -⟩ := h
  · exact hdone.sameOutside hroom
  · exact (SameMemory.refl s).sameOutside _

/-- Settles O32: the two failures of `repeatBody`, before any byte of the repeat is written. -/
theorem repeatChecksFail : Obligations.RepeatChecksFail := by
  intro s i e m hknown hroom
  have hfailed := decodeFail_decodeFailed hknown.sameArgs (hknown.sameOutside hroom) .failed
  constructor
  · intro hfar
    have hfail : State.repeatBody { s with mem := m, eng := e } =
        State.decodeFail { s with mem := m, eng := e } .failed .decOffset e.inPos := if_pos hfar
    exact ⟨_, hknown.exec_eq.trans (congrArg _ hfail), hfailed .decOffset _⟩
  · intro hnear hlong
    have hfail : State.repeatBody { s with mem := m, eng := e } =
        State.decodeFail { s with mem := m, eng := e } .failed .decRepOut e.inPos :=
      (if_neg (Nat.not_lt_of_le hnear)).trans (if_pos hlong)
    exact ⟨_, hknown.exec_eq.trans (congrArg _ hfail), hfailed .decRepOut _⟩

end Sys2Proof.Machine
end

section
/-! What the running decoder meets at its cursor (42_decoder.md R233 to R235, R240): an instruction, the end of the
stream, or an exhausted input. -/

namespace Sys2Proof.Machine

/-- The step of a running decoder with no event pending is that of what stands at its cursor. -/
theorem step_of_decoder {s : State} {f : Format} (h : Running s) (hexp : s.eng.expects = some f) :
    step s = decoderStep s := by
  obtain ⟨hrun, hhost⟩ := h
  rw [step_of_no_host hhost, engineStep_of_expects hrun hexp]

/-- Away from a record boundary at the end of IN, the bytes at the cursor are decoded (R233). -/
theorem fetch_of_expects {s : State} {f : Format} (hexp : s.eng.expects = some f)
    (hmore : ¬(s.eng.stage = .tag ∧ s.eng.inPos = s.eng.inLen.toNat)) :
    fetch s = fetchedOf (decode f (s.inBytes f.size)) := by
  rw [fetch, if_neg hmore, hexp]

/-- Fewer than 3 bytes are no tag (30_encoding.md R99). -/
theorem decode_tag_truncated {c : BlockClass} {bs : List Byte} (h : bs.length < 3) :
    decode (.tag c) bs = .error .truncTag := by
  match bs with
  | [] | [_] | [_, _] => rfl
  | _ :: _ :: _ :: _ => simp only [List.length_cons] at h; omega

/-- A decoder whose input is exhausted fails with EXH at its cursor (R235, R247). -/
theorem step_of_exhausted {s : State} {f : Format} {c : Cause} (h : Running s) (hexp : s.eng.expects = some f)
    (hfetch : fetch s = .exhausted c) :
    ∃ t, step s = .next t ∧ DecodeFailed s t (exhCode s.params) c.toReg s.eng.inPos := by
  rw [step_of_decoder h hexp, decoderStep, hfetch, ← exhausted_toReg]
  exact ⟨_, rfl, decodeFail_decodeFailed (SameArgs.refl _) ((SameMemory.refl s).sameOutside _) _ _ _⟩

/-- Settles O35: the one or two bytes left are no tag, and none are no escape byte. -/
theorem exhaustedInputFails : Obligations.ExhaustedInputFails := by
  intro s hrun
  constructor
  · intro hstage hmore hshort
    have hexp : s.eng.expects = some (.tag s.eng.cls) := by simp only [Engine.expects, hstage]
    have hlen : (s.inBytes (Format.tag s.eng.cls).size).length < 3 := by
      rw [inBytes_length, Engine.inLeft]
      omega
    refine step_of_exhausted (c := .decTruncTag) hrun hexp ?_
    rw [fetch_of_expects hexp fun hend => Nat.ne_of_lt hmore hend.2, decode_tag_truncated hlen]
    rfl
  · intro hstage hend
    have hexp : s.eng.expects = some .esc := by
      obtain hstage | hstage := hstage <;> simp only [Engine.expects, hstage]
    have hnil : s.inBytes Format.esc.size = [] := by
      rw [← List.length_eq_zero_iff, inBytes_length, Engine.inLeft]
      omega
    refine step_of_exhausted (c := .decTruncEsc) hrun hexp ?_
    rw [fetch_of_expects hexp (by rintro ⟨htag, -⟩; simp [htag] at hstage), hnil]
    rfl

/-- Settles O34: at the top of the record loop at the end of IN nothing is read. -/
theorem endAtRecordBoundaryFinishes : Obligations.EndAtRecordBoundaryFinishes := by
  intro s hrun hstage hend
  have hexp : s.eng.expects = some (.tag s.eng.cls) := by simp only [Engine.expects, hstage]
  have hfetch : fetch s = .finished := if_pos ⟨hstage, hend⟩
  rw [step_of_decoder hrun hexp, decoderStep, hfetch]
  exact ⟨_, rfl, decodeDone_decodeSucceeded (SameArgs.refl _)⟩

/-- Settles O36: all bytes of the word are in IN, so it is the instruction that is fetched. -/
theorem stepRunsStreamInstruction : Obligations.StepRunsStreamInstruction := by
  intro s f i rest hrun hexp hsize hdecode
  have hpos : 0 < f.size := by cases f <;> exact Nat.succ_pos _
  have hbytes : s.inBytes f.size = s.mem.readBytes (s.eng.inAddr + BitVec.ofNat 64 s.eng.inPos) f.size := by
    rw [State.inBytes, Engine.inLeft, Nat.min_eq_left (by omega)]
  have hfetch : fetch s = .instr i := by
    rw [fetch_of_expects hexp (by omega), hbytes, hdecode]
    rfl
  rw [step_of_decoder hrun hexp, decoderStep, hfetch]

end Sys2Proof.Machine
end

section
/-! The completion interrupt (60_exceptions.md R290, R292): what sets, clears and masks DONE_PEND, and the cycle in which
a clear meets a completion. -/

namespace Sys2Proof.Machine

/-! ## DONE_PEND -/

theorem setDonePend_bit (pend : Reg) : (setDonePend pend).getLsbD 0 = true := by simp [setDonePend]

theorem clearDonePend_bit (pend v : Reg) :
    (clearDonePend pend v).getLsbD 0 = (pend.getLsbD 0 && !v.getLsbD 0) := by simp [clearDonePend]

theorem irq_eq (s : State) : s.irq = (s.donePend && s.regs.irqEn.getLsbD 0) := rfl

/-- A completion sets DONE_PEND, whatever it held before (R290, R291). -/
theorem complete_donePend (s : State) (result : Reg) (c : Cause) (pos : Reg) :
    (s.complete result c pos).donePend = true := setDonePend_bit _

/-- A write to IRQ_PEND clears DONE_PEND by its bit 0 (R290). -/
theorem writeRegister_irqPend_donePend (s : State) (v : Reg) :
    (s.writeRegister 0x24 v).donePend = (s.donePend && !v.getLsbD 0) := clearDonePend_bit _ _

/-- A write to any other register leaves DONE_PEND alone, IRQ_EN among them (R290). -/
theorem writeRegister_donePend_other (s : State) {off : Nat} (v : Reg) (h : off ≠ 0x24) :
    (s.writeRegister off v).donePend = s.donePend := by
  rw [State.donePend, State.writeRegister_regs, regWrite_irqPend, if_neg h, State.donePend]

/-- A write to IRQ_PEND with bit 0 clear has no effect (R290). -/
theorem regWrite_irqPend_of_zero (r : Regs) {v : Reg} (h : v.getLsbD 0 = false) : regWrite r 0x24 v = r := by
  have hkeep : clearDonePend r.irqPend v = r.irqPend := by
    rw [clearDonePend_eq, h]
    rfl
  exact congrArg (fun pend => { r with irqPend := pend }) hkeep

/-- Settles O46: the output is a function of the two bits, and each event's effect on them is known. -/
theorem interruptOutputFollowsPend : Obligations.InterruptOutputFollowsPend := by
  intro s result c pos v
  have hpend : (s.writeRegister 0x20 v).donePend = s.donePend := writeRegister_donePend_other s v (by decide)
  have hen : (s.writeRegister 0x20 v).regs.irqEn.getLsbD 0 = v.getLsbD 0 := by simp [regWrite_irqEn]
  have hreset : s.hardReset.donePend = false := by rw [State.donePend, State.hardReset_regs]; rfl
  refine ⟨Bool.and_eq_true_iff, complete_donePend s result c pos, ?_, regWrite_irqPend_of_zero s.regs, fun hone => ?_,
    hpend, ?_, hreset⟩
  · rw [irq_eq, complete_donePend, Bool.true_and, State.complete_regs]
  · rw [writeRegister_irqPend_donePend, hone, Bool.not_true, Bool.and_false]
  · rw [irq_eq, hpend, hen]

/-! ## A clear in the cycle of a completion -/

/-- What the host sees of a completion: DONE_PEND and DONE are set, BUSY is clear (10_state.md R43). -/
theorem EndedWith.signals {s t : State} {result cause pos : Reg} (h : EndedWith s t result cause pos) :
    t.donePend = true ∧ t.done = true ∧ t.busy = false := by
  obtain ⟨hregs, -, -⟩ := h
  simp [State.donePend, State.done, State.busy, hregs, Regs.ended]

/-- A running engine that is idle after its step has completed its command. -/
theorem endedWith_of_engineStep {s t : State} (hrun : s.eng.phase = .run) (h : engineStep s = .next t)
    (hidle : t.eng.phase = .idle) : ∃ (result : Reg) (c : Cause) (pos : Reg), EndedWith s t result c.toReg pos := by
  obtain ⟨-, hphase, -⟩ | hend := engineStep_goesOnOrEnds h
  · rw [hidle, hrun] at hphase
    cases hphase
  · exact hend

/-- A due write to IRQ_PEND that shares its cycle lands before the engine's step (R292). -/
theorem step_of_due_irqPend {s : State} {v : Reg} {rest : List HostEvent}
    (h : s.host = ⟨0, true, .regWrite (s.params.regBase + 0x24) 4 v⟩ :: rest) :
    step s = engineStep (({ s with host := rest } : State).writeRegister 0x24 v) := by
  have hacc : regAccess s.params (s.params.regBase + 0x24) 4 = .register 0x24 :=
    regAccess_offset s.params 0x24 (by decide) (by decide)
  have hne : 0x24 ≠ cmdOffset := by decide
  simp only [step, h, landEvent, landHost, landRegWrite, hacc, if_true, if_neg hne, thenStep]

/-- Settles O47: the write lands first, so the completion in the engine's step behind it sets what it cleared. -/
theorem completionWinsOverClear : Obligations.CompletionWinsOverClear := by
  intro s t v rest hrun hhost hstep hidle
  rw [step_of_due_irqPend hhost] at hstep
  have hlanded : (({ s with host := rest } : State).writeRegister 0x24 v).eng.phase = .run := hrun
  obtain ⟨result, c, pos, hend⟩ := endedWith_of_engineStep hlanded hstep hidle
  exact hend.signals

end Sys2Proof.Machine
end

section
/-! The capacity that excludes WRITE_ERROR (41_encoder.md R180, R186; 70_reset_and_hazards.md R334). -/

namespace Sys2Proof.Machine

/-- A literal-length chain takes at most one byte more than there are literals, so the worst case is about twice the
length. -/
theorem wcb_le (len : Nat) (c : BlockClass) : wcb len c ≤ 2 * len + 5 := by
  unfold wcb escLenNr
  split
  · omega
  · have hchain : (len - mask (classParams c).nrLog2) / 255 ≤ len :=
      (Nat.div_le_self _ _).trans (Nat.sub_le _ _)
    rw [escLen, Config.escByteMax]
    omega

/-- The scan region of ENCODE is IN (R178). -/
theorem scan_of_encode {e : Engine} (h : e.op = opEncode) : e.scanStart = 0 ∧ e.scanEnd = e.inLen.toNat := by
  have hdict : e.scanDict = 0 := by rw [Engine.scanDict, h]; rfl
  refine ⟨hdict, ?_⟩
  rw [Engine.scanEnd, h, hdict, Nat.zero_add]
  rfl

/-- The block of an ENCODE about to emit is within the worst case of its input (R186). -/
theorem block_length_le_wcb {s : State} (hrun : s.eng.phase = .run) (hparse : ParseInv s) (hstage : s.eng.stage = .emit)
    (hop : s.eng.op = opEncode) : s.block.length ≤ wcb s.eng.inLen.toNat s.eng.cls := by
  obtain ⟨-, hemit⟩ := hparse hrun (by rw [hop]; decide)
  have hvalid := hemit hstage
  obtain ⟨hstart, hend⟩ := scan_of_encode hop
  rw [hstart, hend] at hvalid
  rw [State.block, hstart]
  exact (worstCaseBoundsEveryParse _ _ _).2.2 _ hvalid

/-- An ENCODE that emits has an input of at most 64 KB (R174). -/
theorem inLen_le_of_emit {s : State} (hrun : s.eng.phase = .run) (hsound : EngineInv s) (hstage : s.eng.stage = .emit)
    (hop : s.eng.op = opEncode) : s.eng.inLen.toNat ≤ Config.maxBlock := by
  have henc := hsound hrun
  simp only [Engine.sound, hstage] at henc
  obtain ⟨⟨-, -, hmax, -⟩, -⟩ := henc
  rwa [(scan_of_encode hop).2] at hmax

/-- Settles O42: the block is within the worst case and so within the capacity, where the emission answers its size or 0
(`emitFollowsTheEnvelope`); and a size that small is not the code of WRITE_ERROR. -/
theorem headroomExcludesWriteError : Obligations.HeadroomExcludesWriteError := by
  intro s t hrunning hsound hparse hstage hop hroom hstep
  have hblock := block_length_le_wcb hrunning.1 hparse hstage hop
  have hsmall : s.block.length ≤ 2 * 65536 + 5 := by
    have hin : s.eng.inLen.toNat ≤ 65536 := inLen_le_of_emit hrunning.1 hsound hstage hop
    have hworst := wcb_le s.eng.inLen.toNat s.eng.cls
    omega
  have hcode : BitVec.ofNat 32 s.block.length ≠ 0xFFFFFFFD := by bv_omega
  obtain ⟨u, hu, -, hfits, hover, -⟩ := emitFollowsTheEnvelope s _ hrunning hsound hstage rfl
  rw [hu] at hstep
  cases hstep
  obtain hle | hlt := le_or_gt (s.block.length : Int) s.eng.softEff
  · obtain ⟨⟨hregs, -⟩, -⟩ := hfits hle
    rw [hregs]
    exact ⟨hcode, .inl rfl⟩
  · obtain ⟨pos, hregs, -⟩ := hover hlt (hblock.trans hroom)
    rw [hregs]
    have hzero : (0 : Reg) ≠ 0xFFFFFFFD := by decide
    exact ⟨hzero, .inr rfl⟩

end Sys2Proof.Machine
end

section
/-! Reset and the idle block (10_state.md R47; 70_reset_and_hazards.md R320, R321, R323, R332). -/

namespace Sys2Proof.Machine

/-! ## The idle block -/

/-- An idle engine does nothing (R323). -/
theorem engineStep_of_idle {s : State} (h : s.eng.phase = .idle) : engineStep s = .next s := by
  simp only [engineStep, h]

/-- The registers that report how a command ended are as before. -/
def SameResults (s t : State) : Prop :=
  t.regs.result = s.regs.result ∧ t.regs.cause = s.regs.cause ∧ t.regs.faultPos = s.regs.faultPos

theorem SameResults.of_regs {s t : State} (h : t.regs = s.regs) : SameResults s t := by
  rw [SameResults, h]
  exact ⟨rfl, rfl, rfl⟩

theorem not_sameResults {s t : State}
    (h : t.regs.result ≠ s.regs.result ∨ t.regs.cause ≠ s.regs.cause ∨ t.regs.faultPos ≠ s.regs.faultPos) :
    ¬SameResults s t := by
  rintro ⟨hresult, hcause, hpos⟩
  obtain h | h | h := h
  · exact h hresult
  · exact h hcause
  · exact h hpos

/-- A host's act that may change the results: a reset, or a write to CMD that is accepted (R332 (d)). -/
def SetsResults (s : State) (act : HostAct) : Prop :=
  act = .reset ∨ ∃ a w, a = s.params.regBase + 0x0C ∧ act = .regWrite a 4 w ∧ s.busy = false

/-- An access to the register at `off` is 4 bytes wide and starts `off` behind REG_BASE. -/
theorem eq_of_regAccess_register {p : Params} {a : Addr} {w off : Nat} (h : regAccess p a w = .register off) :
    a = p.regBase + BitVec.ofNat 64 off ∧ w = 4 := by
  obtain ⟨hacc, -⟩ | ⟨hacc, -⟩ | ⟨hacc, -, hw, -⟩ := regAccess_cases p a w <;> rw [hacc] at h <;> cases h
  refine ⟨?_, hw⟩
  rw [regDistance, BitVec.ofNat_toNat, BitVec.setWidth_eq, BitVec.add_comm, BitVec.sub_add_cancel]

/-- Every other act of the host leaves the results and the engine alone. -/
theorem landHost_setsResults_or {act : HostAct} {s t : State} (h : landHost act s = .next t) :
    SetsResults s act ∨ (SameResults s t ∧ t.eng = s.eng) := by
  cases act with
  | regWrite a w v =>
    obtain ⟨-, he⟩ | ⟨-, he⟩ | ⟨off, -, -, he⟩ | ⟨-, -, he⟩ | ⟨hacc, hidle, -⟩ := landRegWrite_cases s a w v
    · rw [landHost, he] at h; cases h
      exact .inr ⟨.of_regs rfl, rfl⟩
    · rw [landHost, he] at h; cases h
    · rw [landHost, he] at h; cases h
      obtain ⟨-, -, hresult, hcause, hpos⟩ := regWrite_readOnly s.regs off v
      exact .inr ⟨⟨hresult, hcause, hpos⟩, rfl⟩
    · rw [landHost, he] at h; cases h
      exact .inr ⟨.of_regs rfl, rfl⟩
    · obtain ⟨haddr, rfl⟩ := eq_of_regAccess_register hacc
      exact .inl (.inr ⟨a, v, haddr, rfl, hidle⟩)
  | regRead a w =>
    obtain ⟨-, he⟩ | ⟨-, he⟩ | ⟨off, -, he⟩ := landRegRead_cases s a w <;> rw [landHost, he] at h <;> cases h
    · exact .inr ⟨.of_regs rfl, rfl⟩
    · exact .inr ⟨.of_regs rfl, rfl⟩
  | memWrite a v =>
    rw [landHost, hostMemWrite] at h
    split at h <;> cases h
    exact .inr ⟨.of_regs rfl, rfl⟩
  | memRead a =>
    cases h
    unfold State.hostMemRead
    split <;> exact .inr ⟨.of_regs rfl, rfl⟩
  | reset => exact .inl (.inl rfl)

/-- In an idle block the engine's step behind a landing event adds nothing to the event's effect on the results. -/
theorem landEvent_setsResults_or {e : HostEvent} {s t : State} (hidle : s.eng.phase = .idle)
    (h : landEvent e s = .next t) : SetsResults s e.act ∨ SameResults s t := by
  obtain hland | ⟨u, hu, hland⟩ := landEvent_cases e s <;> rw [hland] at h
  · exact (landHost_setsResults_or h).imp_right And.left
  · obtain hsets | ⟨hsame, heng⟩ := landHost_setsResults_or hu
    · exact .inl hsets
    · rw [engineStep_of_idle (heng ▸ hidle)] at h
      cases h
      exact .inr hsame

/-- Settles O50: the idle engine's own step is none, and of the events that land only a reset and an accepted command
touch the results. -/
theorem idleBlockHoldsItsResults : Obligations.IdleBlockHoldsItsResults := by
  refine ⟨fun s hidle hhost => (step_of_no_host hhost).trans (engineStep_of_idle hidle), fun s t hidle h hchange => ?_⟩
  have hchanged := not_sameResults hchange
  obtain ⟨-, hstep⟩ | ⟨e, rest, hhost, hdue, hstep⟩ | ⟨e, rest, -, -, hstep⟩ := step_cases s <;> rw [hstep] at h
  · rw [engineStep_of_idle hidle] at h
    cases h
    exact absurd (.of_regs rfl) hchanged
  · obtain hsets | hsame := landEvent_setsResults_or (s := { s with host := rest }) hidle h
    · exact ⟨e, rest, hhost, hdue, hsets⟩
    · exact absurd hsame hchanged
  · rw [engineStep_of_idle (s := { s with host := { e with wait := e.wait - 1 } :: rest }) hidle] at h
    cases h
    exact absurd (.of_regs rfl) hchanged

/-! ## Reset -/

/-- After reset the hard-wired registers read their values, every other one 0 (R320). -/
theorem regRead_reset (p : Params) (off : Nat) :
    regRead p Regs.reset off =
      if off = 0x00 then 0x4B345A4C
      else if off = 0x04 then (if p.deltaPresent then 0x00050C01 else 0x00050C00)
      else if off = 0x08 then 0x00002000 else 0 := by
  unfold regRead
  split <;> try rfl
  simp_all

/-- Reset signals no completion (R320). -/
theorem hardReset_donePend (s : State) : s.hardReset.donePend = false := by
  rw [State.donePend, State.hardReset_regs]; rfl

theorem hardReset_irq (s : State) : s.hardReset.irq = false := by
  rw [irq_eq, hardReset_donePend, Bool.false_and]

/-- A block with no command running has nothing to abandon. -/
theorem hardReset_sameMemory {s : State} (h : s.busy = false) : SameMemory s s.hardReset := by
  simp [SameMemory, State.hardReset, h]

/-- Reset edits an abandoned command's OUT and STATE alone (R321). -/
theorem hardReset_edited (s : State) : Edited s.eng.MayWrite s.mem s.hardReset.mem := by
  have hout (huse : usesOut s.eng.op = true) (a : Nat) (hlo : s.eng.outAddr.toNat ≤ a)
      (hhi : a < s.eng.outAddr.toNat + s.eng.outCap.toNat) : s.eng.MayWrite a :=
    ⟨_, outSpan_mem_written huse, (spanHolds_iff _ a).mpr ⟨hlo, hhi⟩⟩
  have htable (huse : usesState s.eng.op = true) (a : Nat) (hlo : s.eng.stateAddr.toNat ≤ a)
      (hhi : a < s.eng.stateAddr.toNat + Config.stateMinSize) : s.eng.MayWrite a :=
    ⟨_, stateSpan_mem_written huse, (spanHolds_iff _ a).mpr ⟨hlo, hhi⟩⟩
  unfold State.hardReset
  dsimp only
  split_ifs with hstate houtput houtput
  · exact (Edited.refl.havoc _ _ _ (hout houtput.2)).havoc _ _ _ (htable hstate.2)
  · exact Edited.refl.havoc _ _ _ (htable hstate.2)
  · exact Edited.refl.havoc _ _ _ (hout houtput.2)
  · exact .refl

/-- Settles O49: a due reset is `hardReset`, whose registers and engine are the reset ones. -/
theorem resetGivesListedValues : Obligations.ResetGivesListedValues := by
  intro s rest h
  have hparams : ({ s with host := rest } : State).hardReset.params = s.params := State.hardReset_params _
  refine ⟨_, step_of_due h, rfl, hardReset_irq _, hardReset_donePend _, fun off => ?_,
    hardReset_sameMemory (s := { s with host := rest }), fun _ => (hardReset_edited { s with host := rest }).sameOutside,
    hparams, State.hardReset_host _⟩
  rw [hparams, State.hardReset_regs]
  exact regRead_reset s.params off

end Sys2Proof.Machine
end
